-- ==== Sys2Proof/Word.lean ====
section
/-! DEFINITION. The word types of the CORE frame encoder: bytes, byte strings (R7) and the 96-bit packed datetime (R27, R130). -/

namespace Sys2Proof

/-- `u8` of R7. -/
abbrev Byte := BitVec 8

/-- A byte string of R7: a finite sequence of u8. -/
abbrev Bytes := List Byte

/-- A packed datetime as the 96-bit value of R27 (LS_VALUE): byte 0 of the datetime stands in bits 95:88. -/
abbrev Dt12 := BitVec 96

end Sys2Proof
end

