-- ==== Sys2Proof/Machine/Bytes.lean ====
section
/-! DEFINITION. The integer and byte primitives of R8 and R9, and the two memory primitives of R10 over a byte string. -/

namespace Sys2Proof.Machine

/-- `be_n(v)` of R9: `n` bytes, the most significant first (R42). -/
def be : Nat → Nat → Bytes
  | 0, _ => []
  | n + 1, v => BitVec.ofNat 8 (v / 256 ^ n) :: be n v

/-- The unsigned big-endian value of a byte string (R10, MemRead). -/
def beVal : Bytes → Nat
  | [] => 0
  | b :: r => b.toNat * 256 ^ r.length + beVal r

/-- `b[i:j)` of R8. -/
def slice (b : Bytes) (i j : Nat) : Bytes :=
  (b.drop i).take (j - i)

/-- `zext_N` of R9. -/
def zext (n : Nat) {m : Nat} (v : BitVec m) : BitVec n :=
  v.setWidth n

/-- `sext_N` of R9. R9 defines it for completeness; no rule of the block uses it. -/
def sext (n : Nat) {m : Nat} (v : BitVec m) : BitVec n :=
  v.signExtend n

/-- `swap16` of R9. -/
def swap16 (v : BitVec 16) : BitVec 16 :=
  (zext 16 (v.extractLsb' 0 8) <<< 8) ||| zext 16 (v.extractLsb' 8 8)

/-- `trunc(q)` of R9: the nearest integer in the direction of zero. -/
def trunc (q : Rat) : Int :=
  q.num.tdiv q.den

/-- `MemRead(addr, n)` of R10. -/
def memRead (fb : Bytes) (addr n : Nat) : Nat :=
  beVal (slice fb addr (addr + n))

/-- `MemWrite(addr, n, v)` of R10. -/
def memWrite (fb : Bytes) (addr n v : Nat) : Bytes :=
  fb.take addr ++ be n v ++ fb.drop (addr + n)

/-- The 12 bytes of a packed datetime, byte 0 from bits 95:88 (R27). -/
def dtBytes (d : Dt12) : Bytes :=
  be 12 d.toNat

/-- The packed datetime that 12 bytes hold (R27, R62). -/
def dtOfBytes (b : Bytes) : Dt12 :=
  BitVec.ofNat 96 (beVal b)

/-- A `blob` of R62: the 2-byte length, then the bytes. -/
def blob (b : Bytes) : Bytes :=
  be 2 b.length ++ b

end Sys2Proof.Machine
end

