-- ==== Sys2Proof/Syntax.lean ====
section
/-! DEFINITION. The commands of the block, one constructor of `Instr` for each row of spec/opcode_table.json, with the operand
kinds of R62 and the entries of R13. -/

namespace Sys2Proof

/-- The two streams of R12. -/
inductive Stream where
  | power
  | energy
deriving DecidableEq, Repr

/-- The two rounding policies of R12. -/
inductive Policy where
  | power
  | energy
deriving DecidableEq, Repr

/-- The value of an entry (R13): a rational for the integer tags, a byte string for the ASCII tag, a string of characters
(held as their bytes) for the octet tag. -/
inductive Value where
  | num (q : Rat)
  | str (s : Bytes)
  | hex (h : Bytes)
deriving DecidableEq, Repr

/-- An entry (R13): a tag and an interpreted value. -/
structure Entry where
  tag : Byte
  value : Value
deriving DecidableEq, Repr

/-- A snapshot (R13): entries in order. -/
abbrev Snapshot := List Entry

/-- The operand kind `entry` of R62. Its value stays raw until it is encoded (R63). -/
structure RawEntry where
  tag : Byte
  value : Bytes
deriving DecidableEq, Repr

/-- One (key, value) pair of the operand kind `readings` (R62, R180). -/
structure Reading where
  key : Bytes
  value : Bytes
deriving DecidableEq, Repr

/-- The ten commands of R68. A `policy` operand stays a byte, because each of its 256 values is legal (R71); a `stream` operand
is one of the two streams, because every other value is no command (R71, R77). -/
inductive Instr where
  /-- R210, opcode 0x00, format F0. -/
  | reset
  /-- R123, opcode 0x10, format F1. -/
  | crc16 (data : Bytes)
  /-- R110, opcode 0x20, format F2. -/
  | encField (tag : Byte) (value : Bytes)
  /-- R138, opcode 0x30, format F3. -/
  | packDtClock (policy : Byte)
  /-- R139, opcode 0x31, format F4. -/
  | packDtExplicit (policy : Byte) (ts : Bytes)
  /-- R151, opcode 0x40, format F5. -/
  | shouldEmit (stream : Stream) (dt : Dt12)
  /-- R168, opcode 0x50, format F6. -/
  | buildFrame (dt : Dt12) (ents : List RawEntry)
  /-- R188, opcode 0x60, format F7. -/
  | compose (stream : Stream) (dt : Dt12) (rd : List Reading)
  /-- R201, opcode 0x70, format F8. -/
  | encodeClock (stream : Stream) (rd : List Reading)
  /-- R202, opcode 0x71, format F9. -/
  | encodeExplicit (stream : Stream) (ts : Bytes) (rd : List Reading)
deriving DecidableEq, Repr

end Sys2Proof
end

