-- ==== Sys2Proof/WellFormed.lean ====
section
/-! DEFINITION. Which terms of `Instr` are commands that the port can carry: the length and count limits of R62. -/

namespace Sys2Proof

/-- A `blob` of R62 holds at most 65535 bytes. -/
def blobOk (b : Bytes) : Bool :=
  decide (b.length ≤ 65535)

/-- An `entries` operand of R62: at most 65535 entries, each value a blob. -/
def entriesOk (es : List RawEntry) : Bool :=
  decide (es.length ≤ 65535) && es.all fun e => blobOk e.value

/-- A `readings` operand of R62: at most 255 pairs, each key and each value a blob. -/
def readingsOk (rd : List Reading) : Bool :=
  decide (rd.length ≤ 255) && rd.all fun r => blobOk r.key && blobOk r.value

/-- The operands of a command fit the serializations of R62 and R68. -/
def Instr.wellFormed : Instr → Bool
  | .reset => true
  | .crc16 data => blobOk data
  | .encField _ value => blobOk value
  | .packDtClock _ => true
  | .packDtExplicit _ ts => blobOk ts
  | .shouldEmit _ _ => true
  | .buildFrame _ ents => entriesOk ents
  | .compose _ _ rd => readingsOk rd
  | .encodeClock _ rd => readingsOk rd
  | .encodeExplicit _ ts rd => blobOk ts && readingsOk rd

end Sys2Proof
end

