-- ==== Sys2Proof/Decode.lean ====
section
/-! DEFINITION. The decoder of R77, total on every byte string and rejecting by name, and after it the encoder, written from the
formats of R68 and R69. -/

namespace Sys2Proof

open Machine

/-- Why a byte string is no command (R77). The block answers each of them with IllegalCommand (R211). -/
inductive DecodeError where
  /-- `len(C) = 0`. -/
  | emptyCommand
  /-- An opcode that R68 does not list (R70). -/
  | reservedOpcode (op : Byte)
  /-- An operand or a length prefix runs past the end of the command. -/
  | truncated
  /-- A stream operand that is not 0x00 or 0x01 (R71). -/
  | badStream (b : Byte)
  /-- Bytes remain after the last operand. -/
  | surplusBytes (n : Nat)
deriving DecidableEq, Repr

/-- What a reader of one operand answers: the operand and the bytes after it, or why there is none. -/
abbrev Parsed (α : Type) := Except DecodeError (α × Bytes)

/-- The kind `u8` of R62. -/
def takeU8 : Bytes → Parsed Byte
  | [] => .error .truncated
  | b :: r => .ok (b, r)

/-- The next `n` bytes, if there are so many. -/
def takeBytes (n : Nat) (bs : Bytes) : Parsed Bytes :=
  if n ≤ bs.length then .ok (bs.take n, bs.drop n) else .error .truncated

/-- The kind `blob` of R62. -/
def takeBlob (bs : Bytes) : Parsed Bytes :=
  match takeBytes 2 bs with
  | .error e => .error e
  | .ok (n, r) => takeBytes (beVal n) r

/-- The kind `dt12` of R62. Any 12 bytes are accepted (R77). -/
def takeDt12 (bs : Bytes) : Parsed Dt12 :=
  match takeBytes 12 bs with
  | .error e => .error e
  | .ok (d, r) => .ok (dtOfBytes d, r)

/-- A stream operand (R71). -/
def takeStream (bs : Bytes) : Parsed Stream :=
  match takeU8 bs with
  | .error e => .error e
  | .ok (b, r) =>
    if b = 0x00 then .ok (.power, r) else if b = 0x01 then .ok (.energy, r) else .error (.badStream b)

/-- `n` operands of one kind, one after the other. -/
def takeMany {α : Type} (item : Bytes → Parsed α) : Nat → Bytes → Parsed (List α)
  | 0, bs => .ok ([], bs)
  | n + 1, bs =>
    match item bs with
    | .error e => .error e
    | .ok (x, r) =>
      match takeMany item n r with
      | .error e => .error e
      | .ok (xs, r') => .ok (x :: xs, r')

/-- The kind `entry` of R62; its value stays raw (R63). -/
def takeEntry (bs : Bytes) : Parsed RawEntry :=
  match takeU8 bs with
  | .error e => .error e
  | .ok (tag, r) =>
    match takeBlob r with
    | .error e => .error e
    | .ok (value, r') => .ok (⟨tag, value⟩, r')

/-- The kind `entries` of R62. -/
def takeEntries (bs : Bytes) : Parsed (List RawEntry) :=
  match takeBytes 2 bs with
  | .error e => .error e
  | .ok (m, r) => takeMany takeEntry (beVal m) r

/-- One key and value pair of the kind `readings` of R62. -/
def takeReading (bs : Bytes) : Parsed Reading :=
  match takeBlob bs with
  | .error e => .error e
  | .ok (key, r) =>
    match takeBlob r with
    | .error e => .error e
    | .ok (value, r') => .ok (⟨key, value⟩, r')

/-- The kind `readings` of R62. -/
def takeReadings (bs : Bytes) : Parsed (List Reading) :=
  match takeU8 bs with
  | .error e => .error e
  | .ok (k, r) => takeMany takeReading k.toNat r

/-- Format F2 (R69): `tag:u8`, `value:blob`. -/
def takeEncField (bs : Bytes) : Parsed Instr :=
  match takeU8 bs with
  | .error e => .error e
  | .ok (tag, r) =>
    match takeBlob r with
    | .error e => .error e
    | .ok (value, r') => .ok (.encField tag value, r')

/-- Format F4 (R69): `policy:u8`, `ts:blob`. -/
def takePackDtExplicit (bs : Bytes) : Parsed Instr :=
  match takeU8 bs with
  | .error e => .error e
  | .ok (policy, r) =>
    match takeBlob r with
    | .error e => .error e
    | .ok (ts, r') => .ok (.packDtExplicit policy ts, r')

/-- Format F5 (R69): `stream:u8`, `dt:dt12`. -/
def takeShouldEmit (bs : Bytes) : Parsed Instr :=
  match takeStream bs with
  | .error e => .error e
  | .ok (stream, r) =>
    match takeDt12 r with
    | .error e => .error e
    | .ok (dt, r') => .ok (.shouldEmit stream dt, r')

/-- Format F6 (R69): `dt:dt12`, `ents:entries`. -/
def takeBuildFrame (bs : Bytes) : Parsed Instr :=
  match takeDt12 bs with
  | .error e => .error e
  | .ok (dt, r) =>
    match takeEntries r with
    | .error e => .error e
    | .ok (ents, r') => .ok (.buildFrame dt ents, r')

/-- Format F7 (R69): `stream:u8`, `dt:dt12`, `rd:readings`. -/
def takeCompose (bs : Bytes) : Parsed Instr :=
  match takeStream bs with
  | .error e => .error e
  | .ok (stream, r) =>
    match takeDt12 r with
    | .error e => .error e
    | .ok (dt, r') =>
      match takeReadings r' with
      | .error e => .error e
      | .ok (rd, r'') => .ok (.compose stream dt rd, r'')

/-- Format F8 (R69): `stream:u8`, `rd:readings`. -/
def takeEncodeClock (bs : Bytes) : Parsed Instr :=
  match takeStream bs with
  | .error e => .error e
  | .ok (stream, r) =>
    match takeReadings r with
    | .error e => .error e
    | .ok (rd, r') => .ok (.encodeClock stream rd, r')

/-- Format F9 (R69): `stream:u8`, `ts:blob`, `rd:readings`. -/
def takeEncodeExplicit (bs : Bytes) : Parsed Instr :=
  match takeStream bs with
  | .error e => .error e
  | .ok (stream, r) =>
    match takeBlob r with
    | .error e => .error e
    | .ok (ts, r') =>
      match takeReadings r' with
      | .error e => .error e
      | .ok (rd, r'') => .ok (.encodeExplicit stream ts rd, r'')

/-- The operands that the opcode's format names, read left to right (R61, R68, R77). -/
def operands (op : Byte) (bs : Bytes) : Parsed Instr :=
  if op = 0x00 then .ok (.reset, bs)
  else if op = 0x10 then (takeBlob bs).map fun (data, r) => (.crc16 data, r)
  else if op = 0x20 then takeEncField bs
  else if op = 0x30 then (takeU8 bs).map fun (policy, r) => (.packDtClock policy, r)
  else if op = 0x31 then takePackDtExplicit bs
  else if op = 0x40 then takeShouldEmit bs
  else if op = 0x50 then takeBuildFrame bs
  else if op = 0x60 then takeCompose bs
  else if op = 0x70 then takeEncodeClock bs
  else if op = 0x71 then takeEncodeExplicit bs
  else .error (.reservedOpcode op)

/-- The decoder of R77. -/
def decode : Bytes → Except DecodeError Instr
  | [] => .error .emptyCommand
  | op :: bs =>
    match operands op bs with
    | .error e => .error e
    | .ok (i, []) => .ok i
    | .ok (_, b :: r) => .error (.surplusBytes (b :: r).length)

/-- The opcode byte of each command (R68). -/
def opcode : Instr → Byte
  | .reset => 0x00
  | .crc16 _ => 0x10
  | .encField _ _ => 0x20
  | .packDtClock _ => 0x30
  | .packDtExplicit _ _ => 0x31
  | .shouldEmit _ _ => 0x40
  | .buildFrame _ _ => 0x50
  | .compose _ _ _ => 0x60
  | .encodeClock _ _ => 0x70
  | .encodeExplicit _ _ _ => 0x71

/-- The operand byte of a stream (R71). -/
def streamByte : Stream → Byte
  | .power => 0x00
  | .energy => 0x01

/-- The serialization of an `entry` (R62). -/
def entryBytes (e : RawEntry) : Bytes :=
  e.tag :: blob e.value

/-- The serialization of `entries` (R62). -/
def entriesBytes (es : List RawEntry) : Bytes :=
  be 2 es.length ++ es.flatMap entryBytes

/-- The serialization of one pair of `readings` (R62). -/
def readingBytes (r : Reading) : Bytes :=
  blob r.key ++ blob r.value

/-- The serialization of `readings` (R62). -/
def readingsBytes (rd : List Reading) : Bytes :=
  be 1 rd.length ++ rd.flatMap readingBytes

/-- The operand bytes of a command, in the order of its format (R68, R69). -/
def operandBytes : Instr → Bytes
  | .reset => []
  | .crc16 data => blob data
  | .encField tag value => tag :: blob value
  | .packDtClock policy => [policy]
  | .packDtExplicit policy ts => policy :: blob ts
  | .shouldEmit stream dt => streamByte stream :: dtBytes dt
  | .buildFrame dt ents => dtBytes dt ++ entriesBytes ents
  | .compose stream dt rd => streamByte stream :: dtBytes dt ++ readingsBytes rd
  | .encodeClock stream rd => streamByte stream :: readingsBytes rd
  | .encodeExplicit stream ts rd => streamByte stream :: blob ts ++ readingsBytes rd

/-- The encoder: the command byte string of R61. -/
def encode (i : Instr) : Bytes :=
  opcode i :: operandBytes i

/-- The first `n` bytes of a table word: bit 0 is the least significant bit of the first byte. -/
def wordBytes : Nat → Nat → Bytes
  | 0, _ => []
  | n + 1, w => BitVec.ofNat 8 w :: wordBytes n (w / 256)

/-- A command's first bytes completed with zero operand bytes, one at a time, until the decoder no longer finds it too short.
A command's length is exact (R77), so at most one completion decodes. -/
def zeroCompletion : Nat → Bytes → Bytes
  | 0, bs => bs
  | fuel + 1, bs =>
    match decode bs with
    | .error .truncated => zeroCompletion fuel (bs ++ [0])
    | _ => bs

/-- The command whose first `nbits` bits are `w` and whose other operand bits are zero. No completion by zeros needs more than
200000 bytes: the longest is 65535 empty entries of 3 bytes each (R62). -/
def tableCommand (nbits w : Nat) : Bytes :=
  zeroCompletion 200000 (wordBytes (nbits / 8) w)

/-- The instruction the decoder reads from the table word `w`. -/
def decodeTableWord (nbits w : Nat) : Option Instr :=
  (decode (tableCommand nbits w)).toOption

end Sys2Proof
end

