-- ==== Sys2Proof/Config.lean ====
section
/-! DEFINITION. What is fixed for every machine of this family (the constants the source gives, R5) and the values the spec leaves
open: uninterpreted functions with no body. -/

namespace Sys2Proof

/-- The seven components of a calendar time (R33, R131), each a natural number. -/
structure Components where
  year : Nat
  month : Nat
  day : Nat
  weekday : Nat
  hour : Nat
  minute : Nat
  second : Nat
deriving DecidableEq, Repr

/-- Par.CRC_POLY of R5. -/
def Config.crcPoly : BitVec 16 := 0x8408

/-- Par.CRC_SEED of R5. -/
def Config.crcSeed : BitVec 16 := 0xFFFF

/-- Par.CONTROL of R5: the fixed constant 19. -/
def Config.control : Byte := 0x13

/-- Par.STRUCT_TAG of R5. -/
def Config.structTag : Byte := 0x02

/-- Par.DT_COUNT of R5. -/
def Config.dtCount : Byte := 0x0C

/-- Par.LEN_BASE of R5. -/
def Config.lenBase : Nat := 0xA000

/-- A `Par.TS_PARSE` other than the default (R135, D19): for each build, named by a number, an uninterpreted function from the
string to seven naturals or failure. Nothing can be proved of its values (log entry 5). -/
opaque Config.tsParseOther : Nat → Bytes → Option Components

/-- A `Par.SCALE_CONV` other than the default (R182, D26): for each build, named by a number, an uninterpreted function of the
rational and the scale. Nothing can be proved of its values (log entry 6). -/
opaque Config.scaleConvOther : Nat → Rat → Nat → Int

end Sys2Proof
end

