-- ==== Sys2Proof/Machine/State.lean ====
section
/-! DEFINITION. The state of the block as plain data: the registers of 10_state.md, the two records that construction fixes (R5), the
command port (R60), and the machine right after construction (R37). -/

namespace Sys2Proof.Machine

/-- No command stops the block (R220, R228): a command's faults are responses, and the machine goes on. The one stop is a term of
`State` that is no machine. -/
inductive Fault where
  /-- Raised by `step` for a state whose Cfg or Par fails the construction checks of R25 and R100: the model has no machine for
  it and no command runs. Safe: nothing is claimed of such a state (log entry 7). -/
  | notConstructed
deriving DecidableEq, Repr

/-- Why the model does not go on. -/
inductive Refusal where
  /-- Raised by an arm of `exec` for an instruction with no meaning yet. No arm does. Safe. -/
  | notModelled (mnemonic : String)
  /-- Raised by `construct` for a Cfg or a Par that fails the checks of R25 and R100: it is refused at construction. Safe. -/
  | constructionRefused
deriving DecidableEq, Repr

/-- The Meter Identity registers of R23. TARGET and SOURCE are 7 bits wide, so that 0..127 are their only values. ADDR is
derived from them (R24) and not stored a second time. -/
structure Cfg where
  target : BitVec 7
  source : BitVec 7
  listLabel : Bytes
  meterId : Bytes
  meterType : Bytes
deriving DecidableEq, Repr

/-- Par.TS_PARSE of R5: the default of R135, or another parser (log entry 5). -/
inductive TsParse where
  | digitRuns
  | other (k : Nat)
deriving DecidableEq, Repr

/-- Par.SCALE_CONV of R5: the default of R182, or another conversion (log entry 6). -/
inductive ScaleConv where
  | exactTrunc
  | other (k : Nat)
deriving DecidableEq, Repr

/-- Par.ENERGY_PREFIX of R186. -/
inductive EnergyPrefix where
  | ownInput
  | lastPower
deriving DecidableEq, Repr

/-- The build parameters of R5 that the source does not fix. -/
structure Par where
  tagU32 : Byte
  tagU16 : Byte
  tagAscii : Byte
  tagOctet : Byte
  hdlcFlag : Byte
  protoMarker : BitVec 32
  dtSuffix : BitVec 32
  tsParse : TsParse
  scaleConv : ScaleConv
  energyPrefix : EnergyPrefix
deriving DecidableEq, Repr

/-- The default of every build parameter (R5). -/
def Par.default : Par where
  tagU32 := 0x06
  tagU16 := 0x12
  tagAscii := 0x0A
  tagOctet := 0x09
  hdlcFlag := 0x7E
  protoMarker := 0xE6E7000F
  dtSuffix := 0xFF800000
  tsParse := .digitRuns
  scaleConv := .exactTrunc
  energyPrefix := .ownInput

/-- One transaction on the command port (R60): the complete command byte string, and what the host's clock input shows while the
command runs (R33). -/
structure Transaction where
  bytes : Bytes
  clock : Components
deriving DecidableEq, Repr

/-- The state of the block and of its command port. -/
structure State where
  /-- The Meter Identity registers (R23). No command writes them (R26). ADDR is computed from them (log entry 20). -/
  cfg : Cfg
  /-- The build parameters (R5). No command writes them (log entry 4). -/
  par : Par
  /-- LastSeen[POWER] (R27): `none` is LS_VALID = 0 (log entry 12). -/
  lastSeenPower : Option Dt12
  /-- LastSeen[ENERGY] (R27). -/
  lastSeenEnergy : Option Dt12
  /-- LastPower (R31). It stays `none` in an OWN_INPUT build, which has no such register (log entry 17). -/
  lastPower : Option Snapshot
  /-- The model's own field: the transactions the host has still to deliver, in the order the arbiter chose (R49). The head is the
  one on the port (log entry 1). -/
  inbox : List Transaction
  /-- The model's own field: the host clock input (R33) as the current transaction shows it. No command reads an older one (log entry 2). -/
  clock : Components
  /-- The model's own field: the response byte string (R72) last given on the port, `none` before the first (log entry 8). -/
  response : Option Bytes
deriving DecidableEq, Repr

/-- The machine right after construction (R37, R240) with the default Par. The spec gives no value for the registers of Cfg, so
zeros and empty strings stand for them (log entry 3). The three fields of the model's own are empty (log entries 1, 2, 8). -/
def State.reset : State where
  cfg := { target := 0, source := 0, listLabel := [], meterId := [], meterType := [] }
  par := Par.default
  lastSeenPower := none
  lastSeenEnergy := none
  lastPower := none
  inbox := []
  clock := { year := 0, month := 0, day := 0, weekday := 0, hour := 0, minute := 0, second := 0 }
  response := none

end Sys2Proof.Machine
end

