-- ==== Sys2Proof/Machine/Flags.lean ====
section
/-! DEFINITION. What stands where flags would: the block has no flags and no condition codes (R22), and a command's outcome is the
status byte of its response (R73, R220). -/

namespace Sys2Proof.Machine

/-- The faults of 60_exceptions.md. -/
inductive FaultCode where
  /-- R221. -/
  | missingField
  /-- R222. -/
  | invalidEntry
  /-- R223. -/
  | invalidTimestamp
  /-- R224. -/
  | frameTooLong
  /-- R225. -/
  | illegalCommand
deriving DecidableEq, Repr

/-- The three outcomes of R220. -/
inductive Status where
  | ok
  | suppressed
  | fault (f : FaultCode)
deriving DecidableEq, Repr

/-- The status codes of the faults (R73). -/
def FaultCode.code : FaultCode → Byte
  | .missingField => 0x81
  | .invalidEntry => 0x82
  | .invalidTimestamp => 0x83
  | .frameTooLong => 0x84
  | .illegalCommand => 0x8F

/-- The status codes of R73. -/
def Status.code : Status → Byte
  | .ok => 0x00
  | .suppressed => 0x01
  | .fault f => f.code

/-- What a computation of a command answers: its value, or the fault it raises (R11). -/
abbrev Result (α : Type) := Except FaultCode α

end Sys2Proof.Machine
end

