-- ==== Sys2Proof/Machine/Ops.lean ====
section
/-! DEFINITION. The named operations on the state: the Last-Seen Table and LastPower (R10), the command port (R60, R72), and fault
entry as one shared operation (R226). -/

namespace Sys2Proof.Machine

/-- `LastSeen[s]` (R10, R34). -/
def State.lastSeen (s : State) : Stream → Option Dt12
  | .power => s.lastSeenPower
  | .energy => s.lastSeenEnergy

/-- `LastSeen[s] <- v` (R10). -/
def State.setLastSeen (s : State) (stream : Stream) (v : Option Dt12) : State :=
  match stream with
  | .power => { s with lastSeenPower := v }
  | .energy => { s with lastSeenEnergy := v }

/-- `LastPower <- v`, where the register exists: only in a LAST_POWER build (R31). -/
def State.setLastPower (s : State) (v : Option Snapshot) : State :=
  match s.par.energyPrefix with
  | .lastPower => { s with lastPower := v }
  | .ownInput => s

/-- The response `status || payload` of R72 on the port. -/
def State.respond (s : State) (status : Status) (payload : Bytes) : State :=
  { s with response := some (status.code :: payload) }

/-- `return v` of R11: status OK and the payload. -/
def State.respondOk (s : State) (payload : Bytes) : State :=
  s.respond .ok payload

/-- `suppress` of R11: status SUPPRESSED and no payload. -/
def State.suppress (s : State) : State :=
  s.respond .suppressed []

/-- Fault entry (R226): no state is written, every computed value is discarded, and the response is the status byte alone. There
is no saved state and no return (R227, R228): the next command finds the state as it was. -/
def State.raise (s : State) (f : FaultCode) : State :=
  s.respond (.fault f) []

/-- The end of a command that writes no state: its payload, or the fault it raised. -/
def State.finish (s : State) : Result Bytes → State
  | .ok payload => s.respondOk payload
  | .error f => s.raise f

/-- The state after construction (R37) and after RESET (R210) of the machine that `s` is: nothing seen, no power snapshot. -/
def State.clear (s : State) : State :=
  ((s.setLastSeen .power none).setLastSeen .energy none).setLastPower none

/-- The commit step of an encode (R200 step 4, R203). -/
def State.commit (s : State) (stream : Stream) (dt : Dt12) (snap : Snapshot) : State :=
  match stream with
  | .power => (s.setLastSeen .power (some dt)).setLastPower (some snap)
  | .energy => s.setLastSeen .energy (some dt)

/-- The transaction on the port, taken off it: its command bytes, and the state in which that command runs, where the clock input
shows this transaction's draw (R33, R60). `none` when no command waits. -/
def State.accept (s : State) : Option (Bytes × State) :=
  match s.inbox with
  | [] => none
  | t :: rest => some (t.bytes, { s with inbox := rest, clock := t.clock })

/-- ADDR of R24. -/
def Cfg.addr (c : Cfg) : BitVec 16 :=
  (((zext 16 c.target <<< 1) ||| 1) <<< 8) ||| ((zext 16 c.source <<< 1) ||| 1)

end Sys2Proof.Machine
end

