-- ==== Sys2Proof/Machine/Construct.lean ====
section
/-! DEFINITION. Construction, the block's power-on (R240), and its checks on Cfg and Par (R25, R100). -/

namespace Sys2Proof.Machine

/-- A Cfg as the host supplies it (R242), before the checks of R25. -/
structure MeterIdentity where
  target : Nat
  source : Nat
  listLabel : Bytes
  meterId : Bytes
  meterType : Bytes
deriving DecidableEq, Repr

/-- An identity string of R25: at most 255 bytes, each in 0x00..0x7F. -/
def identityOk (b : Bytes) : Bool :=
  decide (b.length ≤ 255) && b.all fun x => decide (x.toNat ≤ 0x7F)

/-- The checks of R25 on the registers. The 0..127 limit of TARGET and SOURCE is their width. -/
def Cfg.ok (c : Cfg) : Bool :=
  identityOk c.listLabel && identityOk c.meterId && identityOk c.meterType

/-- The check of R100: the four tags are pairwise distinct. -/
def Par.ok (p : Par) : Bool :=
  decide (p.tagU32 ≠ p.tagU16 ∧ p.tagU32 ≠ p.tagAscii ∧ p.tagU32 ≠ p.tagOctet ∧
    p.tagU16 ≠ p.tagAscii ∧ p.tagU16 ≠ p.tagOctet ∧ p.tagAscii ≠ p.tagOctet)

/-- The state is one that construction can give: its Cfg and its Par pass the checks (R240). -/
def State.constructed (s : State) : Bool :=
  s.cfg.ok && s.par.ok

/-- Construction (R240): the checks, then the state of R37. -/
def construct (m : MeterIdentity) (p : Par) : Host.Outcome State Fault Refusal :=
  let cfg : Cfg := { target := BitVec.ofNat 7 m.target, source := BitVec.ofNat 7 m.source, listLabel := m.listLabel,
                     meterId := m.meterId, meterType := m.meterType }
  if m.target ≤ 127 ∧ m.source ≤ 127 ∧ cfg.ok = true ∧ p.ok = true then
    .next { State.reset with cfg := cfg, par := p }
  else .refused .constructionRefused

end Sys2Proof.Machine
end

