-- ==== Sys2Proof/Machine/Operands.lean ====
section
/-! DEFINITION. How operand bytes are read: policies (R71), decimal numerals (R64, R65), hex strings (R105), explicit timestamps (R135),
readings (R66, R180) and the interpretation of an entry (R101). -/

namespace Sys2Proof.Machine

/-- A `policy` operand (R71, R134): 0x00 selects POWER and every other value ENERGY. -/
def policyOf (b : Byte) : Policy :=
  if b = 0x00 then .power else .energy

/-- The policy of a stream inside an encode (R134, R200). -/
def streamPolicy : Stream → Policy
  | .power => .power
  | .energy => .energy

/-- An ASCII digit, 0x30..0x39. -/
def isDigit (b : Byte) : Bool :=
  decide (0x30 ≤ b.toNat) && decide (b.toNat ≤ 0x39)

/-- The decimal value of a string of ASCII digits. -/
def digitsVal (ds : Bytes) : Nat :=
  ds.foldl (fun v b => 10 * v + (b.toNat - 0x30)) 0

/-- An unsigned numeral `[0-9]+(\.[0-9]+)?` of R64 and its exact value. -/
def unsignedNumeral (b : Bytes) : Option Rat :=
  let ip := b.takeWhile isDigit
  if ip = [] then none
  else
    match b.dropWhile isDigit with
    | [] => some (mkRat (digitsVal ip) 1)
    | dot :: fp =>
      if dot = 0x2E ∧ fp ≠ [] ∧ fp.all isDigit = true then
        some (mkRat (digitsVal (ip ++ fp)) (10 ^ fp.length))
      else none

/-- A decimal numeral of R64 and the exact rational it denotes; `none` for every other byte string. -/
def numeral : Bytes → Option Rat
  | [] => none
  | b :: r => if b = 0x2D then (unsignedNumeral r).map fun q => -q else unsignedNumeral (b :: r)

/-- The last `fuel` decimal digits of `n`, with no leading zeros. -/
def decimalDigits : Nat → Nat → Bytes
  | 0, _ => []
  | fuel + 1, n =>
    if n < 10 then [BitVec.ofNat 8 (0x30 + n)]
    else decimalDigits fuel (n / 10) ++ [BitVec.ofNat 8 (0x30 + n % 10)]

/-- The decimal digits of `n` with no leading zeros; zero is `0`. A number has no more decimal digits than binary ones. -/
def natNumeral (n : Nat) : Bytes :=
  decimalDigits (Nat.log2 n + 1) n

/-- The canonical numeral of an integer (R65). -/
def canonicalNumeral (v : Int) : Bytes :=
  if v < 0 then 0x2D :: natNumeral v.natAbs else natNumeral v.natAbs

/-- The value of a hex digit, either case (R105). -/
def hexVal (b : Byte) : Option Nat :=
  if 0x30 ≤ b.toNat ∧ b.toNat ≤ 0x39 then some (b.toNat - 0x30)
  else if 0x41 ≤ b.toNat ∧ b.toNat ≤ 0x46 then some (b.toNat - 0x41 + 10)
  else if 0x61 ≤ b.toNat ∧ b.toNat ≤ 0x66 then some (b.toNat - 0x61 + 10)
  else none

/-- The bytes of a hex string, high digit first (R105); `none` for an odd length or a character that is no hex digit. -/
def hexDecode : Bytes → Option Bytes
  | [] => some []
  | [_] => none
  | hi :: lo :: r =>
    match hexVal hi, hexVal lo, hexDecode r with
    | some h, some l, some d => some (BitVec.ofNat 8 (16 * h + l) :: d)
    | _, _, _ => none

/-- The upper-case hex digit of a value below 16. -/
def hexDigitU (n : Nat) : Byte :=
  if n < 10 then BitVec.ofNat 8 (0x30 + n) else BitVec.ofNat 8 (0x41 + (n - 10))

/-- `hexU` of R185: the upper-case hex digits of a byte string. -/
def hexU : Bytes → Bytes
  | [] => []
  | b :: r => hexDigitU (b.toNat / 16) :: hexDigitU (b.toNat % 16) :: hexU r

/-- The decimal values of the maximal runs of ASCII digits, left to right (R135). `cur` is the value of a run that is open. -/
def digitRuns : Option Nat → Bytes → List Nat
  | none, [] => []
  | some v, [] => [v]
  | none, b :: r => if isDigit b then digitRuns (some (b.toNat - 0x30)) r else digitRuns none r
  | some v, b :: r => if isDigit b then digitRuns (some (10 * v + (b.toNat - 0x30))) r else v :: digitRuns none r

/-- The default TS_PARSE of R135: exactly seven runs of digits. -/
def tsParseRuns (ts : Bytes) : Option Components :=
  match digitRuns none ts with
  | [y, mo, d, wd, h, mi, s] =>
    some { year := y, month := mo, day := d, weekday := wd, hour := h, minute := mi, second := s }
  | _ => none

/-- `Par.TS_PARSE` (R67, R135). -/
def Par.parseTs (p : Par) (ts : Bytes) : Option Components :=
  match p.tsParse with
  | .digitRuns => tsParseRuns ts
  | .other k => Config.tsParseOther k ts

/-- An explicit timestamp (R139, R200): its components, or InvalidTimestamp. -/
def Par.explicitTime (p : Par) (ts : Bytes) : Result Components :=
  match p.parseTs ts with
  | some c => .ok c
  | none => .error .invalidTimestamp

/-- `Par.SCALE_CONV` (R182): by default the truncation of the exact product. -/
def Par.scale (p : Par) (q : Rat) (m : Nat) : Int :=
  match p.scaleConv with
  | .exactTrunc => trunc (q * m)
  | .other k => Config.scaleConvOther k q m

/-- `interp(tag, raw)` of R101. -/
def interp (p : Par) (e : RawEntry) : Result Entry :=
  if e.tag = p.tagU32 ∨ e.tag = p.tagU16 then
    match numeral e.value with
    | some q => .ok ⟨e.tag, .num q⟩
    | none => .error .invalidEntry
  else if e.tag = p.tagAscii then .ok ⟨e.tag, .str e.value⟩
  else if e.tag = p.tagOctet then .ok ⟨e.tag, .hex e.value⟩
  else .error .invalidEntry

/-- The interpretation of each entry of an operand in order; the first that fails decides (R168). -/
def interpAll (p : Par) : List RawEntry → Result Snapshot
  | [] => .ok []
  | e :: es =>
    match interp p e with
    | .error f => .error f
    | .ok v =>
      match interpAll p es with
      | .error f => .error f
      | .ok vs => .ok (v :: vs)

/-- The required keys of R66 and R181. -/
inductive Key where
  | P | PO | Q | QO | I1 | I2 | I3 | U1 | U2 | U3 | tPI | tPO | tQI | tQO
deriving DecidableEq, Repr

/-- The ASCII bytes of a key (R66). -/
def Key.bytes : Key → Bytes
  | .P => [0x50]
  | .PO => [0x50, 0x4F]
  | .Q => [0x51]
  | .QO => [0x51, 0x4F]
  | .I1 => [0x49, 0x31]
  | .I2 => [0x49, 0x32]
  | .I3 => [0x49, 0x33]
  | .U1 => [0x55, 0x31]
  | .U2 => [0x55, 0x32]
  | .U3 => [0x55, 0x33]
  | .tPI => [0x74, 0x50, 0x49]
  | .tPO => [0x74, 0x50, 0x4F]
  | .tQI => [0x74, 0x51, 0x49]
  | .tQO => [0x74, 0x51, 0x4F]

/-- The ten keys of the POWER stream, in declared order (R181). -/
def powerKeys : List Key :=
  [.P, .PO, .Q, .QO, .I1, .I2, .I3, .U1, .U2, .U3]

/-- The four keys the ENERGY stream adds (R181). -/
def energyKeys : List Key :=
  [.tPI, .tPO, .tQI, .tQO]

/-- The required keys of a stream (R181). -/
def requiredKeys (p : Par) : Stream → List Key
  | .power => powerKeys
  | .energy =>
    match p.energyPrefix with
    | .ownInput => powerKeys ++ energyKeys
    | .lastPower => energyKeys

/-- Some key occurs twice in the readings (R180). -/
def hasDuplicateKey : List Reading → Bool
  | [] => false
  | r :: rs => rs.any (fun r' => decide (r'.key = r.key)) || hasDuplicateKey rs

/-- `rd[k]`: the value bytes of the pair with this key, compared byte for byte (R66). -/
def lookup (rd : List Reading) (k : Key) : Option Bytes :=
  (rd.find? fun r => decide (r.key = k.bytes)).map Reading.value

/-- The exact rational of a reading, if it is there and is a numeral (R180). -/
def readingValue (rd : List Reading) (k : Key) : Option Rat :=
  (lookup rd k).bind numeral

end Sys2Proof.Machine
end

