-- ==== Sys2Proof/Machine/Composer.lean ====
section
/-! DEFINITION. The snapshot composer and its command COMPOSE (46_snapshot.md). -/

namespace Sys2Proof.Machine

/-- `conv_int` of R182. -/
def convInt (q : Rat) : Result Int :=
  if q.den = 1 then .ok q.num else .error .invalidEntry

/-- The conversion of each reading (R182). -/
def convert (p : Par) (k : Key) (q : Rat) : Result Int :=
  match k with
  | .P | .PO | .Q | .QO => convInt q
  | .U1 | .U2 | .U3 => .ok (trunc q)
  | .I1 | .I2 | .I3 => .ok (p.scale q 100)
  | .tPI | .tPO | .tQI | .tQO => .ok (p.scale q 1000)

/-- The converted value of one required reading (R181, R180, R182). -/
def converted (p : Par) (rd : List Reading) (k : Key) : Result Int :=
  match lookup rd k with
  | none => .error .missingField
  | some raw =>
    match numeral raw with
    | none => .error .invalidEntry
    | some q => convert p k q

/-- The ten converted power readings. -/
structure PowerValues where
  P : Int
  PO : Int
  Q : Int
  QO : Int
  I1 : Int
  I2 : Int
  I3 : Int
  U1 : Int
  U2 : Int
  U3 : Int
deriving DecidableEq, Repr

/-- The four converted energy readings. -/
structure EnergyValues where
  tPI : Int
  tPO : Int
  tQI : Int
  tQO : Int
deriving DecidableEq, Repr

/-- The conversions of the power keys in declared order (R187). -/
def powerValues (p : Par) (rd : List Reading) : Result PowerValues := do
  let vP ← converted p rd .P
  let vPO ← converted p rd .PO
  let vQ ← converted p rd .Q
  let vQO ← converted p rd .QO
  let vI1 ← converted p rd .I1
  let vI2 ← converted p rd .I2
  let vI3 ← converted p rd .I3
  let vU1 ← converted p rd .U1
  let vU2 ← converted p rd .U2
  let vU3 ← converted p rd .U3
  .ok { P := vP, PO := vPO, Q := vQ, QO := vQO, I1 := vI1, I2 := vI2, I3 := vI3, U1 := vU1, U2 := vU2, U3 := vU3 }

/-- The conversions of the energy keys in declared order (R187). -/
def energyValues (p : Par) (rd : List Reading) : Result EnergyValues := do
  let vtPI ← converted p rd .tPI
  let vtPO ← converted p rd .tPO
  let vtQI ← converted p rd .tQI
  let vtQO ← converted p rd .tQO
  .ok { tPI := vtPI, tPO := vtPO, tQI := vtQI, tQO := vtQO }

/-- An OBIS code as an entry (R183, R184): the octet entry of its 12 hex digits. -/
def obis (p : Par) (code : BitVec 48) : Entry :=
  ⟨p.tagOctet, .hex (hexU (be 6 code.toNat))⟩

/-- A u32 entry of a composed integer. -/
def entryU32 (p : Par) (v : Int) : Entry :=
  ⟨p.tagU32, .num v⟩

/-- A u16 entry of a composed integer. -/
def entryU16 (p : Par) (v : Int) : Entry :=
  ⟨p.tagU16, .num v⟩

/-- An ASCII entry of an identity string. -/
def entryAscii (p : Par) (b : Bytes) : Entry :=
  ⟨p.tagAscii, .str b⟩

/-- The POWER snapshot of R184: 25 entries. -/
def powerSnap (cfg : Cfg) (p : Par) (v : PowerValues) : Snapshot :=
  [entryAscii p cfg.listLabel,
   obis p 0x0101000005FF, entryAscii p cfg.meterId,
   obis p 0x0101600101FF, entryAscii p cfg.meterType,
   obis p 0x0101010700FF, entryU32 p v.P,
   obis p 0x0101020700FF, entryU32 p v.PO,
   obis p 0x0101030700FF, entryU32 p v.Q,
   obis p 0x0101040700FF, entryU32 p v.QO,
   obis p 0x01011F0700FF, entryU32 p v.I1,
   obis p 0x0101330700FF, entryU32 p v.I2,
   obis p 0x0101470700FF, entryU32 p v.I3,
   obis p 0x0101200700FF, entryU16 p v.U1,
   obis p 0x0101340700FF, entryU16 p v.U2,
   obis p 0x0101480700FF, entryU16 p v.U3]

/-- The ten entries the ENERGY snapshot appends (R185). -/
def energyTail (p : Par) (v : EnergyValues) (dt : Dt12) : Snapshot :=
  [obis p 0x0001010000FF, ⟨p.tagOctet, .hex (hexU (dtBytes dt))⟩,
   obis p 0x0101010800FF, entryU32 p v.tPI,
   obis p 0x0101020800FF, entryU32 p v.tPO,
   obis p 0x0101030800FF, entryU32 p v.tQI,
   obis p 0x0101040800FF, entryU32 p v.tQO]

/-- The snapshot of a stream once every check of R187 has passed: its power prefix (R186) and, for ENERGY, its tail. -/
def composeValues (cfg : Cfg) (p : Par) (lastPower : Option Snapshot) (stream : Stream) (rd : List Reading) (dt : Dt12) :
    Result Snapshot :=
  match stream, p.energyPrefix, lastPower with
  | .power, _, _ => do
    let v ← powerValues p rd
    .ok (powerSnap cfg p v)
  | .energy, .ownInput, _ => do
    let v ← powerValues p rd
    let w ← energyValues p rd
    .ok (powerSnap cfg p v ++ energyTail p w dt)
  | .energy, .lastPower, some snap => do
    let w ← energyValues p rd
    .ok (snap ++ energyTail p w dt)
  | .energy, .lastPower, none => .error .missingField

/-- `Compose(s, rd, dt)` of R187: the checks in their order; the first that fails decides. -/
def composeSnapshot (cfg : Cfg) (p : Par) (lastPower : Option Snapshot) (stream : Stream) (rd : List Reading) (dt : Dt12) :
    Result Snapshot :=
  if hasDuplicateKey rd then .error .invalidEntry
  else if stream = .energy ∧ p.energyPrefix = .lastPower ∧ lastPower = none then .error .missingField
  else if (requiredKeys p stream).any (fun k => (lookup rd k).isNone) then .error .missingField
  else if (requiredKeys p stream).any (fun k => (readingValue rd k).isNone) then .error .invalidEntry
  else composeValues cfg p lastPower stream rd dt

/-- The value bytes of an entry in a COMPOSE response (R188): a canonical numeral, or the bytes themselves. A number that is no
integer has none (R65). -/
def valueBytes : Value → Option Bytes
  | .num q => if q.den = 1 then some (canonicalNumeral q.num) else none
  | .str b => some b
  | .hex h => some h

/-- The `entries` form of a snapshot (R62), if each value has one: at most 65535 bytes, and at most 65535 entries. -/
def rawEntries : Snapshot → Option (List RawEntry)
  | [] => some []
  | e :: es =>
    match valueBytes e.value, rawEntries es with
    | some v, some rs => if v.length ≤ 65535 then some (⟨e.tag, v⟩ :: rs) else none
    | _, _ => none

/-- The payload of a COMPOSE response (R72, R188). A snapshot with no `entries` form raises InvalidEntry, the fault of a value that does
not fit its width (R222): DEDUCED, log entry 9. -/
def snapshotPayload (snap : Snapshot) : Result Bytes :=
  match rawEntries snap with
  | some rs => if rs.length ≤ 65535 then .ok (entriesBytes rs) else .error .invalidEntry
  | none => .error .invalidEntry

/-- COMPOSE's payload (R188). -/
def composePayload (s : State) (stream : Stream) (dt : Dt12) (rd : List Reading) : Result Bytes :=
  match composeSnapshot s.cfg s.par s.lastPower stream rd dt with
  | .error f => .error f
  | .ok snap => snapshotPayload snap

/-- COMPOSE (R188). -/
def execCompose (stream : Stream) (dt : Dt12) (rd : List Reading) (s : State) : Host.Outcome State Fault Refusal :=
  .next (s.finish (composePayload s stream dt rd))

end Sys2Proof.Machine
end

