-- ==== Sys2Proof/Machine/Control.lean ====
section
/-! DEFINITION. The control command RESET (48_control.md). -/

namespace Sys2Proof.Machine

/-- RESET (R210): the state after construction, with the same Cfg and Par. -/
def execReset (s : State) : Host.Outcome State Fault Refusal :=
  .next (s.clear.respondOk [])

end Sys2Proof.Machine
end

