-- ==== Sys2Proof/Machine/Crc.lean ====
section
/-! DEFINITION. The CRC-16 engine and its command CRC16 (42_crc.md). -/

namespace Sys2Proof.Machine

/-- One bit of R120: shift right, and XOR the polynomial where the bit shifted out is 1. -/
def crcBit (c : BitVec 16) : BitVec 16 :=
  if c.getLsbD 0 then (c >>> 1) ^^^ Config.crcPoly else c >>> 1

/-- `n` bits of R120, the least significant first. -/
def crcBits : Nat → BitVec 16 → BitVec 16
  | 0, c => c
  | n + 1, c => crcBits n (crcBit c)

/-- One byte of R120. -/
def crcByte (c : BitVec 16) (x : Byte) : BitVec 16 :=
  crcBits 8 (c ^^^ zext 16 x)

/-- The register of R120 after the bytes `d`, started at `c`. -/
def crcReg (c : BitVec 16) (d : Bytes) : BitVec 16 :=
  d.foldl crcByte c

/-- `CRC16(d)` of R120: the register complemented and byte-swapped. -/
def crc16 (d : Bytes) : BitVec 16 :=
  swap16 (~~~ crcReg Config.crcSeed d)

/-- CRC16 (R123). -/
def execCrc16 (data : Bytes) (s : State) : Host.Outcome State Fault Refusal :=
  .next (s.respondOk (be 2 (crc16 data).toNat))

end Sys2Proof.Machine
end

