-- ==== Sys2Proof/Machine/Datetime.lean ====
section
/-! DEFINITION. The datetime quantizer and its commands PACK_DT_CLOCK and PACK_DT_EXPLICIT (43_datetime.md). -/

namespace Sys2Proof.Machine

/-- The range check of R131. It tests only that each component fits its field. -/
def inRange (c : Components) : Bool :=
  decide (c.year ≤ 65535) && decide (c.month ≤ 255) && decide (c.day ≤ 255) && decide (c.weekday ≤ 255) &&
    decide (c.hour ≤ 255) && decide (c.minute ≤ 255) && decide (c.second ≤ 255)

/-- The rounding of R132 (POWER) and R133 (ENERGY). -/
def roundTime : Policy → Components → Components
  | .power, c => { c with second := c.second - c.second % 10 }
  | .energy, c => { c with minute := 0, second := 55 }

/-- The 12 bytes of R130. -/
def dtFields (suffix : BitVec 32) (c : Components) : Bytes :=
  be 2 c.year ++ be 1 c.month ++ be 1 c.day ++ be 1 c.weekday ++ be 1 c.hour ++ be 1 c.minute ++ be 1 c.second ++
    be 4 suffix.toNat

/-- `PackDatetime` of R137: the range check, then the rounding, for both sources of the time. -/
def packDatetime (p : Par) (policy : Policy) (c : Components) : Result Dt12 :=
  if inRange c then .ok (dtOfBytes (dtFields p.dtSuffix (roundTime policy c))) else .error .invalidTimestamp

/-- `PackDatetime` of a time that may have failed to parse (R139, R200). -/
def packTime (p : Par) (policy : Policy) : Result Components → Result Dt12
  | .error f => .error f
  | .ok c => packDatetime p policy c

/-- PACK_DT_CLOCK (R138): the one draw of the host clock (R33, R136). -/
def execPackDtClock (policy : Byte) (s : State) : Host.Outcome State Fault Refusal :=
  .next (s.finish ((packTime s.par (policyOf policy) (.ok s.clock)).map dtBytes))

/-- PACK_DT_EXPLICIT (R139). -/
def execPackDtExplicit (policy : Byte) (ts : Bytes) (s : State) : Host.Outcome State Fault Refusal :=
  .next (s.finish ((packTime s.par (policyOf policy) (s.par.explicitTime ts)).map dtBytes))

end Sys2Proof.Machine
end

