-- ==== Sys2Proof/Machine/DuplicateFilter.lean ====
section
/-! DEFINITION. The duplicate filter and its command SHOULD_EMIT (44_duplicate_filter.md). -/

namespace Sys2Proof.Machine

/-- `ShouldEmit(s, dt)` of R150: the result, and the state after the check and the update. -/
def shouldEmit (stream : Stream) (dt : Dt12) (s : State) : Bool × State :=
  if s.lastSeen stream = some dt then (false, s) else (true, s.setLastSeen stream (some dt))

/-- SHOULD_EMIT (R151). -/
def execShouldEmit (stream : Stream) (dt : Dt12) (s : State) : Host.Outcome State Fault Refusal :=
  match shouldEmit stream dt s with
  | (true, s') => .next (s'.respondOk [0x01])
  | (false, s') => .next (s'.respondOk [0x00])

end Sys2Proof.Machine
end

