-- ==== Sys2Proof/Machine/FieldEncoder.lean ====
section
/-! DEFINITION. The field encoder and its command ENC_FIELD (41_field_encoder.md). -/

namespace Sys2Proof.Machine

/-- An unsigned integer field of `n` bytes (R102 with 4, R103 with 2). -/
def encodeInt (n : Nat) (tag : Byte) (q : Rat) : Result Bytes :=
  if q.den ≠ 1 then .error .invalidEntry
  else if q.num < 0 ∨ 2 ^ (8 * n) - 1 < q.num then .error .invalidEntry
  else .ok (tag :: be n q.num.toNat)

/-- An ASCII string field (R104). -/
def encodeAscii (tag : Byte) (b : Bytes) : Result Bytes :=
  if b.any (fun x => decide (0x7F < x.toNat)) then .error .invalidEntry
  else if 255 < b.length then .error .invalidEntry
  else .ok (tag :: BitVec.ofNat 8 b.length :: b)

/-- An octet string field (R105). -/
def encodeOctet (tag : Byte) (h : Bytes) : Result Bytes :=
  match hexDecode h with
  | none => .error .invalidEntry
  | some d =>
    if 255 < d.length then .error .invalidEntry
    else .ok (tag :: BitVec.ofNat 8 d.length :: d)

/-- `EncodeField(tag, value)` of R107. A value whose kind does not fit its tag has the fault of R101 (log entry 10). -/
def encodeField (p : Par) (e : Entry) : Result Bytes :=
  if e.tag = p.tagU32 then
    match e.value with
    | .num q => encodeInt 4 e.tag q
    | _ => .error .invalidEntry
  else if e.tag = p.tagU16 then
    match e.value with
    | .num q => encodeInt 2 e.tag q
    | _ => .error .invalidEntry
  else if e.tag = p.tagAscii then
    match e.value with
    | .str b => encodeAscii e.tag b
    | _ => .error .invalidEntry
  else if e.tag = p.tagOctet then
    match e.value with
    | .hex h => encodeOctet e.tag h
    | _ => .error .invalidEntry
  else .error .invalidEntry

/-- ENC_FIELD's field (R110): interpretation, then encoding. -/
def encFieldBytes (p : Par) (e : RawEntry) : Result Bytes :=
  match interp p e with
  | .error f => .error f
  | .ok v => encodeField p v

/-- ENC_FIELD (R110). -/
def execEncField (tag : Byte) (value : Bytes) (s : State) : Host.Outcome State Fault Refusal :=
  .next (s.finish ((encFieldBytes s.par ⟨tag, value⟩).map blob))

end Sys2Proof.Machine
end

