-- ==== Sys2Proof/Machine/FrameBuilder.lean ====
section
/-! DEFINITION. The HDLC frame assembler and its command BUILD_FRAME (45_frame_builder.md). The buffer FB is a value of one build
(R32). -/

namespace Sys2Proof.Machine

/-- Step 1 (R162): the frame with the zero placeholders of R161. -/
def assembleFrame (cfg : Cfg) (p : Par) (dt : Dt12) (n : Nat) (fields : Bytes) : Bytes :=
  [p.hdlcFlag, 0x00, 0x00] ++ be 2 cfg.addr.toNat ++ [Config.control] ++ [0x00, 0x00] ++ be 4 p.protoMarker.toNat ++
    [0x00, 0x00, 0x00, 0x00] ++ [Config.dtCount] ++ dtBytes dt ++ [Config.structTag, BitVec.ofNat 8 n] ++ fields ++
    [0x00, 0x00, p.hdlcFlag]

/-- Step 2 (R163): the length field. -/
def patchLength (fb : Bytes) : Bytes :=
  memWrite fb 1 2 (Config.lenBase + fb.length - 2)

/-- Step 3 (R164): the header CRC. -/
def patchHcs (fb : Bytes) : Bytes :=
  memWrite fb 6 2 (crc16 (slice fb 1 6)).toNat

/-- Step 4 (R165): the frame CRC. -/
def patchFcs (fb : Bytes) : Bytes :=
  memWrite fb (fb.length - 3) 2 (crc16 (slice fb 1 (fb.length - 3))).toNat

/-- The encoded entries in order; the first that fails decides (R167). -/
def encodeFields (p : Par) : Snapshot → Result (List Bytes)
  | [] => .ok []
  | e :: es =>
    match encodeField p e with
    | .error f => .error f
    | .ok b =>
      match encodeFields p es with
      | .error f => .error f
      | .ok bs => .ok (b :: bs)

/-- `BuildFrame(snapshot, dt)` of R167: every fault before any byte, then the four steps in order (R166). -/
def buildFrame (cfg : Cfg) (p : Par) (snap : Snapshot) (dt : Dt12) : Result Bytes :=
  match encodeFields p snap with
  | .error f => .error f
  | .ok fields =>
    if 255 < snap.length then .error .invalidEntry
    else if 0xFFFF < Config.lenBase + (34 + fields.flatten.length) - 2 then .error .frameTooLong
    else .ok (patchFcs (patchHcs (patchLength (assembleFrame cfg p dt snap.length fields.flatten))))

/-- BUILD_FRAME's frame (R168): the interpretation of every entry, then the build. -/
def buildRaw (cfg : Cfg) (p : Par) (ents : List RawEntry) (dt : Dt12) : Result Bytes :=
  match interpAll p ents with
  | .error f => .error f
  | .ok snap => buildFrame cfg p snap dt

/-- BUILD_FRAME (R168). -/
def execBuildFrame (dt : Dt12) (ents : List RawEntry) (s : State) : Host.Outcome State Fault Refusal :=
  .next (s.finish ((buildRaw s.cfg s.par ents dt).map blob))

end Sys2Proof.Machine
end

