-- ==== Sys2Proof/Machine/EncodePath.lean ====
section
/-! DEFINITION. The encode path and its commands ENCODE_CLOCK and ENCODE_EXPLICIT (47_encode.md). -/

namespace Sys2Proof.Machine

/-- Step 3 of R200: the snapshot and its frame, with nothing written. -/
def composeFrame (s : State) (stream : Stream) (rd : List Reading) (dt : Dt12) : Result (Snapshot × Bytes) :=
  match composeSnapshot s.cfg s.par s.lastPower stream rd dt with
  | .error f => .error f
  | .ok snap =>
    match buildFrame s.cfg s.par snap dt with
    | .error f => .error f
    | .ok frame => .ok (snap, frame)

/-- `Encode(s, src, rd)` of R200, from the time that the source gave: pack, peek, compose and build, commit. -/
def encodeAt (stream : Stream) (time : Result Components) (rd : List Reading) (s : State) : State :=
  match packTime s.par (streamPolicy stream) time with
  | .error f => s.raise f
  | .ok dt =>
    if s.lastSeen stream = some dt then s.suppress
    else
      match composeFrame s stream rd dt with
      | .error f => s.raise f
      | .ok (snap, frame) => (s.commit stream dt snap).respondOk (blob frame)

/-- ENCODE_CLOCK (R201): the one draw of the host clock (R33). -/
def execEncodeClock (stream : Stream) (rd : List Reading) (s : State) : Host.Outcome State Fault Refusal :=
  .next (encodeAt stream (.ok s.clock) rd s)

/-- ENCODE_EXPLICIT (R202). -/
def execEncodeExplicit (stream : Stream) (ts : Bytes) (rd : List Reading) (s : State) : Host.Outcome State Fault Refusal :=
  .next (encodeAt stream (s.par.explicitTime ts) rd s)

end Sys2Proof.Machine
end

