-- ==== Sys2Proof/Machine/Dispatch.lean ====
section
/-! DEFINITION. The meaning of each command, one arm per constructor of `Instr`. -/

namespace Sys2Proof.Machine

def exec (i : Instr) (s : State) : Host.Outcome State Fault Refusal :=
  match i with
  | .reset => Sys2Proof.Machine.execReset s
  | .crc16 data => Sys2Proof.Machine.execCrc16 data s
  | .encField tag value => Sys2Proof.Machine.execEncField tag value s
  | .packDtClock policy => Sys2Proof.Machine.execPackDtClock policy s
  | .packDtExplicit policy ts => Sys2Proof.Machine.execPackDtExplicit policy ts s
  | .shouldEmit stream dt => Sys2Proof.Machine.execShouldEmit stream dt s
  | .buildFrame dt ents => Sys2Proof.Machine.execBuildFrame dt ents s
  | .compose stream dt rd => Sys2Proof.Machine.execCompose stream dt rd s
  | .encodeClock stream rd => Sys2Proof.Machine.execEncodeClock stream rd s
  | .encodeExplicit stream ts rd => Sys2Proof.Machine.execEncodeExplicit stream ts rd s

end Sys2Proof.Machine
end

