-- ==== Sys2Proof/Machine/Step.lean ====
section
/-! DEFINITION. One step of the block: the transaction on the command port is taken, decoded and answered (R60, R77, R211). -/

namespace Sys2Proof.Machine

/-- One step. A state that construction cannot give is no machine (R25). With no command on the port the block is idle and keeps its
state (R234, log entry 14). A byte string that is no command raises IllegalCommand (R211). Every other command is one atomic step (R45). -/
def step (s : State) : Host.Outcome State Fault Refusal :=
  if s.constructed then
    match s.accept with
    | none => .next s
    | some (c, s') =>
      match decode c with
      | .error _ => .next (s'.raise .illegalCommand)
      | .ok i => exec i s'
  else .fault .notConstructed

/-- The state with the instruction of a table word on the command port, ahead of every other transaction and with the clock input as
it is, so that the next step runs it (log entry 13). -/
def State.withFetchWord (s : State) (nbits w : Nat) : State :=
  { s with inbox := { bytes := tableCommand nbits w, clock := s.clock } :: s.inbox }

end Sys2Proof.Machine
end

