-- ==== Sys2Proof/Machine/Assembler.lean ====
section
/-! DEFINITION. The assembler of R74 and the pseudo-commands of R75, from a line's mnemonic and operands to the command bytes. How the
text of a line is cut into tokens is the host's (log entry 16). -/

namespace Sys2Proof.Machine

/-- The mnemonics of R68 and of R75. -/
inductive Mnemonic where
  | RESET | CRC16 | ENC_FIELD | PACK_DT_CLOCK | PACK_DT_EXPLICIT | SHOULD_EMIT | BUILD_FRAME | COMPOSE | ENCODE_CLOCK
  | ENCODE_EXPLICIT | ENC_U32 | ENC_U16 | ENC_ASCII | ENC_OCTET
deriving DecidableEq, Repr

/-- A written blob (R74): a quoted ASCII string, or a hex string. -/
inductive AsmBlob where
  | quoted (b : Bytes)
  | hex (h : Bytes)
deriving DecidableEq, Repr

/-- A written operand (R74): the literal `0xNN` by its two digits, the name of a stream or policy, a blob or a dt12, a list of
entries (a tag literal by its digits, and a blob), a list of readings. -/
inductive AsmOperand where
  | lit (hi lo : Byte)
  | name (s : Stream)
  | blob (b : AsmBlob)
  | entries (es : List (Byte × Byte × AsmBlob))
  | readings (rd : List (Bytes × Bytes))
deriving DecidableEq, Repr

/-- The bytes a written blob stands for. -/
def AsmBlob.bytes : AsmBlob → Option Bytes
  | .quoted b => if b.all fun x => decide (x.toNat ≤ 0x7F) then some b else none
  | .hex h => hexDecode h

/-- A written `u8`: a hex literal. -/
def asmU8 : AsmOperand → Option Byte
  | .lit hi lo =>
    match hexVal hi, hexVal lo with
    | some h, some l => some (BitVec.ofNat 8 (16 * h + l))
    | _, _ => none
  | _ => none

/-- A written stream or policy operand: a hex literal, or a name; `energy` stands for 0x01. -/
def asmSelector : AsmOperand → Option Byte
  | .name s => some (streamByte s)
  | o => asmU8 o

/-- The serialization of a written blob, if it fits the two length bytes. -/
def asmBlob : AsmOperand → Option Bytes
  | .blob b => b.bytes.bind fun v => if v.length ≤ 65535 then some (blob v) else none
  | _ => none

/-- A written dt12: a hex string of exactly 12 bytes. -/
def asmDt : AsmOperand → Option Bytes
  | .blob (.hex h) => (hexDecode h).bind fun v => if v.length = 12 then some v else none
  | _ => none

/-- The bytes of the written entries, one after the other. -/
def asmEntryList : List (Byte × Byte × AsmBlob) → Option Bytes
  | [] => some []
  | (hi, lo, b) :: es =>
    match asmU8 (.lit hi lo), asmBlob (.blob b), asmEntryList es with
    | some tag, some v, some r => some (tag :: v ++ r)
    | _, _, _ => none

/-- The bytes of the written readings, one after the other. -/
def asmReadingList : List (Bytes × Bytes) → Option Bytes
  | [] => some []
  | (k, v) :: rd =>
    match asmBlob (.blob (.quoted k)), asmBlob (.blob (.quoted v)), asmReadingList rd with
    | some kb, some vb, some r => some (kb ++ vb ++ r)
    | _, _, _ => none

/-- A written `entries` operand. -/
def asmEntries : AsmOperand → Option Bytes
  | .entries es => (asmEntryList es).bind fun r => if es.length ≤ 65535 then some (be 2 es.length ++ r) else none
  | _ => none

/-- A written `readings` operand. -/
def asmReadings : AsmOperand → Option Bytes
  | .readings rd => (asmReadingList rd).bind fun r => if rd.length ≤ 255 then some (be 1 rd.length ++ r) else none
  | _ => none

/-- An ENC_FIELD line with its tag given. -/
def asmEncField (tag : Byte) (v : AsmOperand) : Option Bytes :=
  (asmBlob v).map fun b => 0x20 :: tag :: b

/-- The command bytes of one line (R74, R75); `none` where the assembler rejects it. -/
def assemble (p : Par) (m : Mnemonic) (ops : List AsmOperand) : Option Bytes :=
  match m, ops with
  | .RESET, [] => some [0x00]
  | .CRC16, [d] => (asmBlob d).map fun b => 0x10 :: b
  | .ENC_FIELD, [t, v] => (asmU8 t).bind fun tag => asmEncField tag v
  | .PACK_DT_CLOCK, [o] => (asmSelector o).map fun b => [0x30, b]
  | .PACK_DT_EXPLICIT, [o, ts] => (asmSelector o).bind fun b => (asmBlob ts).map fun t => 0x31 :: b :: t
  | .SHOULD_EMIT, [o, d] => (asmSelector o).bind fun b => (asmDt d).map fun v => 0x40 :: b :: v
  | .BUILD_FRAME, [d, es] => (asmDt d).bind fun v => (asmEntries es).map fun e => 0x50 :: v ++ e
  | .COMPOSE, [o, d, rd] =>
    (asmSelector o).bind fun b => (asmDt d).bind fun v => (asmReadings rd).map fun r => 0x60 :: b :: v ++ r
  | .ENCODE_CLOCK, [o, rd] => (asmSelector o).bind fun b => (asmReadings rd).map fun r => 0x70 :: b :: r
  | .ENCODE_EXPLICIT, [o, ts, rd] =>
    (asmSelector o).bind fun b => (asmBlob ts).bind fun t => (asmReadings rd).map fun r => 0x71 :: b :: t ++ r
  | .ENC_U32, [v] => asmEncField p.tagU32 v
  | .ENC_U16, [v] => asmEncField p.tagU16 v
  | .ENC_ASCII, [v] => asmEncField p.tagAscii v
  | .ENC_OCTET, [v] => asmEncField p.tagOctet v
  | _, _ => none

end Sys2Proof.Machine
end

