-- ==== Sys2Proof/Safety.lean ====
section
/-! DEFINITION. The terms claims are stated in: the invariant of the machine, a reader of a frame's entries (R189), commands one after
the other, the commands that leave a Last-Seen entry alone (R29), and which operands a line of the assembler writes (R74, R75). -/

namespace Sys2Proof.Safety

open Machine

/-- The invariant of every machine that construction gives. Its Cfg and Par pass the construction checks (R25, R100). An OWN_INPUT
build holds no power snapshot (R31). A power snapshot that a LAST_POWER build holds has the layout of R184 over this Cfg and encodes,
because only a successful encode writes it (R203). -/
structure Inv (s : State) : Prop where
  constructed : s.constructed = true
  ownInput : s.par.energyPrefix = .ownInput → s.lastPower = none
  lastPower : ∀ snap, s.lastPower = some snap →
    (∃ v, snap = powerSnap s.cfg s.par v) ∧ ∃ fields, encodeFields s.par snap = .ok fields

/-- A reader of one encoded entry (R189): the tag, and the payload whose size the tag implies (a length byte for the strings, 4 or 2
bytes for the integers), with the bytes after it. -/
def readField (p : Par) : Bytes → Option ((Byte × Bytes) × Bytes)
  | [] => none
  | tag :: r =>
    if tag = p.tagU32 then if 4 ≤ r.length then some ((tag, r.take 4), r.drop 4) else none
    else if tag = p.tagU16 then if 2 ≤ r.length then some ((tag, r.take 2), r.drop 2) else none
    else if tag = p.tagAscii ∨ tag = p.tagOctet then
      match r with
      | [] => none
      | n :: r' => if n.toNat ≤ r'.length then some ((tag, r'.take n.toNat), r'.drop n.toNat) else none
    else none

/-- A reader of `n` encoded entries, one after the other. -/
def readFields (p : Par) : Nat → Bytes → Option (List (Byte × Bytes) × Bytes)
  | 0, b => some ([], b)
  | n + 1, b =>
    match readField p b with
    | none => none
    | some (f, r) =>
      match readFields p n r with
      | none => none
      | some (fs, r') => some (f :: fs, r')

/-- The response given is OK with this payload (R72). -/
def answersOk (s : State) (payload : Bytes) : Prop :=
  s.response = some (0x00 :: payload)

/-- One command that wrote no `LastSeen[stream]`, told from the command and from the response in the state `t` after it (R29): no
RESET, no SHOULD_EMIT on the stream that returned true, no ENCODE on the stream that answered OK. -/
def quiet (stream : Stream) (i : Instr) (t : State) : Prop :=
  match i with
  | .reset => False
  | .shouldEmit st _ => st ≠ stream ∨ t.response = some [0x00, 0x00]
  | .encodeClock st _ => st ≠ stream ∨ ∀ p, ¬ answersOk t p
  | .encodeExplicit st _ _ => st ≠ stream ∨ ∀ p, ¬ answersOk t p
  | _ => True

/-- From `s`, the commands `is` run one after the other, each of them quiet on the stream, and lead to `t`. -/
inductive QuietRun (stream : Stream) : List Instr → State → State → Prop where
  | nil (s : State) : QuietRun stream [] s s
  | cons {i : Instr} {is : List Instr} {s u t : State} (h : exec i s = .next u) (q : quiet stream i u)
      (r : QuietRun stream is u t) : QuietRun stream (i :: is) s t

/-- The command is an encode on the stream (R200). -/
def isEncode (stream : Stream) : Instr → Prop
  | .encodeClock st _ => st = stream
  | .encodeExplicit st _ _ => st = stream
  | _ => False

/-- A timestamp string written as runs of digits (R135): each pair is the bytes before a run and the run, and `tail` follows the
last. -/
def spell (parts : List (Bytes × Bytes)) (tail : Bytes) : Bytes :=
  parts.flatMap (fun x => x.1 ++ x.2) ++ tail

/-- The parts of `spell` are maximal runs: digits make up each run and no other bytes, no run is empty, and between two runs stands
at least one byte. -/
def spelled (parts : List (Bytes × Bytes)) (tail : Bytes) : Prop :=
  (∀ x ∈ parts, x.2 ≠ [] ∧ (∀ b ∈ x.2, isDigit b = true) ∧ ∀ b ∈ x.1, isDigit b = false) ∧
    (∀ x ∈ parts.tail, x.1 ≠ []) ∧ ∀ b ∈ tail, isDigit b = false

/-- The 25 entries of R184, as a COMPOSE response and a BUILD_FRAME operand carry them (R188), for values of the power readings. The OBIS
codes are those of R183, byte by byte. -/
def powerTable (cfg : Cfg) (p : Par) (v : Key → Int) : List RawEntry :=
  let code := fun b : Bytes => (⟨p.tagOctet, hexU b⟩ : RawEntry)
  let label := fun b : Bytes => (⟨p.tagAscii, b⟩ : RawEntry)
  let u32 := fun k : Key => (⟨p.tagU32, canonicalNumeral (v k)⟩ : RawEntry)
  let u16 := fun k : Key => (⟨p.tagU16, canonicalNumeral (v k)⟩ : RawEntry)
  [label cfg.listLabel,
   code [0x01, 0x01, 0x00, 0x00, 0x05, 0xFF], label cfg.meterId,
   code [0x01, 0x01, 0x60, 0x01, 0x01, 0xFF], label cfg.meterType,
   code [0x01, 0x01, 0x01, 0x07, 0x00, 0xFF], u32 .P,
   code [0x01, 0x01, 0x02, 0x07, 0x00, 0xFF], u32 .PO,
   code [0x01, 0x01, 0x03, 0x07, 0x00, 0xFF], u32 .Q,
   code [0x01, 0x01, 0x04, 0x07, 0x00, 0xFF], u32 .QO,
   code [0x01, 0x01, 0x1F, 0x07, 0x00, 0xFF], u32 .I1,
   code [0x01, 0x01, 0x33, 0x07, 0x00, 0xFF], u32 .I2,
   code [0x01, 0x01, 0x47, 0x07, 0x00, 0xFF], u32 .I3,
   code [0x01, 0x01, 0x20, 0x07, 0x00, 0xFF], u16 .U1,
   code [0x01, 0x01, 0x34, 0x07, 0x00, 0xFF], u16 .U2,
   code [0x01, 0x01, 0x48, 0x07, 0x00, 0xFF], u16 .U3]

/-- The ten entries of R185 in the same form, for values of the energy readings. -/
def energyTable (p : Par) (v : Key → Int) (dt : Dt12) : List RawEntry :=
  let code := fun b : Bytes => (⟨p.tagOctet, hexU b⟩ : RawEntry)
  let u32 := fun k : Key => (⟨p.tagU32, canonicalNumeral (v k)⟩ : RawEntry)
  [code [0x00, 0x01, 0x01, 0x00, 0x00, 0xFF], code (dtBytes dt),
   code [0x01, 0x01, 0x01, 0x08, 0x00, 0xFF], u32 .tPI,
   code [0x01, 0x01, 0x02, 0x08, 0x00, 0xFF], u32 .tPO,
   code [0x01, 0x01, 0x03, 0x08, 0x00, 0xFF], u32 .tQI,
   code [0x01, 0x01, 0x04, 0x08, 0x00, 0xFF], u32 .tQO]

/-- The ten converted power readings, from a value for each key. -/
def powerValuesOf (v : Key → Int) : PowerValues :=
  { P := v .P, PO := v .PO, Q := v .Q, QO := v .QO, I1 := v .I1, I2 := v .I2, I3 := v .I3, U1 := v .U1, U2 := v .U2, U3 := v .U3 }

/-- The byte is the ASCII hex digit of the value: `0`..`9` for 0 to 9, `A`..`F` or `a`..`f` for 10 to 15 (R105). -/
def isHexDigit (x : Byte) (n : Nat) : Prop :=
  (n ≤ 9 ∧ x.toNat = 0x30 + n) ∨ (10 ≤ n ∧ n ≤ 15 ∧ (x.toNat = 0x41 + (n - 10) ∨ x.toNat = 0x61 + (n - 10)))

/-- `h` is the hex string of `d`: two digits for each byte, the high one first (R105). -/
def isHexOf (h d : Bytes) : Prop :=
  h.length = 2 * d.length ∧ ∀ k < d.length,
    isHexDigit (h.getD (2 * k) 0) ((d.getD k 0).toNat / 16) ∧ isHexDigit (h.getD (2 * k + 1) 0) ((d.getD k 0).toNat % 16)

/-- The two ways to write a blob (R74): a quoted ASCII string, or a hex string. -/
def writesBlob (a : AsmBlob) (v : Bytes) : Prop :=
  match a with
  | .quoted b => b = v ∧ ∀ x ∈ b, x.toNat ≤ 0x7F
  | .hex h => isHexOf h v

/-- The hex literal of a byte (R74). -/
def writesByte (o : AsmOperand) (b : Byte) : Prop :=
  ∃ hi lo, o = .lit hi lo ∧ isHexDigit hi (b.toNat / 16) ∧ isHexDigit lo (b.toNat % 16)

/-- The two ways to write a stream or a policy (R74): a name, or a hex literal. -/
def writesSelector (o : AsmOperand) (b : Byte) : Prop :=
  (o = .name .power ∧ b = 0x00) ∨ (o = .name .energy ∧ b = 0x01) ∨ writesByte o b

/-- The hex string of a datetime's 12 bytes (R74). -/
def writesDt (o : AsmOperand) (dt : Dt12) : Prop :=
  ∃ h, o = .blob (.hex h) ∧ isHexOf h (dtBytes dt)

/-- A written list of entries (R74): for each, the literal of its tag and its blob. -/
def writesEntries (o : AsmOperand) (ents : List RawEntry) : Prop :=
  ∃ es, o = .entries es ∧ List.Forall₂ (fun a e => writesByte (.lit a.1 a.2.1) e.tag ∧ writesBlob a.2.2 e.value) es ents

/-- A written list of readings (R74): each key and each value a quoted string. -/
def writesReadings (o : AsmOperand) (rd : List Reading) : Prop :=
  ∃ kv, o = .readings kv ∧
    List.Forall₂ (fun a r => writesBlob (.quoted a.1) r.key ∧ writesBlob (.quoted a.2) r.value) kv rd

/-- The lines that write a command: its own (R74), and for ENC_FIELD the pseudo-command of its tag (R75). -/
def writesLine (p : Par) (m : Mnemonic) (ops : List AsmOperand) : Instr → Prop
  | .reset => m = .RESET ∧ ops = []
  | .crc16 data => m = .CRC16 ∧ ∃ d, ops = [.blob d] ∧ writesBlob d data
  | .encField tag value => ∃ v, writesBlob v value ∧
      (m = .ENC_FIELD ∧ (∃ t, ops = [t, .blob v] ∧ writesByte t tag) ∨
        ops = [.blob v] ∧ (m = .ENC_U32 ∧ tag = p.tagU32 ∨ m = .ENC_U16 ∧ tag = p.tagU16 ∨ m = .ENC_ASCII ∧ tag = p.tagAscii ∨
          m = .ENC_OCTET ∧ tag = p.tagOctet))
  | .packDtClock policy => m = .PACK_DT_CLOCK ∧ ∃ o, ops = [o] ∧ writesSelector o policy
  | .packDtExplicit policy ts => m = .PACK_DT_EXPLICIT ∧ ∃ o t, ops = [o, .blob t] ∧ writesSelector o policy ∧ writesBlob t ts
  | .shouldEmit stream dt => m = .SHOULD_EMIT ∧ ∃ o d, ops = [o, d] ∧ writesSelector o (streamByte stream) ∧ writesDt d dt
  | .buildFrame dt ents => m = .BUILD_FRAME ∧ ∃ d e, ops = [d, e] ∧ writesDt d dt ∧ writesEntries e ents
  | .compose stream dt rd => m = .COMPOSE ∧ ∃ o d r, ops = [o, d, r] ∧ writesSelector o (streamByte stream) ∧ writesDt d dt ∧
      writesReadings r rd
  | .encodeClock stream rd => m = .ENCODE_CLOCK ∧ ∃ o r, ops = [o, r] ∧ writesSelector o (streamByte stream) ∧ writesReadings r rd
  | .encodeExplicit stream ts rd => m = .ENCODE_EXPLICIT ∧ ∃ o t r, ops = [o, .blob t, r] ∧ writesSelector o (streamByte stream) ∧
      writesBlob t ts ∧ writesReadings r rd

/-- The bit-serial form of R120: the message bit is XORed into the feedback, not into the register. -/
def crcSerialBit (c : BitVec 16) (bit : Bool) : BitVec 16 :=
  if (c.getLsbD 0 != bit) = true then (c >>> 1) ^^^ Config.crcPoly else c >>> 1

/-- The bits of a byte string in the order of R120: each byte's least significant bit first. -/
def messageBits (d : Bytes) : List Bool :=
  d.flatMap fun x => (List.range 8).map fun k => x.getLsbD k

end Sys2Proof.Safety
end

