-- ==== Sys2Proof/Certificates/Slice0/Obligations.lean ====
section
/-! DEFINITION. What the provers are asked to prove of the model, from the numbered rules of the spec. -/

open Sys2Proof Sys2Proof.Machine Sys2Proof.Safety

/-- What reset leaves: the Last-Seen Table (R28), LastPower, which an OWN_INPUT build does not have and the model holds as none (R31,
R37, log entry 17), and Par, an argument that the model holds in State with the defaults of R5 and R242 (R100; log entry 4, a design
choice). -/
def Obligations.ResetHoldsTheSpecValues : Prop :=
  State.reset.lastSeen .power = none ∧ State.reset.lastSeen .energy = none ∧ State.reset.lastPower = none ∧
    State.reset.par = { tagU32 := 0x06, tagU16 := 0x12, tagAscii := 0x0A, tagOctet := 0x09, hdlcFlag := 0x7E,
                        protoMarker := 0xE6E7000F, dtSuffix := 0xFF800000, tsParse := .digitRuns,
                        scaleConv := .exactTrunc, energyPrefix := .ownInput }

/-- R25, R100, R240: construction refuses a Cfg or a Par that fails a check, and otherwise loads both and leaves the state of R37. -/
def Obligations.ConstructionChecksThenLoads : Prop :=
  ∀ (m : MeterIdentity) (p : Par),
    let passes := m.target ≤ 127 ∧ m.source ≤ 127 ∧
      (∀ b ∈ [m.listLabel, m.meterId, m.meterType], b.length ≤ 255 ∧ ∀ x ∈ b, x.toNat ≤ 0x7F) ∧
      [p.tagU32, p.tagU16, p.tagAscii, p.tagOctet].Nodup
    (passes → ∃ t, construct m p = .next t ∧ t.constructed = true ∧ t.cfg.target.toNat = m.target ∧
      t.cfg.source.toNat = m.source ∧ t.cfg.listLabel = m.listLabel ∧ t.cfg.meterId = m.meterId ∧
      t.cfg.meterType = m.meterType ∧ t.par = p ∧ t.lastSeen .power = none ∧ t.lastSeen .energy = none ∧
      t.lastPower = none) ∧
    (¬ passes → construct m p = .refused .constructionRefused)

/-- R24: the formula of ADDR, in unbounded arithmetic, and so TARGET in bits 15:9, SOURCE in bits 7:1, and bits 8 and 0 set. -/
def Obligations.AddrHoldsTargetAndSource : Prop :=
  ∀ c : Cfg, c.addr.toNat = ((((c.target.toNat <<< 1) ||| 1) <<< 8) ||| ((c.source.toNat <<< 1) ||| 1)) ∧
    c.addr.toNat = (2 * c.target.toNat + 1) * 256 + (2 * c.source.toNat + 1) ∧
    c.addr.extractLsb' 9 7 = c.target ∧ c.addr.extractLsb' 1 7 = c.source ∧
    c.addr.getLsbD 8 = true ∧ c.addr.getLsbD 0 = true

/-- R60, R77: a step runs the command that the bytes on the port decode to, with the port's transaction taken off and its clock draw
on the clock input (R33). -/
def Obligations.StepRunsTheDecodedCommand : Prop :=
  ∀ (s : State) (t : Transaction) (rest : List Transaction) (i : Instr),
    s.constructed = true → s.inbox = t :: rest → decode t.bytes = .ok i →
    i.wellFormed = true ∧ step s = exec i { s with inbox := rest, clock := t.clock }

/-- R234: with no command on the port the block keeps all of its state. -/
def Obligations.IdleStepKeepsTheState : Prop :=
  ∀ s : State, s.constructed = true → s.inbox = [] → step s = .next s

/-- R220, R228: no command stops the block. -/
def Obligations.StepOfAConstructedBlockGoesOn : Prop :=
  ∀ s : State, s.constructed = true → ∃ t, step s = .next t ∧ t.constructed = true

/-- R70, R211: the 246 reserved opcodes, and the step that answers one of them. -/
def Obligations.ReservedOpcodesAreIllegal : Prop :=
  let reserved := fun n : Nat => (0x01 ≤ n ∧ n ≤ 0x0F) ∨ (0x11 ≤ n ∧ n ≤ 0x1F) ∨ (0x21 ≤ n ∧ n ≤ 0x2F) ∨
    (0x32 ≤ n ∧ n ≤ 0x3F) ∨ (0x41 ≤ n ∧ n ≤ 0x4F) ∨ (0x51 ≤ n ∧ n ≤ 0x5F) ∨ (0x61 ≤ n ∧ n ≤ 0x6F) ∨
    (0x72 ≤ n ∧ n ≤ 0xFF)
  (∀ i : Instr, ¬ reserved (opcode i).toNat) ∧
  ((List.range 256).filter fun n => decide (reserved n)).length = 246 ∧
  ∀ (s : State) (t : Transaction) (rest : List Transaction) (op : Byte) (bs : Bytes),
    s.constructed = true → s.inbox = t :: rest → t.bytes = op :: bs → reserved op.toNat →
    step s = .next { s with inbox := rest, clock := t.clock, response := some [0x8F] }

/-- R211: a byte string that the decoder does not accept is answered with 8F, with no other change but the transaction taken off the
port. Among them are the empty command, a command with bytes missing at its end or with bytes too many, and one with a stream operand
outside 0x00 and 0x01. The reserved opcodes have a statement of their own. -/
def Obligations.MalformedCommandsAreIllegal : Prop :=
  ∀ (s : State) (t : Transaction) (rest : List Transaction), s.constructed = true → s.inbox = t :: rest →
    ((∃ e, decode t.bytes = .error e) ∨ t.bytes = [] ∨
      (∃ (i : Instr) (k : Nat), i.wellFormed = true ∧ k < (encode i).length ∧ t.bytes = (encode i).take k) ∨
      (∃ (i : Instr) (x : Bytes), i.wellFormed = true ∧ x ≠ [] ∧ t.bytes = encode i ++ x) ∨
      (∃ (op b : Byte) (r : Bytes), op ∈ [(0x40 : Byte), 0x60, 0x70, 0x71] ∧ b ≠ 0x00 ∧ b ≠ 0x01 ∧ t.bytes = op :: b :: r)) →
    step s = .next { s with inbox := rest, clock := t.clock, response := some [0x8F] }

/-- R62, R68, R69: a few commands written out byte by byte, one of them the spec's own example in R74. -/
def Obligations.WrittenCommandsDecode : Prop :=
  decode [0x00] = .ok .reset ∧
  decode [0x10, 0x00, 0x02, 0x31, 0x32] = .ok (.crc16 [0x31, 0x32]) ∧
  decode [0x20, 0x06, 0x00, 0x04, 0x31, 0x35, 0x30, 0x30] = .ok (.encField 0x06 [0x31, 0x35, 0x30, 0x30]) ∧
  decode [0x40, 0x00, 0x07, 0xE8, 0x03, 0x0F, 0x05, 0x0E, 0x17, 0x1E, 0xFF, 0x80, 0x00, 0x00] =
    .ok (.shouldEmit .power 0x07E8030F050E171EFF800000) ∧
  decode [0x70, 0x01, 0x01, 0x00, 0x01, 0x50, 0x00, 0x02, 0x2D, 0x33] = .ok (.encodeClock .energy [⟨[0x50], [0x2D, 0x33]⟩])

/-- R62, R68, R69, R77: decoding the encoding of a well-formed command gives it back, for all ten commands and all operands. -/
def Obligations.DecodeUndoesEncode : Prop :=
  ∀ i : Instr, i.wellFormed = true → decode (encode i) = .ok i

/-- R61, R77: a byte string that decodes is the encoding of what it decodes to, and that is well-formed. So no two byte strings are one
command and no byte of a command is ignored. -/
def Obligations.EncodeUndoesDecode : Prop :=
  ∀ (c : Bytes) (i : Instr), decode c = .ok i → i.wellFormed = true ∧ encode i = c

/-- The invariant of `Safety.Inv`: every step keeps it. -/
def Obligations.StepKeepsTheInvariant : Prop :=
  ∀ s t : State, Inv s → step s = .next t → Inv t

/-- R240: every machine that construction gives has the invariant, the one after reset among them. -/
def Obligations.ConstructionGivesTheInvariant : Prop :=
  Inv State.reset ∧ ∀ (m : MeterIdentity) (p : Par) (s : State), construct m p = .next s → Inv s

/-- No command writes Cfg (R26) or Par (R5, which the model holds in State: log entry 4), and none touches the transactions that wait or
the clock input, two fields of the model's own (log entries 1 and 2). -/
def Obligations.CommandsKeepTheConfiguration : Prop :=
  ∀ (i : Instr) (s : State), ∃ t, exec i s = .next t ∧ t.cfg = s.cfg ∧ t.par = s.par ∧ t.inbox = s.inbox ∧ t.clock = s.clock

/-- R72, R73: every command answers with one of the status codes of its row in R72, and only OK carries a payload. -/
def Obligations.ResponsesFollowTheStatusTable : Prop :=
  ∀ (i : Instr) (s : State), ∃ t c payload, exec i s = .next t ∧ t.response = some (c :: payload) ∧
    (c ≠ 0x00 → payload = []) ∧
    match i with
    | .reset => c = 0x00 ∧ payload = []
    | .crc16 _ => c = 0x00 ∧ payload.length = 2
    | .encField _ _ => c ∈ [(0x00 : Byte), 0x82]
    | .packDtClock _ => c ∈ [(0x00 : Byte), 0x83] ∧ (c = 0x00 → payload.length = 12)
    | .packDtExplicit _ _ => c ∈ [(0x00 : Byte), 0x83] ∧ (c = 0x00 → payload.length = 12)
    | .shouldEmit _ _ => c = 0x00 ∧ (payload = [0x01] ∨ payload = [0x00])
    | .buildFrame _ _ => c ∈ [(0x00 : Byte), 0x82, 0x84]
    | .compose _ _ _ => c ∈ [(0x00 : Byte), 0x81, 0x82]
    | .encodeClock _ _ => c ∈ [(0x00 : Byte), 0x01, 0x81, 0x82, 0x83, 0x84]
    | .encodeExplicit _ _ _ => c ∈ [(0x00 : Byte), 0x01, 0x81, 0x82, 0x83, 0x84]

/-- R226, R203: a fault, and a suppression too, writes no state: only the response differs, and it is the status byte alone. -/
def Obligations.FaultsAndSuppressionsWriteNoState : Prop :=
  ∀ (i : Instr) (s t : State) (c : Byte) (payload : Bytes), exec i s = .next t → t.response = some (c :: payload) → c ≠ 0x00 →
    t = { s with response := some [c] }

/-- R29: exactly three things write an entry of the Last-Seen Table: nothing else changes it, and each of the three writes it. -/
def Obligations.LastSeenHasThreeWriters : Prop :=
  ∀ (i : Instr) (s t : State) (stream : Stream), exec i s = .next t →
    (t.lastSeen stream ≠ s.lastSeen stream →
      i = .reset ∨ (∃ dt, i = .shouldEmit stream dt ∧ t.response = some [0x00, 0x01]) ∨
        (isEncode stream i ∧ ∃ payload, answersOk t payload)) ∧
    (i = .reset → t.lastSeen stream = none) ∧
    (∀ dt, i = .shouldEmit stream dt → t.response = some [0x00, 0x01] → t.lastSeen stream = some dt) ∧
    (isEncode stream i → (∃ payload, answersOk t payload) → ∃ dt, s.lastSeen stream ≠ some dt ∧ t.lastSeen stream = some dt)

/-- R31: in an OWN_INPUT build nothing writes LastPower; in a LAST_POWER build only RESET and a power encode that answers OK do. -/
def Obligations.LastPowerHasTwoWriters : Prop :=
  ∀ (i : Instr) (s t : State), exec i s = .next t → t.lastPower ≠ s.lastPower →
    s.par.energyPrefix = .lastPower ∧
      ((i = .reset ∧ t.lastPower = none) ∨ (isEncode .power i ∧ ∃ payload, answersOk t payload))

/-- R51, R152: a SHOULD_EMIT or an ENCODE on one stream never reads or writes the other stream's entry. -/
def Obligations.StreamsAreIndependent : Prop :=
  ∀ (stream other : Stream) (i : Instr) (s : State) (v : Option Dt12), other ≠ stream →
    (isEncode stream i ∨ ∃ dt, i = .shouldEmit stream dt) →
    ∃ t, exec i s = .next t ∧ t.lastSeen other = s.lastSeen other ∧
      exec i (s.setLastSeen other v) = .next (t.setLastSeen other v)

/-- R48: CRC16, ENC_FIELD, PACK_DT_CLOCK, PACK_DT_EXPLICIT, BUILD_FRAME and COMPOSE write the response alone, and it depends on no more
of the state than R48's table says. -/
def Obligations.PureCommandsReadAndWriteOnlyWhatTheTableSays : Prop :=
  ∀ (i : Instr) (s u : State), s.par = u.par →
    (match i with
      | .crc16 _ => True
      | .encField _ _ => True
      | .packDtClock _ => s.clock = u.clock
      | .packDtExplicit _ _ => True
      | .buildFrame _ _ => s.cfg = u.cfg
      | .compose st _ _ => s.cfg = u.cfg ∧ (st = .energy → s.par.energyPrefix = .lastPower → s.lastPower = u.lastPower)
      | _ => False) →
    ∃ r, exec i s = .next { s with response := some r } ∧ exec i u = .next { u with response := some r }

/-- R210: RESET. -/
def Obligations.ResetCommandClears : Prop :=
  ∀ s : State, exec .reset s = .next { s with lastSeenPower := none, lastSeenEnergy := none,
                                              lastPower := if s.par.energyPrefix = .lastPower then none else s.lastPower,
                                              response := some [0x00] }

/-- R241: RESET gives the state that construction with the same Cfg and Par gives, on a block with the invariant. -/
def Obligations.ResetCommandIsConstruction : Prop :=
  ∀ s : State, Inv s → ∃ t u, exec .reset s = .next t ∧
    construct { target := s.cfg.target.toNat, source := s.cfg.source.toNat, listLabel := s.cfg.listLabel,
                meterId := s.cfg.meterId, meterType := s.cfg.meterType } s.par = .next u ∧
    t = { u with inbox := s.inbox, clock := s.clock, response := some [0x00] }

/-- R123, R43: CRC16 answers the low byte of the complemented register and then its high byte, and writes nothing else. -/
def Obligations.Crc16AnswersLowByteFirst : Prop :=
  ∀ (data : Bytes) (s : State),
    exec (.crc16 data) s = .next { s with response := some [0x00, (~~~ crcReg Config.crcSeed data).extractLsb' 0 8,
                                                            (~~~ crcReg Config.crcSeed data).extractLsb' 8 8] }

/-- R120: the engine, which XORs a whole byte into the register and then shifts eight times, computes what the bit-serial engine does,
which takes the message one bit at a time, each byte's least significant bit first. -/
def Obligations.CrcEngineIsBitSerial : Prop :=
  ∀ (c : BitVec 16) (d : Bytes), crcReg c d = (messageBits d).foldl crcSerialBit c

/-- R125: with the CRC of a byte string appended, the register ends at 0xF0B8. -/
def Obligations.CrcResidueIsFixed : Prop :=
  ∀ d : Bytes, crcReg Config.crcSeed (d ++ be 2 (crc16 d).toNat) = 0xF0B8

/-- R64: which byte strings are numerals, and the exact rational each denotes. -/
def Obligations.NumeralsAreTheStatedGrammar : Prop :=
  ∀ (b : Bytes) (q : Rat), numeral b = some q ↔
    ∃ (neg : Bool) (ip fp : Bytes), ip ≠ [] ∧ (∀ x ∈ ip, isDigit x = true) ∧ (∀ x ∈ fp, isDigit x = true) ∧
      b = (if neg then [0x2D] else []) ++ ip ++ (if fp = [] then [] else 0x2E :: fp) ∧
      q = (if neg then -1 else 1) * ((digitsVal ip : Rat) + (digitsVal fp : Rat) / 10 ^ fp.length)

/-- R65: a canonical numeral has no leading zeros and a minus sign only for a negative value, and denotes its integer (R64). -/
def Obligations.CanonicalNumeralsDenoteTheirInteger : Prop :=
  ∀ v : Int, numeral (canonicalNumeral v) = some (v : Rat) ∧
    ∃ ds : Bytes, canonicalNumeral v = (if v < 0 then [0x2D] else []) ++ ds ∧ ds ≠ [] ∧ (∀ x ∈ ds, isDigit x = true) ∧
      (ds.head? = some 0x30 → ds = [0x30])

/-- R102, R103, R110: ENC_FIELD on the two integer tags. The field is the tag and the big-endian value; a value that is no numeral, no
integer, negative or too large raises InvalidEntry. -/
def Obligations.EncFieldPacksIntegers : Prop :=
  ∀ (s : State) (raw : Bytes) (tag : Byte) (n : Nat), s.par.ok = true →
    (tag = s.par.tagU32 ∧ n = 4 ∨ tag = s.par.tagU16 ∧ n = 2) →
    (∀ v : Nat, numeral raw = some (v : Rat) → v < 2 ^ (8 * n) →
      exec (.encField tag raw) s = .next { s with response := some (0x00 :: be 2 (1 + n) ++ tag :: be n v) }) ∧
    ((∀ v : Nat, numeral raw = some (v : Rat) → 2 ^ (8 * n) ≤ v) →
      exec (.encField tag raw) s = .next { s with response := some [0x82] })

/-- R104, R110: ENC_FIELD on the ASCII tag. -/
def Obligations.EncFieldPacksAscii : Prop :=
  ∀ (s : State) (b : Bytes), s.par.ok = true →
    ((∀ x ∈ b, x.toNat ≤ 0x7F) ∧ b.length ≤ 255 →
      exec (.encField s.par.tagAscii b) s =
        .next { s with response := some (0x00 :: be 2 (2 + b.length) ++ s.par.tagAscii :: BitVec.ofNat 8 b.length :: b) }) ∧
    ((∃ x ∈ b, 0x7F < x.toNat) ∨ 255 < b.length →
      exec (.encField s.par.tagAscii b) s = .next { s with response := some [0x82] })

/-- R105, R110: ENC_FIELD on the octet tag. Each pair of hex digits, either case, is one byte, the high digit first; `isHexOf` gives the
values of the digits by their ASCII codes. -/
def Obligations.EncFieldPacksOctets : Prop :=
  ∀ (s : State) (h : Bytes), s.par.ok = true →
    let hexDigit := fun x : Byte => (0x30 ≤ x.toNat ∧ x.toNat ≤ 0x39) ∨ (0x41 ≤ x.toNat ∧ x.toNat ≤ 0x46) ∨
      (0x61 ≤ x.toNat ∧ x.toNat ≤ 0x66)
    (h.length % 2 = 0 ∧ (∀ x ∈ h, hexDigit x) ∧ h.length ≤ 510 →
      ∃ d : Bytes, isHexOf h d ∧
        exec (.encField s.par.tagOctet h) s =
          .next { s with response := some (0x00 :: be 2 (2 + d.length) ++ s.par.tagOctet :: BitVec.ofNat 8 d.length :: d) }) ∧
    (h.length % 2 = 1 ∨ (∃ x ∈ h, ¬ hexDigit x) ∨ 510 < h.length →
      exec (.encField s.par.tagOctet h) s = .next { s with response := some [0x82] })

/-- R106: an entry whose tag is none of the four raises InvalidEntry, in ENC_FIELD and in BUILD_FRAME. -/
def Obligations.UnknownTagsAreRefused : Prop :=
  ∀ (s : State) (tag : Byte) (raw : Bytes), tag ∉ [s.par.tagU32, s.par.tagU16, s.par.tagAscii, s.par.tagOctet] →
    exec (.encField tag raw) s = .next { s with response := some [0x82] } ∧
    ∀ (dt : Dt12) (ents : List RawEntry), ⟨tag, raw⟩ ∈ ents →
      exec (.buildFrame dt ents) s = .next { s with response := some [0x82] }

/-- R130, R131, R132, R133, R138: PACK_DT_CLOCK answers the 12 bytes of the clock draw, rounded by the policy, and InvalidTimestamp for
a component that its field cannot hold, whatever the policy. -/
def Obligations.PackDtClockQuantizesTheDraw : Prop :=
  ∀ (s : State) (policy : Byte),
    let c := s.clock
    let fits := c.year ≤ 65535 ∧ c.month ≤ 255 ∧ c.day ≤ 255 ∧ c.weekday ≤ 255 ∧ c.hour ≤ 255 ∧ c.minute ≤ 255 ∧ c.second ≤ 255
    let date : Bytes := [BitVec.ofNat 8 (c.year / 256), BitVec.ofNat 8 (c.year % 256), BitVec.ofNat 8 c.month,
      BitVec.ofNat 8 c.day, BitVec.ofNat 8 c.weekday, BitVec.ofNat 8 c.hour]
    let power : Bytes := date ++ [BitVec.ofNat 8 c.minute, BitVec.ofNat 8 (10 * (c.second / 10))] ++ be 4 s.par.dtSuffix.toNat
    let energy : Bytes := date ++ [0x00, 0x37] ++ be 4 s.par.dtSuffix.toNat
    (fits → policy = 0x00 → exec (.packDtClock policy) s = .next { s with response := some (0x00 :: power) }) ∧
    (fits → policy ≠ 0x00 → exec (.packDtClock policy) s = .next { s with response := some (0x00 :: energy) }) ∧
    (¬ fits → exec (.packDtClock policy) s = .next { s with response := some [0x83] })

/-- R139: PACK_DT_EXPLICIT, with any TS_PARSE: a string that parses to components that fit answers their 12 bytes, rounded by the policy
(R137), and a string that does not parse or a component that does not fit raises InvalidTimestamp. -/
def Obligations.PackDtExplicitQuantizesTheString : Prop :=
  ∀ (s : State) (policy : Byte) (ts : Bytes),
    (∀ c : Components, s.par.parseTs ts = some c →
      let fits := c.year ≤ 65535 ∧ c.month ≤ 255 ∧ c.day ≤ 255 ∧ c.weekday ≤ 255 ∧ c.hour ≤ 255 ∧ c.minute ≤ 255 ∧ c.second ≤ 255
      let date : Bytes := [BitVec.ofNat 8 (c.year / 256), BitVec.ofNat 8 (c.year % 256), BitVec.ofNat 8 c.month,
        BitVec.ofNat 8 c.day, BitVec.ofNat 8 c.weekday, BitVec.ofNat 8 c.hour]
      let power : Bytes := date ++ [BitVec.ofNat 8 c.minute, BitVec.ofNat 8 (10 * (c.second / 10))] ++ be 4 s.par.dtSuffix.toNat
      let energy : Bytes := date ++ [0x00, 0x37] ++ be 4 s.par.dtSuffix.toNat
      (fits → policy = 0x00 → exec (.packDtExplicit policy ts) s = .next { s with response := some (0x00 :: power) }) ∧
      (fits → policy ≠ 0x00 → exec (.packDtExplicit policy ts) s = .next { s with response := some (0x00 :: energy) }) ∧
      (¬ fits → exec (.packDtExplicit policy ts) s = .next { s with response := some [0x83] })) ∧
    (s.par.parseTs ts = none → exec (.packDtExplicit policy ts) s = .next { s with response := some [0x83] })

/-- R135: the default TS_PARSE. Every string is written in exactly the way `spelled` says, and it parses when it has seven runs of
digits, into their decimal values in order. -/
def Obligations.DefaultParserTakesSevenRuns : Prop :=
  (∀ ts : Bytes, ∃ parts tail, spelled parts tail ∧ ts = spell parts tail) ∧
  ∀ (p : Par) (parts : List (Bytes × Bytes)) (tail : Bytes), p.tsParse = .digitRuns → spelled parts tail →
    (∀ c : Components, parts.map (fun x => digitsVal x.2) = [c.year, c.month, c.day, c.weekday, c.hour, c.minute, c.second] →
      p.parseTs (spell parts tail) = some c) ∧
    (parts.length ≠ 7 → p.parseTs (spell parts tail) = none)

/-- R132, R133: two times that fit their fields pack to one datetime exactly when they lie in one rounding bucket: ten seconds on
POWER, one clock hour on ENERGY. -/
def Obligations.RoundingBucketsAreTheOnlyCollisions : Prop :=
  ∀ (p : Par) (a b : Components), inRange a = true → inRange b = true →
    let sameHour := a.year = b.year ∧ a.month = b.month ∧ a.day = b.day ∧ a.weekday = b.weekday ∧ a.hour = b.hour
    (packDatetime p .power a = packDatetime p .power b ↔ sameHour ∧ a.minute = b.minute ∧ a.second / 10 = b.second / 10) ∧
    (packDatetime p .energy a = packDatetime p .energy b ↔ sameHour)

/-- R150, R151: SHOULD_EMIT, on each stream. -/
def Obligations.ShouldEmitChecksAndRecords : Prop :=
  ∀ (s : State) (dt : Dt12),
    (s.lastSeenPower = some dt → exec (.shouldEmit .power dt) s = .next { s with response := some [0x00, 0x00] }) ∧
    (s.lastSeenPower ≠ some dt →
      exec (.shouldEmit .power dt) s = .next { s with lastSeenPower := some dt, response := some [0x00, 0x01] }) ∧
    (s.lastSeenEnergy = some dt → exec (.shouldEmit .energy dt) s = .next { s with response := some [0x00, 0x00] }) ∧
    (s.lastSeenEnergy ≠ some dt →
      exec (.shouldEmit .energy dt) s = .next { s with lastSeenEnergy := some dt, response := some [0x00, 0x01] })

/-- R152: after RESET, SHOULD_EMIT with A, A, B, A on one stream answers true, false, true, true, and leaves the other stream's entry
empty, so that A on the other stream then answers true. -/
def Obligations.OnlyTheLastValueIsKept : Prop :=
  ∀ (s : State) (stream other : Stream) (a b : Dt12), other ≠ stream → a ≠ b →
    ∃ s0 s1 s2 s3 s4 s5, exec .reset s = .next s0 ∧
      exec (.shouldEmit stream a) s0 = .next s1 ∧ s1.response = some [0x00, 0x01] ∧
      exec (.shouldEmit stream a) s1 = .next s2 ∧ s2.response = some [0x00, 0x00] ∧
      exec (.shouldEmit stream b) s2 = .next s3 ∧ s3.response = some [0x00, 0x01] ∧
      exec (.shouldEmit stream a) s3 = .next s4 ∧ s4.response = some [0x00, 0x01] ∧ s4.lastSeen other = none ∧
      exec (.shouldEmit other a) s4 = .next s5 ∧ s5.response = some [0x00, 0x01]

/-- R160, R168: the frame that BUILD_FRAME answers, written out from the layout table. The four patch steps of R162 to R165 compute
exactly this. -/
def Obligations.BuildFrameAnswersTheLayout : Prop :=
  ∀ (s : State) (dt : Dt12) (ents : List RawEntry) (fields : List Bytes),
    List.Forall₂ (fun e b => encFieldBytes s.par e = .ok b) ents fields → ents.length ≤ 255 → fields.flatten.length + 34 ≤ 24577 →
    let L := 34 + fields.flatten.length
    let head : Bytes := be 2 (0xA000 + L - 2) ++ [BitVec.ofNat 8 (2 * s.cfg.target.toNat + 1),
      BitVec.ofNat 8 (2 * s.cfg.source.toNat + 1), 0x13]
    let body : Bytes := head ++ be 2 (crc16 head).toNat ++ be 4 s.par.protoMarker.toNat ++ [0x00, 0x00, 0x00, 0x00, 0x0C] ++
      dtBytes dt ++ [0x02, BitVec.ofNat 8 ents.length] ++ fields.flatten
    let frame : Bytes := [s.par.hdlcFlag] ++ body ++ be 2 (crc16 body).toNat ++ [s.par.hdlcFlag]
    frame.length = L ∧ exec (.buildFrame dt ents) s = .next { s with response := some (0x00 :: be 2 L ++ frame) }

/-- R163, R167, R224: BUILD_FRAME's faults in their order: an entry that does not encode, then more than 255 entries, then a frame
longer than 24577 bytes. -/
def Obligations.BuildFrameFaultsInOrder : Prop :=
  ∀ (s : State) (dt : Dt12) (ents : List RawEntry),
    ((∃ e ∈ ents, ∀ b, encFieldBytes s.par e ≠ .ok b) → exec (.buildFrame dt ents) s = .next { s with response := some [0x82] }) ∧
    ∀ fields : List Bytes, List.Forall₂ (fun e b => encFieldBytes s.par e = .ok b) ents fields →
      (255 < ents.length → exec (.buildFrame dt ents) s = .next { s with response := some [0x82] }) ∧
      (ents.length ≤ 255 → 24577 < fields.flatten.length + 34 →
        exec (.buildFrame dt ents) s = .next { s with response := some [0x84] })

/-- R169: every frame that BUILD_FRAME or an ENCODE answers begins and ends with the flag, holds its own length, and holds both CRCs
over their ranges. -/
def Obligations.FramesDescribeThemselves : Prop :=
  ∀ (i : Instr) (s t : State) (payload : Bytes),
    (isEncode .power i ∨ isEncode .energy i ∨ ∃ dt ents, i = .buildFrame dt ents) → exec i s = .next t → answersOk t payload →
    ∃ frame : Bytes, payload = be 2 frame.length ++ frame ∧ 34 ≤ frame.length ∧ frame.length ≤ 24577 ∧
      slice frame 0 1 = [s.par.hdlcFlag] ∧ slice frame (frame.length - 1) frame.length = [s.par.hdlcFlag] ∧
      memRead frame 1 2 = 0xA000 + frame.length - 2 ∧
      slice frame 6 8 = be 2 (crc16 (slice frame 1 6)).toNat ∧
      slice frame (frame.length - 3) (frame.length - 1) = be 2 (crc16 (slice frame 1 (frame.length - 3))).toNat

/-- From R125 and R165 (V-CRC-14 of 95_test_vectors.md): two blocks that differ only in their Cfg build, from one datetime and one list of
entries, frames that are equal from offset 8 on, the frame CRC among it. -/
def Obligations.FrameCrcIgnoresTheAddress : Prop :=
  ∀ (s t u : State) (cfg : Cfg) (dt : Dt12) (ents : List RawEntry) (f g : Bytes),
    exec (.buildFrame dt ents) s = .next t → answersOk t (be 2 f.length ++ f) →
    exec (.buildFrame dt ents) { s with cfg := cfg } = .next u → answersOk u (be 2 g.length ++ g) →
    f.length = g.length ∧ f.drop 8 = g.drop 8

/-- R182: the conversion of each required reading, and SCALE_CONV in the default build. -/
def Obligations.ReadingsConvertAsStated : Prop :=
  ∀ (p : Par) (rd : List Reading) (k : Key) (raw : Bytes) (q : Rat), lookup rd k = some raw → numeral raw = some q →
    let towardZero := fun x : Rat => if 0 ≤ x then x.floor else x.ceil
    (k ∈ [Key.P, .PO, .Q, .QO] → (∀ v : Int, q = v → converted p rd k = .ok v) ∧
      ((∀ v : Int, q ≠ v) → converted p rd k = .error .invalidEntry)) ∧
    (k ∈ [Key.U1, .U2, .U3] → converted p rd k = .ok (towardZero q)) ∧
    (k ∈ [Key.I1, .I2, .I3] → converted p rd k = .ok (p.scale q 100)) ∧
    (k ∈ [Key.tPI, .tPO, .tQI, .tQO] → converted p rd k = .ok (p.scale q 1000)) ∧
    (p.scaleConv = .exactTrunc → ∀ m : Nat, p.scale q m = towardZero (q * m))

/-- R183, R184, R188: COMPOSE on the POWER stream answers the 25 entries of the table, for the values `v` of the ten readings, whatever
the datetime. A numeral must fit a blob, as every numeral below 65536 bytes does. -/
def Obligations.ComposePowerAnswersTheTable : Prop :=
  ∀ (s : State) (dt : Dt12) (rd : List Reading) (v : Key → Int), s.constructed = true → hasDuplicateKey rd = false →
    (∀ k ∈ powerKeys, converted s.par rd k = .ok (v k) ∧ (canonicalNumeral (v k)).length ≤ 65535) →
    exec (.compose .power dt rd) s =
      .next { s with response := some (0x00 :: be 2 25 ++ (powerTable s.cfg s.par v).flatMap entryBytes) }

/-- R183, R185, R186, R188: COMPOSE on the ENERGY stream answers the 25 power entries and the ten entries of the tail: in an OWN_INPUT build
with the values of its own power readings, in a LAST_POWER build with those that LastPower holds. -/
def Obligations.ComposeEnergyAnswersTheTable : Prop :=
  ∀ (s : State) (dt : Dt12) (rd : List Reading) (u v : Key → Int), s.constructed = true → hasDuplicateKey rd = false →
    (∀ k ∈ energyKeys, converted s.par rd k = .ok (v k) ∧ (canonicalNumeral (v k)).length ≤ 65535) →
    (∀ k ∈ powerKeys, (canonicalNumeral (u k)).length ≤ 65535) →
    (s.par.energyPrefix = .ownInput ∧ (∀ k ∈ powerKeys, converted s.par rd k = .ok (u k)) ∨
      s.par.energyPrefix = .lastPower ∧ s.lastPower = some (powerSnap s.cfg s.par (powerValuesOf u))) →
    let entries := (powerTable s.cfg s.par u ++ energyTable s.par v dt).flatMap entryBytes
    exec (.compose .energy dt rd) s = .next { s with response := some (0x00 :: be 2 35 ++ entries) }

/-- R185, R186: in an OWN_INPUT build an energy COMPOSE answers the entries of the power COMPOSE of the same readings and then the ten
entries of the energy tail. -/
def Obligations.EnergySnapshotExtendsThePowerSnapshot : Prop :=
  ∀ (s t : State) (dt : Dt12) (rd : List Reading) (payload : Bytes), s.par.energyPrefix = .ownInput →
    exec (.compose .energy dt rd) s = .next t → answersOk t payload →
    ∃ (power : Bytes) (v : Key → Int), exec (.compose .power dt rd) s = .next { s with response := some (0x00 :: be 2 25 ++ power) } ∧
      (∀ k ∈ energyKeys, converted s.par rd k = .ok (v k)) ∧
      payload = be 2 35 ++ power ++ (energyTable s.par v dt).flatMap entryBytes

/-- R187: COMPOSE's faults in their order: a duplicated key, an empty LastPower, a missing key, a value that is no numeral, a conversion
that fails. -/
def Obligations.ComposeFaultsInOrder : Prop :=
  ∀ (s : State) (stream : Stream) (dt : Dt12) (rd : List Reading),
    let keys := requiredKeys s.par stream
    let dup := ¬ (rd.map Reading.key).Nodup
    let empty := stream = .energy ∧ s.par.energyPrefix = .lastPower ∧ s.lastPower = none
    let missing := ∃ k ∈ keys, ∀ r ∈ rd, r.key ≠ k.bytes
    let shape := ∃ k ∈ keys, ∃ r ∈ rd, r.key = k.bytes ∧ numeral r.value = none
    let conv := ∃ k ∈ keys, k ∈ [Key.P, .PO, .Q, .QO] ∧ ∃ r ∈ rd, r.key = k.bytes ∧ ∀ v : Int, numeral r.value ≠ some (v : Rat)
    (dup → exec (.compose stream dt rd) s = .next { s with response := some [0x82] }) ∧
    (¬ dup → empty → exec (.compose stream dt rd) s = .next { s with response := some [0x81] }) ∧
    (¬ dup → ¬ empty → missing → exec (.compose stream dt rd) s = .next { s with response := some [0x81] }) ∧
    (¬ dup → ¬ empty → ¬ missing → shape → exec (.compose stream dt rd) s = .next { s with response := some [0x82] }) ∧
    (¬ dup → ¬ empty → ¬ missing → ¬ shape → conv → exec (.compose stream dt rd) s = .next { s with response := some [0x82] })

/-- R200, R201, R202, R203: both encodes on the POWER stream, from a clock draw or from a string that parses. With a datetime not seen
last and the ten readings in the range of their fields, the block answers a frame and commits. -/
def Obligations.EncodePowerEmitsAndCommits : Prop :=
  ∀ (s : State) (c : Components) (ts : Bytes) (rd : List Reading) (v : PowerValues),
    s.constructed = true → inRange c = true → hasDuplicateKey rd = false → powerValues s.par rd = .ok v →
    (∀ x ∈ [v.P, v.PO, v.Q, v.QO, v.I1, v.I2, v.I3], 0 ≤ x ∧ x ≤ 4294967295) → (∀ x ∈ [v.U1, v.U2, v.U3], 0 ≤ x ∧ x ≤ 65535) →
    let dt := dtOfBytes (dtFields s.par.dtSuffix { c with second := 10 * (c.second / 10) })
    s.lastSeenPower ≠ some dt →
    ∃ frame : Bytes,
      frame.length = 180 + s.cfg.listLabel.length + s.cfg.meterId.length + s.cfg.meterType.length ∧
      (let t := { s with lastSeenPower := some dt,
                         lastPower := if s.par.energyPrefix = .lastPower then some (powerSnap s.cfg s.par v) else s.lastPower,
                         response := some (0x00 :: be 2 frame.length ++ frame) }
       (s.clock = c → exec (.encodeClock .power rd) s = .next t) ∧
       (s.par.parseTs ts = some c → exec (.encodeExplicit .power ts rd) s = .next t)) ∧
      slice frame 17 29 = dtBytes dt

/-- R200, R201, R202, R203: both encodes on the ENERGY stream, in an OWN_INPUT build from its own fourteen readings and in a LAST_POWER build
from its four and the snapshot that it holds. -/
def Obligations.EncodeEnergyEmitsAndCommits : Prop :=
  ∀ (s : State) (c : Components) (ts : Bytes) (rd : List Reading) (w : EnergyValues),
    Inv s → inRange c = true → hasDuplicateKey rd = false → energyValues s.par rd = .ok w →
    (∀ x ∈ [w.tPI, w.tPO, w.tQI, w.tQO], 0 ≤ x ∧ x ≤ 4294967295) →
    (s.par.energyPrefix = .ownInput → ∃ v, powerValues s.par rd = .ok v ∧
      (∀ x ∈ [v.P, v.PO, v.Q, v.QO, v.I1, v.I2, v.I3], 0 ≤ x ∧ x ≤ 4294967295) ∧ ∀ x ∈ [v.U1, v.U2, v.U3], 0 ≤ x ∧ x ≤ 65535) →
    (s.par.energyPrefix = .lastPower → s.lastPower ≠ none) →
    let dt := dtOfBytes (dtFields s.par.dtSuffix { c with minute := 0, second := 55 })
    s.lastSeenEnergy ≠ some dt →
    ∃ frame : Bytes,
      frame.length = 254 + s.cfg.listLabel.length + s.cfg.meterId.length + s.cfg.meterType.length ∧
      (let t := { s with lastSeenEnergy := some dt, response := some (0x00 :: be 2 frame.length ++ frame) }
       (s.clock = c → exec (.encodeClock .energy rd) s = .next t) ∧
       (s.par.parseTs ts = some c → exec (.encodeExplicit .energy ts rd) s = .next t)) ∧
      slice frame 17 29 = dtBytes dt

/-- R204: a duplicate is SUPPRESSED whatever the readings are, with no state written. -/
def Obligations.DuplicatesAreSuppressed : Prop :=
  ∀ (s : State) (stream : Stream) (c : Components) (ts : Bytes) (rd : List Reading) (dt : Dt12),
    packDatetime s.par (streamPolicy stream) c = .ok dt → s.lastSeen stream = some dt →
    (s.clock = c → exec (.encodeClock stream rd) s = .next { s with response := some [0x01] }) ∧
    (s.par.parseTs ts = some c → exec (.encodeExplicit stream ts rd) s = .next { s with response := some [0x01] })

/-- R229, R223: an encode whose time does not parse or does not fit raises InvalidTimestamp, before it looks at anything else. -/
def Obligations.EncodeChecksTheTimeFirst : Prop :=
  ∀ (s : State) (stream : Stream) (ts : Bytes) (rd : List Reading),
    (inRange s.clock = false → exec (.encodeClock stream rd) s = .next { s with response := some [0x83] }) ∧
    (s.par.parseTs ts = none → exec (.encodeExplicit stream ts rd) s = .next { s with response := some [0x83] }) ∧
    (∀ c, s.par.parseTs ts = some c → inRange c = false →
      exec (.encodeExplicit stream ts rd) s = .next { s with response := some [0x83] })

/-- R243: SHOULD_EMIT consumes the datetime: an encode on that stream that packs it, from the clock draw or from a string, is SUPPRESSED. -/
def Obligations.ShouldEmitConsumesTheDatetime : Prop :=
  ∀ (s t u : State) (stream : Stream) (dt : Dt12) (rd : List Reading), exec (.shouldEmit stream dt) s = .next t →
    (exec (.packDtClock (streamByte stream)) s = .next u → answersOk u (dtBytes dt) →
      exec (.encodeClock stream rd) t = .next { t with response := some [0x01] }) ∧
    ∀ ts : Bytes, exec (.packDtExplicit (streamByte stream) ts) s = .next u → answersOk u (dtBytes dt) →
      exec (.encodeExplicit stream ts rd) t = .next { t with response := some [0x01] }

/-- R30, for the last emitted value (log entry 11): two encodes on one stream that answer OK, with commands between them that write no
LastSeen entry of that stream, answer frames with different packed datetimes. -/
def Obligations.NoFrameRepeatsTheLastDatetime : Prop :=
  ∀ (stream : Stream) (i j : Instr) (mid : List Instr) (s t u w : State) (f g : Bytes),
    isEncode stream i → isEncode stream j → exec i s = .next t → answersOk t (be 2 f.length ++ f) → QuietRun stream mid t u →
    exec j u = .next w → answersOk w (be 2 g.length ++ g) → slice f 17 29 ≠ slice g 17 29

/-- R30's ground: an encode that answers OK carries in its frame the datetime that LastSeen holds after it and did not hold before. -/
def Obligations.EmittedDatetimeBecomesLastSeen : Prop :=
  ∀ (stream : Stream) (i : Instr) (s t : State) (f : Bytes), isEncode stream i → exec i s = .next t →
    answersOk t (be 2 f.length ++ f) →
    ∃ dt, slice f 17 29 = dtBytes dt ∧ s.lastSeen stream ≠ some dt ∧ t.lastSeen stream = some dt

/-- From D37, R166 and R200 (program P4 of 95_test_vectors.md): an encode's frame is what the host gets from the primitives: pack the
time, compose, and give COMPOSE's payload unchanged to BUILD_FRAME. -/
def Obligations.EncodeIsPackComposeBuild : Prop :=
  ∀ (s t : State) (stream : Stream) (enc pack : Instr) (rd : List Reading) (f : Bytes), s.par.ok = true →
    (enc = .encodeClock stream rd ∧ pack = .packDtClock (streamByte stream) ∨
      ∃ ts, enc = .encodeExplicit stream ts rd ∧ pack = .packDtExplicit (streamByte stream) ts) →
    exec enc s = .next t → answersOk t f →
    ∃ (dt : Dt12) (payload : Bytes) (ents : List RawEntry),
      exec pack s = .next { s with response := some (0x00 :: dtBytes dt) } ∧
      exec (.compose stream dt rd) s = .next { s with response := some (0x00 :: payload) } ∧
      decode (0x50 :: dtBytes dt ++ payload) = .ok (.buildFrame dt ents) ∧
      exec (.buildFrame dt ents) s = .next { s with response := some (0x00 :: f) }

/-- R189: reading the entries of an emitted power frame back from offset 31 gives the composed values, and the three trailer bytes are
left. -/
def Obligations.PowerFrameReadsBack : Prop :=
  ∀ (i : Instr) (s t : State) (rd : List Reading) (f : Bytes),
    (i = .encodeClock .power rd ∨ ∃ ts, i = .encodeExplicit .power ts rd) → s.constructed = true → exec i s = .next t →
    answersOk t (be 2 f.length ++ f) →
    ∃ (v : PowerValues) (trailer : Bytes), powerValues s.par rd = .ok v ∧ trailer.length = 3 ∧
      (∀ x ∈ [v.P, v.PO, v.Q, v.QO, v.I1, v.I2, v.I3, v.U1, v.U2, v.U3], 0 ≤ x) ∧
      (let code := fun b : Bytes => (s.par.tagOctet, b)
       let label := fun b : Bytes => (s.par.tagAscii, b)
       let u32 := fun x : Int => (s.par.tagU32, be 4 x.toNat)
       let u16 := fun x : Int => (s.par.tagU16, be 2 x.toNat)
       readFields s.par 25 (f.drop 31) = some
        ([label s.cfg.listLabel,
          code [0x01, 0x01, 0x00, 0x00, 0x05, 0xFF], label s.cfg.meterId,
          code [0x01, 0x01, 0x60, 0x01, 0x01, 0xFF], label s.cfg.meterType,
          code [0x01, 0x01, 0x01, 0x07, 0x00, 0xFF], u32 v.P,
          code [0x01, 0x01, 0x02, 0x07, 0x00, 0xFF], u32 v.PO,
          code [0x01, 0x01, 0x03, 0x07, 0x00, 0xFF], u32 v.Q,
          code [0x01, 0x01, 0x04, 0x07, 0x00, 0xFF], u32 v.QO,
          code [0x01, 0x01, 0x1F, 0x07, 0x00, 0xFF], u32 v.I1,
          code [0x01, 0x01, 0x33, 0x07, 0x00, 0xFF], u32 v.I2,
          code [0x01, 0x01, 0x47, 0x07, 0x00, 0xFF], u32 v.I3,
          code [0x01, 0x01, 0x20, 0x07, 0x00, 0xFF], u16 v.U1,
          code [0x01, 0x01, 0x34, 0x07, 0x00, 0xFF], u16 v.U2,
          code [0x01, 0x01, 0x48, 0x07, 0x00, 0xFF], u16 v.U3], trailer) ∧
       (∀ x ∈ [v.P, v.PO, v.Q, v.QO, v.I1, v.I2, v.I3], beVal (be 4 x.toNat) = x.toNat) ∧
       ∀ x ∈ [v.U1, v.U2, v.U3], beVal (be 2 x.toNat) = x.toNat)

/-- From D25 and R186 (program P5 of 95_test_vectors.md): the two ENERGY_PREFIX builds emit one frame when the last power frame of the
LAST_POWER build came from the same power readings, whatever else the two lists of readings hold and wherever the times come from. -/
def Obligations.EnergyPrefixModesAgree : Prop :=
  ∀ (s own last t u w : State) (i j : Instr) (rdP rdE : List Reading) (f g : Bytes),
    (∀ k ∈ powerKeys, lookup rdP k = lookup rdE k) →
    (i = .encodeClock .power rdP ∨ ∃ ts, i = .encodeExplicit .power ts rdP) →
    (j = .encodeClock .energy rdE ∨ ∃ ts, j = .encodeExplicit .energy ts rdE) →
    own = { s with par := { s.par with energyPrefix := .ownInput } } →
    last = { s with par := { s.par with energyPrefix := .lastPower } } →
    exec i last = .next t → answersOk t g → exec j own = .next u → answersOk u f → exec j t = .next w →
    answersOk w f ∧ w.lastSeenEnergy = u.lastSeenEnergy

/-- R74, R75: every line that writes a well-formed command, with any operands in any of their written forms, assembles to the encoding
of the command, the pseudo-commands to that of their ENC_FIELD; and a line whose dt12 operand is not the hex string of 12 bytes, as one
of another length, is rejected. -/
def Obligations.AssembledLinesAreEncodings : Prop :=
  (∀ (p : Par) (m : Mnemonic) (ops : List AsmOperand) (i : Instr), writesLine p m ops i → i.wellFormed = true →
    assemble p m ops = some (encode i)) ∧
  ∀ (p : Par) (d : AsmOperand), (∀ dt, ¬ writesDt d dt) →
    ∀ o e r : AsmOperand, assemble p .SHOULD_EMIT [o, d] = none ∧ assemble p .BUILD_FRAME [d, e] = none ∧
      assemble p .COMPOSE [o, d, r] = none

/-- R225, R77: a step answers IllegalCommand exactly when the decoder rejects the bytes on the port, and a command that decoded never
does. -/
def Obligations.OnlyTheDecoderRaisesIllegalCommand : Prop :=
  (∀ (i : Instr) (s t : State), exec i s = .next t → t.response ≠ some [0x8F]) ∧
  ∀ (s t : State) (c : Transaction) (rest : List Transaction), s.constructed = true → s.inbox = c :: rest → step s = .next t →
    (t.response = some [0x8F] ↔ ∃ e, decode c.bytes = .error e)

/-- R201, R202, R229: both encodes, once their time packs and is no duplicate. They answer the fault that COMPOSE answers with that
datetime, in COMPOSE's order (R187): a duplicated key, an empty LastPower, a missing key, a value that is no numeral, a conversion that
fails. Where none of these holds, a converted value that does not fit its field (R102, R103) raises InvalidEntry. -/
def Obligations.EncodeFaultsInComposesOrder : Prop :=
  ∀ (s : State) (stream : Stream) (c : Components) (ts : Bytes) (rd : List Reading) (dt : Dt12),
    packDatetime s.par (streamPolicy stream) c = .ok dt → s.lastSeen stream ≠ some dt →
    let answers := fun f : Byte =>
      (s.clock = c → exec (.encodeClock stream rd) s = .next { s with response := some [f] }) ∧
      (s.par.parseTs ts = some c → exec (.encodeExplicit stream ts rd) s = .next { s with response := some [f] })
    let keys := requiredKeys s.par stream
    let dup := ¬ (rd.map Reading.key).Nodup
    let empty := stream = .energy ∧ s.par.energyPrefix = .lastPower ∧ s.lastPower = none
    let missing := ∃ k ∈ keys, ∀ r ∈ rd, r.key ≠ k.bytes
    let shape := ∃ k ∈ keys, ∃ r ∈ rd, r.key = k.bytes ∧ numeral r.value = none
    let conv := ∃ k ∈ keys, k ∈ [Key.P, .PO, .Q, .QO] ∧ ∃ r ∈ rd, r.key = k.bytes ∧ ∀ v : Int, numeral r.value ≠ some (v : Rat)
    let unfit := ∃ k ∈ keys, ∃ v : Int, converted s.par rd k = .ok v ∧
      (v < 0 ∨ (if k ∈ [Key.U1, .U2, .U3] then 65535 else 4294967295) < v)
    (∀ f : Byte, exec (.compose stream dt rd) s = .next { s with response := some [f] } → answers f) ∧
    (dup → answers 0x82) ∧
    (¬ dup → empty → answers 0x81) ∧
    (¬ dup → ¬ empty → missing → answers 0x81) ∧
    (¬ dup → ¬ empty → ¬ missing → shape → answers 0x82) ∧
    (¬ dup → ¬ empty → ¬ missing → ¬ shape → conv → answers 0x82) ∧
    (s.constructed = true → ¬ dup → ¬ empty → ¬ missing → ¬ shape → ¬ conv → unfit → answers 0x82)
end

