-- ==== Sys2Proof/Laws/Bytes.lean ====
section
/-! SUPPORT. The byte primitives: big-endian encoding and value undo each other, and what a memory write changes. -/

namespace Sys2Proof.Machine

theorem be_length (n v : Nat) : (be n v).length = n := by
  induction n with
  | zero => rfl
  | succ n ih => simp [be, ih]

theorem beVal_lt (b : Bytes) : beVal b < 256 ^ b.length := by
  induction b with
  | nil => simp [beVal]
  | cons x r ih =>
    have hx : x.toNat < 256 := x.isLt
    simp only [beVal, List.length_cons, Nat.pow_succ]
    calc x.toNat * 256 ^ r.length + beVal r < x.toNat * 256 ^ r.length + 256 ^ r.length := by omega
      _ = (x.toNat + 1) * 256 ^ r.length := by ring
      _ ≤ 256 * 256 ^ r.length := Nat.mul_le_mul_right _ hx
      _ = 256 ^ r.length * 256 := by ring

/-- Reading an encoded number gives it back, less what the bytes cannot hold. -/
theorem beVal_be (n v : Nat) : beVal (be n v) = v % 256 ^ n := by
  induction n with
  | zero => simp [be, beVal, Nat.mod_one]
  | succ n ih =>
    simp only [be, beVal, be_length, ih, BitVec.toNat_ofNat]
    have h : v % (256 ^ n * 256) = v % 256 ^ n + 256 ^ n * (v / 256 ^ n % 256) := Nat.mod_mul
    have h8 : 2 ^ 8 = 256 := rfl
    rw [h8, Nat.pow_succ 256 n, h, Nat.add_comm, Nat.mul_comm]

theorem beVal_be_of_lt {n v : Nat} (h : v < 256 ^ n) : beVal (be n v) = v := by
  rw [beVal_be, Nat.mod_eq_of_lt h]

theorem be_add_mul (n k v : Nat) : be n (k * 256 ^ n + v) = be n v := by
  induction n generalizing k v with
  | zero => rfl
  | succ n ih =>
    have e : k * 256 ^ (n + 1) + v = (k * 256) * 256 ^ n + v := by ring
    simp only [be]
    rw [e, ih]
    congr 1
    apply BitVec.eq_of_toNat_eq
    simp only [BitVec.toNat_ofNat]
    rw [Nat.mul_comm (k * 256), Nat.mul_add_div (by positivity)]
    omega

/-- Encoding the value of a byte string gives the string back. -/
theorem be_beVal (b : Bytes) : be b.length (beVal b) = b := by
  induction b with
  | nil => rfl
  | cons x r ih =>
    simp only [List.length_cons, be, beVal, be_add_mul, ih]
    congr 1
    apply BitVec.eq_of_toNat_eq
    have hx : x.toNat < 256 := x.isLt
    rw [BitVec.toNat_ofNat, Nat.mul_comm, Nat.mul_add_div (by positivity), Nat.div_eq_of_lt (beVal_lt r)]
    simpa using hx

theorem dtBytes_length (d : Dt12) : (dtBytes d).length = 12 := be_length _ _

theorem dtOfBytes_dtBytes (d : Dt12) : dtOfBytes (dtBytes d) = d := by
  have h : d.toNat < 256 ^ 12 := by have := d.isLt; norm_num at this ⊢; exact this
  simp [dtOfBytes, dtBytes, beVal_be_of_lt h]

theorem dtBytes_dtOfBytes {b : Bytes} (h : b.length = 12) : dtBytes (dtOfBytes b) = b := by
  have hv : beVal b < 2 ^ 96 := by have := beVal_lt b; rw [h] at this; norm_num at this ⊢; exact this
  have hb := be_beVal b
  rw [h] at hb
  simp only [dtBytes, dtOfBytes, BitVec.toNat_ofNat, Nat.mod_eq_of_lt hv, hb]

theorem blob_length (b : Bytes) : (blob b).length = 2 + b.length := by simp [blob, be_length]

theorem memWrite_length {fb : Bytes} {addr n v : Nat} (h : addr + n ≤ fb.length) :
    (memWrite fb addr n v).length = fb.length := by
  simp [memWrite, be_length]; omega

/-- A memory write leaves every byte before it as it was. -/
theorem memWrite_take {fb : Bytes} {addr n v : Nat} (h : addr ≤ fb.length) :
    (memWrite fb addr n v).take addr = fb.take addr := by
  have e : (fb.take addr).length = addr := by simp [h]
  rw [memWrite, List.append_assoc, List.take_append_of_le_length (by omega)]
  simp

/-- A memory write leaves every byte after it as it was. -/
theorem memWrite_drop {fb : Bytes} {addr n v : Nat} (h : addr ≤ fb.length) :
    (memWrite fb addr n v).drop (addr + n) = fb.drop (addr + n) := by
  have e : (fb.take addr ++ be n v).length = addr + n := by simp [h, be_length]
  rw [memWrite, List.drop_append_of_le_length (by omega), ← e, List.drop_length]
  simp

/-- What a memory write stores can be read back. -/
theorem memRead_memWrite {fb : Bytes} {addr n v : Nat} (h : addr ≤ fb.length) (hv : v < 256 ^ n) :
    memRead (memWrite fb addr n v) addr n = v := by
  have e : (fb.take addr).length = addr := by simp [h]
  have hs : slice (memWrite fb addr n v) addr (addr + n) = be n v := by
    have hd : (fb.take addr).drop addr = [] := by simp
    rw [slice, memWrite, List.append_assoc, List.drop_append_of_le_length (by omega), hd]
    simp [be_length]
  rw [memRead, hs, beVal_be_of_lt hv]

end Sys2Proof.Machine
end

