-- ==== Sys2Proof/Laws/Decode.lean ====
section
/-! SUPPORT. What each operand reader answers on the serialization of an operand, and what its answer says of the bytes read. -/

namespace Sys2Proof

open Machine

theorem takeBytes_append {n : Nat} {a : Bytes} (h : a.length = n) (r : Bytes) : takeBytes n (a ++ r) = .ok (a, r) := by
  subst h; simp [takeBytes]

/-- What `takeBytes` says of its input when it answers. -/
theorem takeBytes_ok {n : Nat} {bs a r : Bytes} (h : takeBytes n bs = .ok (a, r)) : bs = a ++ r ∧ a.length = n := by
  unfold takeBytes at h
  split at h
  · rename_i hn; cases h; exact ⟨(List.take_append_drop n bs).symm, by simp [hn]⟩
  · cases h

theorem takeU8_ok {bs r : Bytes} {b : Byte} (h : takeU8 bs = .ok (b, r)) : bs = b :: r := by
  cases bs with
  | nil => cases h
  | cons x xs => cases h; rfl

theorem takeBlob_blob {b : Bytes} (h : b.length ≤ 65535) (r : Bytes) : takeBlob (blob b ++ r) = .ok (b, r) := by
  have hn : beVal (be 2 b.length) = b.length := beVal_be_of_lt (by omega)
  simp [takeBlob, blob, List.append_assoc, takeBytes_append (be_length 2 _), hn, takeBytes_append rfl]

theorem takeBlob_ok {bs b r : Bytes} (h : takeBlob bs = .ok (b, r)) : bs = blob b ++ r ∧ b.length ≤ 65535 := by
  unfold takeBlob at h
  split at h
  · cases h
  · rename_i n q hq
    obtain ⟨rfl, hn⟩ := takeBytes_ok hq
    obtain ⟨rfl, hb⟩ := takeBytes_ok h
    have hv := beVal_lt n
    have hbe := be_beVal n
    rw [hn] at hv hbe
    exact ⟨by simp [blob, hb, hbe], by omega⟩

theorem takeDt12_dtBytes (d : Dt12) (r : Bytes) : takeDt12 (dtBytes d ++ r) = .ok (d, r) := by
  simp [takeDt12, takeBytes_append (dtBytes_length d), dtOfBytes_dtBytes]

theorem takeDt12_ok {bs r : Bytes} {d : Dt12} (h : takeDt12 bs = .ok (d, r)) : bs = dtBytes d ++ r := by
  unfold takeDt12 at h
  split at h
  · cases h
  · rename_i a q hq
    obtain ⟨rfl, ha⟩ := takeBytes_ok hq
    cases h
    rw [dtBytes_dtOfBytes ha]

theorem takeStream_streamByte (s : Stream) (r : Bytes) : takeStream (streamByte s :: r) = .ok (s, r) := by
  cases s <;> simp [takeStream, takeU8, streamByte]

theorem takeStream_ok {bs r : Bytes} {s : Stream} (h : takeStream bs = .ok (s, r)) : bs = streamByte s :: r := by
  unfold takeStream at h
  split at h
  · cases h
  · rename_i b q hq
    have := takeU8_ok hq
    split at h
    · rename_i hb; cases h; simp [this, hb, streamByte]
    · split at h
      · rename_i hb; cases h; simp [this, hb, streamByte]
      · cases h

/-- A reader that reads back each item's serialization reads back a list of them. -/
theorem takeMany_flatMap {α : Type} {item : Bytes → Parsed α} {ser : α → Bytes} {ok : α → Prop}
    (h : ∀ x r, ok x → item (ser x ++ r) = .ok (x, r)) :
    ∀ (xs : List α) (r : Bytes), (∀ x ∈ xs, ok x) → takeMany item xs.length (xs.flatMap ser ++ r) = .ok (xs, r)
  | [], r, _ => rfl
  | x :: xs, r, hx => by
    have h1 := h x (xs.flatMap ser ++ r) (hx x (by simp))
    have h2 := takeMany_flatMap h xs r fun y hy => hx y (by simp [hy])
    simp [takeMany, List.append_assoc, h1, h2]

/-- If each item read is the serialization of an item, a list read is the serialization of the list. -/
theorem takeMany_ok {α : Type} {item : Bytes → Parsed α} {ser : α → Bytes} {ok : α → Prop}
    (h : ∀ bs x r, item bs = .ok (x, r) → bs = ser x ++ r ∧ ok x) :
    ∀ (n : Nat) (bs : Bytes) (xs : List α) (r : Bytes), takeMany item n bs = .ok (xs, r) →
      bs = xs.flatMap ser ++ r ∧ xs.length = n ∧ ∀ x ∈ xs, ok x
  | 0, bs, xs, r, hm => by cases hm; simp
  | n + 1, bs, xs, r, hm => by
    simp only [takeMany] at hm
    split at hm
    · cases hm
    · rename_i x q hx
      split at hm
      · cases hm
      · rename_i ys q' hy
        cases hm
        obtain ⟨rfl, hok⟩ := h _ _ _ hx
        obtain ⟨rfl, hl, hall⟩ := takeMany_ok h n _ _ _ hy
        exact ⟨by simp, by simp [hl], by simpa [hok] using hall⟩

theorem takeEntry_entryBytes {e : RawEntry} (h : e.value.length ≤ 65535) (r : Bytes) :
    takeEntry (entryBytes e ++ r) = .ok (e, r) := by
  simp [takeEntry, entryBytes, takeU8, takeBlob_blob h]

theorem takeEntry_ok {bs r : Bytes} {e : RawEntry} (h : takeEntry bs = .ok (e, r)) :
    bs = entryBytes e ++ r ∧ e.value.length ≤ 65535 := by
  unfold takeEntry at h
  split at h
  · cases h
  · rename_i t q hq
    split at h
    · cases h
    · rename_i v q' hv
      cases h
      obtain ⟨rfl, hl⟩ := takeBlob_ok hv
      exact ⟨by simp [takeU8_ok hq, entryBytes], hl⟩

theorem takeEntries_entriesBytes {es : List RawEntry} (h : entriesOk es = true) (r : Bytes) :
    takeEntries (entriesBytes es ++ r) = .ok (es, r) := by
  simp only [entriesOk, blobOk, Bool.and_eq_true, decide_eq_true_eq, List.all_eq_true] at h
  have hn : beVal (be 2 es.length) = es.length := beVal_be_of_lt (by omega)
  simp [takeEntries, entriesBytes, takeBytes_append (be_length 2 _), hn,
    takeMany_flatMap (ok := fun e : RawEntry => e.value.length ≤ 65535) (fun e r he => takeEntry_entryBytes he r) es r h.2]

theorem takeEntries_ok {bs r : Bytes} {es : List RawEntry} (h : takeEntries bs = .ok (es, r)) :
    bs = entriesBytes es ++ r ∧ entriesOk es = true := by
  unfold takeEntries at h
  split at h
  · cases h
  · rename_i m q hq
    obtain ⟨rfl, hm⟩ := takeBytes_ok hq
    obtain ⟨rfl, hl, hall⟩ := takeMany_ok (ser := entryBytes) (ok := fun e : RawEntry => e.value.length ≤ 65535)
      (fun _ _ _ he => takeEntry_ok he) _ _ _ _ h
    have hv := beVal_lt m
    have hbe := be_beVal m
    rw [hm] at hv hbe
    refine ⟨by simp [entriesBytes, hl, hbe], ?_⟩
    simp only [entriesOk, blobOk, Bool.and_eq_true, decide_eq_true_eq, List.all_eq_true]
    exact ⟨by omega, hall⟩

theorem takeReading_readingBytes {x : Reading} (h : x.key.length ≤ 65535 ∧ x.value.length ≤ 65535) (r : Bytes) :
    takeReading (readingBytes x ++ r) = .ok (x, r) := by
  simp [takeReading, readingBytes, List.append_assoc, takeBlob_blob h.1, takeBlob_blob h.2]

theorem takeReading_ok {bs r : Bytes} {x : Reading} (h : takeReading bs = .ok (x, r)) :
    bs = readingBytes x ++ r ∧ x.key.length ≤ 65535 ∧ x.value.length ≤ 65535 := by
  unfold takeReading at h
  split at h
  · cases h
  · rename_i k q hk
    split at h
    · cases h
    · rename_i v q' hv
      cases h
      obtain ⟨rfl, h1⟩ := takeBlob_ok hk
      obtain ⟨rfl, h2⟩ := takeBlob_ok hv
      exact ⟨by simp [readingBytes], h1, h2⟩

theorem takeReadings_readingsBytes {rd : List Reading} (h : readingsOk rd = true) (r : Bytes) :
    takeReadings (readingsBytes rd ++ r) = .ok (rd, r) := by
  simp only [readingsOk, blobOk, Bool.and_eq_true, decide_eq_true_eq, List.all_eq_true] at h
  have hn : rd.length % 256 = rd.length := by omega
  simp [takeReadings, readingsBytes, be, takeU8, hn,
    takeMany_flatMap (ok := fun x : Reading => x.key.length ≤ 65535 ∧ x.value.length ≤ 65535)
      (fun x r hx => takeReading_readingBytes hx r) rd r h.2]

theorem takeReadings_ok {bs r : Bytes} {rd : List Reading} (h : takeReadings bs = .ok (rd, r)) :
    bs = readingsBytes rd ++ r ∧ readingsOk rd = true := by
  unfold takeReadings at h
  split at h
  · cases h
  · rename_i k q hq
    have hk := k.isLt
    obtain ⟨rfl, hl, hall⟩ := takeMany_ok (ser := readingBytes)
      (ok := fun x : Reading => x.key.length ≤ 65535 ∧ x.value.length ≤ 65535) (fun _ _ _ hx => takeReading_ok hx) _ _ _ _ h
    refine ⟨by simp [takeU8_ok hq, readingsBytes, be, hl], ?_⟩
    simp only [readingsOk, blobOk, Bool.and_eq_true, decide_eq_true_eq, List.all_eq_true]
    exact ⟨by omega, hall⟩

end Sys2Proof
end

