-- ==== Sys2Proof/Laws/State.lean ====
section
/-! SUPPORT. One lemma per field for each update of the state, and what each shared operation of Machine/Ops.lean leaves. -/

namespace Sys2Proof.Machine

variable (s : State) (st : Stream) (v : Option Dt12) (w : Option Snapshot) (c : Status) (p : Bytes)

@[simp] theorem State.setLastSeen_cfg : (s.setLastSeen st v).cfg = s.cfg := by cases st <;> rfl
@[simp] theorem State.setLastSeen_par : (s.setLastSeen st v).par = s.par := by cases st <;> rfl
@[simp] theorem State.setLastSeen_lastPower : (s.setLastSeen st v).lastPower = s.lastPower := by cases st <;> rfl
@[simp] theorem State.setLastSeen_inbox : (s.setLastSeen st v).inbox = s.inbox := by cases st <;> rfl
@[simp] theorem State.setLastSeen_clock : (s.setLastSeen st v).clock = s.clock := by cases st <;> rfl
@[simp] theorem State.setLastSeen_response : (s.setLastSeen st v).response = s.response := by cases st <;> rfl
@[simp] theorem State.setLastSeen_lastSeen : (s.setLastSeen st v).lastSeen st = v := by cases st <;> rfl

theorem State.setLastSeen_lastSeen_ne {st st' : Stream} (h : st' ≠ st) :
    (s.setLastSeen st v).lastSeen st' = s.lastSeen st' := by
  cases st <;> cases st' <;> first | rfl | exact absurd rfl h

@[simp] theorem State.setLastPower_cfg : (s.setLastPower w).cfg = s.cfg := by unfold State.setLastPower; split <;> rfl
@[simp] theorem State.setLastPower_par : (s.setLastPower w).par = s.par := by unfold State.setLastPower; split <;> rfl
@[simp] theorem State.setLastPower_inbox : (s.setLastPower w).inbox = s.inbox := by unfold State.setLastPower; split <;> rfl
@[simp] theorem State.setLastPower_clock : (s.setLastPower w).clock = s.clock := by unfold State.setLastPower; split <;> rfl
@[simp] theorem State.setLastPower_response : (s.setLastPower w).response = s.response := by
  unfold State.setLastPower; split <;> rfl
@[simp] theorem State.setLastPower_lastSeen : (s.setLastPower w).lastSeen st = s.lastSeen st := by
  unfold State.setLastPower; split <;> rfl

theorem State.setLastPower_lastPower :
    (s.setLastPower w).lastPower = if s.par.energyPrefix = .lastPower then w else s.lastPower := by
  unfold State.setLastPower; split <;> rename_i h <;> simp [h]

@[simp] theorem State.respond_cfg : (s.respond c p).cfg = s.cfg := rfl
@[simp] theorem State.respond_par : (s.respond c p).par = s.par := rfl
@[simp] theorem State.respond_lastSeenPower : (s.respond c p).lastSeenPower = s.lastSeenPower := rfl
@[simp] theorem State.respond_lastSeenEnergy : (s.respond c p).lastSeenEnergy = s.lastSeenEnergy := rfl
@[simp] theorem State.respond_lastSeen : (s.respond c p).lastSeen st = s.lastSeen st := rfl
@[simp] theorem State.respond_lastPower : (s.respond c p).lastPower = s.lastPower := rfl
@[simp] theorem State.respond_inbox : (s.respond c p).inbox = s.inbox := rfl
@[simp] theorem State.respond_clock : (s.respond c p).clock = s.clock := rfl
@[simp] theorem State.respond_response : (s.respond c p).response = some (c.code :: p) := rfl

/-- What `State.finish` does, said once: it writes the response and nothing else. -/
theorem State.finish_cases (r : Result Bytes) :
    (∃ b, r = .ok b ∧ s.finish r = s.respond .ok b) ∨ (∃ f, r = .error f ∧ s.finish r = s.respond (.fault f) []) := by
  cases r with
  | ok b => exact .inl ⟨b, rfl, rfl⟩
  | error f => exact .inr ⟨f, rfl, rfl⟩

@[simp] theorem State.commit_cfg (dt : Dt12) (snap : Snapshot) : (s.commit st dt snap).cfg = s.cfg := by
  cases st <;> simp [State.commit]
@[simp] theorem State.commit_par (dt : Dt12) (snap : Snapshot) : (s.commit st dt snap).par = s.par := by
  cases st <;> simp [State.commit]
@[simp] theorem State.commit_inbox (dt : Dt12) (snap : Snapshot) : (s.commit st dt snap).inbox = s.inbox := by
  cases st <;> simp [State.commit]
@[simp] theorem State.commit_clock (dt : Dt12) (snap : Snapshot) : (s.commit st dt snap).clock = s.clock := by
  cases st <;> simp [State.commit]
@[simp] theorem State.commit_lastSeen (dt : Dt12) (snap : Snapshot) : (s.commit st dt snap).lastSeen st = some dt := by
  cases st <;> simp [State.commit]

theorem State.commit_lastSeen_ne {st st' : Stream} (h : st' ≠ st) (dt : Dt12) (snap : Snapshot) :
    (s.commit st dt snap).lastSeen st' = s.lastSeen st' := by
  cases st <;> simp [State.commit, State.setLastSeen_lastSeen_ne _ _ h]

/-- LastPower after a commit (R200): the snapshot, for a power encode of a LAST_POWER build, and else as before. -/
theorem State.commit_lastPower (dt : Dt12) (snap : Snapshot) :
    (s.commit st dt snap).lastPower =
      if st = .power ∧ s.par.energyPrefix = .lastPower then some snap else s.lastPower := by
  cases st <;> simp [State.commit, State.setLastPower_lastPower]

@[simp] theorem State.clear_cfg : s.clear.cfg = s.cfg := by simp [State.clear]
@[simp] theorem State.clear_par : s.clear.par = s.par := by simp [State.clear]
@[simp] theorem State.clear_inbox : s.clear.inbox = s.inbox := by simp [State.clear]
@[simp] theorem State.clear_clock : s.clear.clock = s.clock := by simp [State.clear]
@[simp] theorem State.clear_lastSeen : s.clear.lastSeen st = none := by
  cases st <;> simp [State.clear, State.setLastSeen_lastSeen_ne]

/-- LastPower after `State.clear` (R210): `none` where the register exists, and else as before. -/
theorem State.clear_lastPower :
    s.clear.lastPower = if s.par.energyPrefix = .lastPower then none else s.lastPower := by
  simp [State.clear, State.setLastPower_lastPower]

/-- What `State.accept` does, said once. -/
theorem State.accept_eq_some {s s' : State} {b : Bytes} (h : s.accept = some (b, s')) :
    ∃ t rest, s.inbox = t :: rest ∧ b = t.bytes ∧ s' = { s with inbox := rest, clock := t.clock } := by
  unfold State.accept at h
  split at h
  · cases h
  · rename_i t rest hi
    cases h
    exact ⟨t, rest, hi, rfl, rfl⟩

end Sys2Proof.Machine
end

