-- ==== Sys2Proof/Laws/Operations.lean ====
section
/-! SUPPORT. For each shared operation of the units, what it answers, said once: the proofs about commands cite these and do not
unfold the operations again. -/

namespace Sys2Proof.Machine

/-- `encodeInt` answers exactly for the naturals that its bytes hold (R102, R103). -/
theorem encodeInt_ok_iff {n : Nat} {tag : Byte} {q : Rat} {b : Bytes} :
    encodeInt n tag q = .ok b ↔ ∃ v : Nat, q = v ∧ v < 2 ^ (8 * n) ∧ b = tag :: be n v := by
  have hp : (2 : Int) ^ (8 * n) = ((2 ^ (8 * n) : Nat) : Int) := by norm_cast
  unfold encodeInt
  constructor
  · intro h
    split at h
    · cases h
    · rename_i hd
      split at h
      · cases h
      · rename_i hr
        cases h
        push Not at hd hr
        rw [hp] at hr
        refine ⟨q.num.toNat, ?_, by omega, rfl⟩
        have hz : ((q.num.toNat : Int) : Rat) = (q.num : Rat) := by rw [Int.toNat_of_nonneg hr.1]
        have hq : (q.num : Rat) = q := Rat.coe_int_num_of_den_eq_one hd
        rw [← hq, ← hz]; norm_cast
  · rintro ⟨v, rfl, hv, rfl⟩
    rw [hp]
    have hv' : ((v : Int) < ((2 ^ (8 * n) : Nat) : Int)) := by exact_mod_cast hv
    simpa using hv'

/-- `encodeAscii` answers exactly for ASCII strings of at most 255 bytes (R104). -/
theorem encodeAscii_ok_iff {tag : Byte} {s b : Bytes} :
    encodeAscii tag s = .ok b ↔
      (∀ x ∈ s, x.toNat ≤ 0x7F) ∧ s.length ≤ 255 ∧ b = tag :: BitVec.ofNat 8 s.length :: s := by
  unfold encodeAscii
  split
  · rename_i h
    simp only [List.any_eq_true, decide_eq_true_eq] at h
    obtain ⟨x, hx, hlt⟩ := h
    simp only [reduceCtorEq, false_iff]
    rintro ⟨h1, -⟩
    have := h1 x hx
    omega
  · rename_i h
    simp only [List.any_eq_true, decide_eq_true_eq, not_exists, not_and, not_lt] at h
    split
    · simp only [reduceCtorEq, false_iff]; rintro ⟨-, h1, -⟩; omega
    · simp only [Except.ok.injEq]
      constructor
      · rintro rfl; exact ⟨h, by omega, rfl⟩
      · rintro ⟨-, -, rfl⟩; rfl

/-- `encodeOctet` answers exactly for the hex strings of at most 255 bytes (R105). -/
theorem encodeOctet_ok_iff {tag : Byte} {h b : Bytes} :
    encodeOctet tag h = .ok b ↔
      ∃ d, hexDecode h = some d ∧ d.length ≤ 255 ∧ b = tag :: BitVec.ofNat 8 d.length :: d := by
  unfold encodeOctet
  split
  · rename_i h0; simp [h0]
  · rename_i d h0
    simp only [h0, Option.some.injEq, exists_eq_left']
    split
    · simp only [reduceCtorEq, false_iff]; rintro ⟨h1, -⟩; omega
    · simp only [Except.ok.injEq]
      constructor
      · rintro rfl; exact ⟨by omega, rfl⟩
      · rintro ⟨-, rfl⟩; rfl

theorem encodeInt_fault {n : Nat} {tag : Byte} {q : Rat} {f : FaultCode} (h : encodeInt n tag q = .error f) :
    f = .invalidEntry := by
  unfold encodeInt at h
  split at h
  · cases h; rfl
  · split at h <;> cases h; rfl

theorem encodeAscii_fault {tag : Byte} {s : Bytes} {f : FaultCode} (h : encodeAscii tag s = .error f) : f = .invalidEntry := by
  unfold encodeAscii at h
  split at h
  · cases h; rfl
  · split at h <;> cases h; rfl

theorem encodeOctet_fault {tag : Byte} {s : Bytes} {f : FaultCode} (h : encodeOctet tag s = .error f) : f = .invalidEntry := by
  unfold encodeOctet at h
  split at h
  · cases h; rfl
  · split at h <;> cases h; rfl

/-- The only fault of the field encoder is InvalidEntry (R106, R107). -/
theorem encodeField_fault {p : Par} {e : Entry} {f : FaultCode} (h : encodeField p e = .error f) : f = .invalidEntry := by
  unfold encodeField at h
  split at h
  · split at h
    · exact encodeInt_fault h
    · cases h; rfl
  · split at h
    · split at h
      · exact encodeInt_fault h
      · cases h; rfl
    · split at h
      · split at h
        · exact encodeAscii_fault h
        · cases h; rfl
      · split at h
        · split at h
          · exact encodeOctet_fault h
          · cases h; rfl
        · cases h; rfl

/-- When the field encoder answers, the entry is one of the four typed ones and the field is its tag, its length byte if it is a
string, and its payload (R107). -/
theorem encodeField_ok {p : Par} {e : Entry} {b : Bytes} (h : encodeField p e = .ok b) :
    (∃ v : Nat, e = ⟨p.tagU32, .num v⟩ ∧ v < 2 ^ 32 ∧ b = p.tagU32 :: be 4 v) ∨
    (∃ v : Nat, e = ⟨p.tagU16, .num v⟩ ∧ p.tagU16 ≠ p.tagU32 ∧ v < 2 ^ 16 ∧ b = p.tagU16 :: be 2 v) ∨
    (∃ s, e = ⟨p.tagAscii, .str s⟩ ∧ p.tagAscii ≠ p.tagU32 ∧ p.tagAscii ≠ p.tagU16 ∧ (∀ x ∈ s, x.toNat ≤ 0x7F) ∧ s.length ≤ 255 ∧
      b = p.tagAscii :: BitVec.ofNat 8 s.length :: s) ∨
    (∃ x d, e = ⟨p.tagOctet, .hex x⟩ ∧ p.tagOctet ≠ p.tagU32 ∧ p.tagOctet ≠ p.tagU16 ∧ p.tagOctet ≠ p.tagAscii ∧
      hexDecode x = some d ∧ d.length ≤ 255 ∧ b = p.tagOctet :: BitVec.ofNat 8 d.length :: d) := by
  obtain ⟨tag, value⟩ := e
  unfold encodeField at h
  simp only at h
  split at h
  · rename_i ht; subst ht
    split at h
    · obtain ⟨v, rfl, hv, rfl⟩ := encodeInt_ok_iff.mp h
      exact .inl ⟨v, rfl, hv, rfl⟩
    · cases h
  · rename_i h1
    split at h
    · rename_i ht; subst ht
      split at h
      · obtain ⟨v, rfl, hv, rfl⟩ := encodeInt_ok_iff.mp h
        exact .inr (.inl ⟨v, rfl, h1, hv, rfl⟩)
      · cases h
    · rename_i h2
      split at h
      · rename_i ht; subst ht
        split at h
        · obtain ⟨ha, hl, rfl⟩ := encodeAscii_ok_iff.mp h
          exact .inr (.inr (.inl ⟨_, rfl, h1, h2, ha, hl, rfl⟩))
        · cases h
      · rename_i h3
        split at h
        · rename_i ht; subst ht
          split at h
          · obtain ⟨d, hd, hl, rfl⟩ := encodeOctet_ok_iff.mp h
            exact .inr (.inr (.inr ⟨_, d, rfl, h1, h2, h3, hd, hl, rfl⟩))
          · cases h
        · cases h

/-- The encoded entries, one for each entry in order (R167). -/
theorem encodeFields_ok_iff {p : Par} {snap : Snapshot} {fs : List Bytes} :
    encodeFields p snap = .ok fs ↔ List.Forall₂ (fun e b => encodeField p e = .ok b) snap fs := by
  induction snap generalizing fs with
  | nil => simp [encodeFields, eq_comm]
  | cons e es ih =>
    simp only [encodeFields]
    cases h1 : encodeField p e with
    | error f => simp [List.forall₂_cons_left_iff, h1]
    | ok b =>
      cases h2 : encodeFields p es with
      | error f =>
        simp only [reduceCtorEq, List.forall₂_cons_left_iff, h1, false_iff]
        rintro ⟨b', u, -, hu, -⟩
        have := ih.mpr hu
        rw [h2] at this
        cases this
      | ok bs =>
        simp only [Except.ok.injEq, List.forall₂_cons_left_iff, h1]
        constructor
        · rintro rfl; exact ⟨b, bs, rfl, ih.mp h2, rfl⟩
        · rintro ⟨b', u, rfl, hu, rfl⟩
          have := ih.mpr hu
          rw [h2] at this
          cases this
          rfl

theorem encodeFields_fault {p : Par} {snap : Snapshot} {f : FaultCode} (h : encodeFields p snap = .error f) :
    f = .invalidEntry := by
  induction snap with
  | nil => cases h
  | cons e es ih =>
    simp only [encodeFields] at h
    split at h
    · rename_i h1; cases h; exact encodeField_fault h1
    · split at h
      · rename_i h2; cases h; exact ih h2
      · cases h

/-- What `interp` answers, said once (R101). -/
theorem interp_ok {p : Par} {e : RawEntry} {v : Entry} (h : interp p e = .ok v) :
    v.tag = e.tag ∧
      (((e.tag = p.tagU32 ∨ e.tag = p.tagU16) ∧ ∃ q, numeral e.value = some q ∧ v.value = .num q) ∨
       (e.tag ≠ p.tagU32 ∧ e.tag ≠ p.tagU16 ∧ e.tag = p.tagAscii ∧ v.value = .str e.value) ∨
       (e.tag ≠ p.tagU32 ∧ e.tag ≠ p.tagU16 ∧ e.tag ≠ p.tagAscii ∧ e.tag = p.tagOctet ∧ v.value = .hex e.value)) := by
  unfold interp at h
  split at h
  · rename_i ht
    split at h
    · rename_i q hq; cases h; exact ⟨rfl, .inl ⟨ht, q, hq, rfl⟩⟩
    · cases h
  · rename_i ht
    push Not at ht
    split at h
    · rename_i h3; cases h; exact ⟨rfl, .inr (.inl ⟨ht.1, ht.2, h3, rfl⟩)⟩
    · rename_i h3
      split at h
      · rename_i h4; cases h; exact ⟨rfl, .inr (.inr ⟨ht.1, ht.2, h3, h4, rfl⟩)⟩
      · cases h

theorem interp_fault {p : Par} {e : RawEntry} {f : FaultCode} (h : interp p e = .error f) : f = .invalidEntry := by
  unfold interp at h
  split at h
  · split at h <;> cases h; rfl
  · split at h
    · cases h
    · split at h <;> cases h; rfl

theorem interpAll_ok_iff {p : Par} {es : List RawEntry} {vs : Snapshot} :
    interpAll p es = .ok vs ↔ List.Forall₂ (fun e v => interp p e = .ok v) es vs := by
  induction es generalizing vs with
  | nil => simp [interpAll, eq_comm]
  | cons e es ih =>
    simp only [interpAll]
    cases h1 : interp p e with
    | error f => simp [List.forall₂_cons_left_iff, h1]
    | ok b =>
      cases h2 : interpAll p es with
      | error f =>
        simp only [reduceCtorEq, List.forall₂_cons_left_iff, h1, false_iff]
        rintro ⟨b', u, -, hu, -⟩
        have := ih.mpr hu
        rw [h2] at this
        cases this
      | ok bs =>
        simp only [Except.ok.injEq, List.forall₂_cons_left_iff, h1]
        constructor
        · rintro rfl; exact ⟨b, bs, rfl, ih.mp h2, rfl⟩
        · rintro ⟨b', u, rfl, hu, rfl⟩
          have := ih.mpr hu
          rw [h2] at this
          cases this
          rfl

theorem interpAll_fault {p : Par} {es : List RawEntry} {f : FaultCode} (h : interpAll p es = .error f) : f = .invalidEntry := by
  induction es with
  | nil => cases h
  | cons e es ih =>
    simp only [interpAll] at h
    split at h
    · rename_i h1; cases h; exact interp_fault h1
    · split at h
      · rename_i h2; cases h; exact ih h2
      · cases h

/-- When `buildFrame` answers (R167): every entry encoded, the count and the length in their limits, and the four steps run. -/
theorem buildFrame_ok_iff {cfg : Cfg} {p : Par} {snap : Snapshot} {dt : Dt12} {frame : Bytes} :
    buildFrame cfg p snap dt = .ok frame ↔
      ∃ fields, encodeFields p snap = .ok fields ∧ snap.length ≤ 255 ∧ 34 + fields.flatten.length ≤ 24577 ∧
        frame = patchFcs (patchHcs (patchLength (assembleFrame cfg p dt snap.length fields.flatten))) := by
  have hb : Config.lenBase = 0xA000 := rfl
  unfold buildFrame
  split
  · rename_i f h; simp [h]
  · rename_i fields h
    simp only [h, Except.ok.injEq, exists_eq_left']
    rw [hb]
    split
    · simp only [reduceCtorEq, false_iff]; rintro ⟨h1, -⟩; omega
    · rename_i h1
      split
      · simp only [reduceCtorEq, false_iff]; rintro ⟨-, h2, -⟩; omega
      · rename_i h2
        have h3 : 34 + fields.flatten.length ≤ 24577 := by omega
        simp only [Except.ok.injEq]
        exact ⟨fun e => ⟨Nat.le_of_not_lt h1, h3, e.symm⟩, fun e => e.2.2.symm⟩

/-- The faults of `buildFrame` in their order (R167). -/
theorem buildFrame_fault {cfg : Cfg} {p : Par} {snap : Snapshot} {dt : Dt12} {f : FaultCode}
    (h : buildFrame cfg p snap dt = .error f) :
    (f = .invalidEntry ∧ ∃ g, encodeFields p snap = .error g) ∨
    (∃ fields, encodeFields p snap = .ok fields ∧
      (f = .invalidEntry ∧ 255 < snap.length ∨
        f = .frameTooLong ∧ snap.length ≤ 255 ∧ 24577 < 34 + fields.flatten.length)) := by
  have hb : Config.lenBase = 0xA000 := rfl
  unfold buildFrame at h
  split at h
  · rename_i g hg; cases h; exact .inl ⟨encodeFields_fault hg, _, hg⟩
  · rename_i fields hf
    refine .inr ⟨fields, hf, ?_⟩
    rw [hb] at h
    split at h
    · rename_i h1; cases h; exact .inl ⟨rfl, h1⟩
    · rename_i h1
      split at h
      · rename_i h2
        injection h with h
        exact .inr ⟨h.symm, by omega, by omega⟩
      · injection h

/-- What `packDatetime` answers, said once (R137). -/
theorem packDatetime_cases (p : Par) (policy : Policy) (c : Components) :
    (inRange c = true ∧ packDatetime p policy c = .ok (dtOfBytes (dtFields p.dtSuffix (roundTime policy c)))) ∨
    (inRange c = false ∧ packDatetime p policy c = .error .invalidTimestamp) := by
  unfold packDatetime
  cases h : inRange c <;> simp

theorem dtFields_length (x : BitVec 32) (c : Components) : (dtFields x c).length = 12 := by simp [dtFields, be_length]

/-- The only fault of `packTime` is InvalidTimestamp, if that is the only one of the time (R223). -/
theorem packTime_fault {p : Par} {policy : Policy} {r : Result Components} {f : FaultCode}
    (hr : ∀ g, r = .error g → g = .invalidTimestamp) (h : packTime p policy r = .error f) : f = .invalidTimestamp := by
  cases r with
  | error g => cases h; exact hr _ rfl
  | ok c =>
    simp only [packTime] at h
    rcases packDatetime_cases p policy c with ⟨-, h1⟩ | ⟨-, h1⟩ <;> rw [h1] at h <;> cases h
    rfl

theorem explicitTime_fault {p : Par} {ts : Bytes} {g : FaultCode} (h : p.explicitTime ts = .error g) : g = .invalidTimestamp := by
  unfold Par.explicitTime at h
  split at h <;> cases h
  rfl

/-- What `shouldEmit` does, said once (R150). -/
theorem shouldEmit_cases (stream : Stream) (dt : Dt12) (s : State) :
    (s.lastSeen stream = some dt ∧ shouldEmit stream dt s = (false, s)) ∨
    (s.lastSeen stream ≠ some dt ∧ shouldEmit stream dt s = (true, s.setLastSeen stream (some dt))) := by
  unfold shouldEmit
  by_cases h : s.lastSeen stream = some dt <;> simp [h]

/-- When `composeSnapshot` answers, every check of R187 has passed and the snapshot is that of the converted values. -/
theorem composeSnapshot_ok {cfg : Cfg} {p : Par} {lp : Option Snapshot} {stream : Stream} {rd : List Reading} {dt : Dt12}
    {snap : Snapshot} (h : composeSnapshot cfg p lp stream rd dt = .ok snap) :
    hasDuplicateKey rd = false ∧ ¬ (stream = .energy ∧ p.energyPrefix = .lastPower ∧ lp = none) ∧
      (∀ k ∈ requiredKeys p stream, lookup rd k ≠ none) ∧ (∀ k ∈ requiredKeys p stream, readingValue rd k ≠ none) ∧
      composeValues cfg p lp stream rd dt = .ok snap := by
  unfold composeSnapshot at h
  split at h
  · cases h
  · rename_i h1
    split at h
    · cases h
    · rename_i h2
      split at h
      · cases h
      · rename_i h3
        split at h
        · cases h
        · rename_i h4
          simp only [List.any_eq_true, Option.isNone_iff_eq_none, not_exists, not_and] at h3 h4
          exact ⟨by simpa using h1, h2, h3, h4, h⟩

/-- When `composeValues` answers, the snapshot is the one R184 to R186 give. -/
theorem composeValues_ok {cfg : Cfg} {p : Par} {lp : Option Snapshot} {stream : Stream} {rd : List Reading} {dt : Dt12}
    {snap : Snapshot} (h : composeValues cfg p lp stream rd dt = .ok snap) :
    (stream = .power ∧ ∃ v, powerValues p rd = .ok v ∧ snap = powerSnap cfg p v) ∨
    (stream = .energy ∧ p.energyPrefix = .ownInput ∧ ∃ v w, powerValues p rd = .ok v ∧ energyValues p rd = .ok w ∧
      snap = powerSnap cfg p v ++ energyTail p w dt) ∨
    (stream = .energy ∧ p.energyPrefix = .lastPower ∧ ∃ pre w, lp = some pre ∧ energyValues p rd = .ok w ∧
      snap = pre ++ energyTail p w dt) := by
  unfold composeValues at h
  split at h
  · cases hv : powerValues p rd with
    | error f => rw [hv] at h; cases h
    | ok v => rw [hv] at h; cases h; exact .inl ⟨rfl, v, rfl, rfl⟩
  · rename_i hp
    cases hv : powerValues p rd with
    | error f => rw [hv] at h; cases h
    | ok v =>
      cases hw : energyValues p rd with
      | error f => rw [hv, hw] at h; cases h
      | ok w => rw [hv, hw] at h; cases h; exact .inr (.inl ⟨rfl, hp, v, w, rfl, rfl, rfl⟩)
  · rename_i pre hp
    cases hw : energyValues p rd with
    | error f => rw [hw] at h; cases h
    | ok w => rw [hw] at h; cases h; exact .inr (.inr ⟨rfl, hp, _, w, rfl, rfl, rfl⟩)
  · cases h

/-- When `powerValues` answers, it holds the converted value of each power key (R182). -/
theorem powerValues_ok {p : Par} {rd : List Reading} {v : PowerValues} (h : powerValues p rd = .ok v) :
    converted p rd .P = .ok v.P ∧ converted p rd .PO = .ok v.PO ∧ converted p rd .Q = .ok v.Q ∧ converted p rd .QO = .ok v.QO ∧
      converted p rd .I1 = .ok v.I1 ∧ converted p rd .I2 = .ok v.I2 ∧ converted p rd .I3 = .ok v.I3 ∧
      converted p rd .U1 = .ok v.U1 ∧ converted p rd .U2 = .ok v.U2 ∧ converted p rd .U3 = .ok v.U3 := by
  unfold powerValues at h
  simp only [bind, Except.bind] at h
  repeat' (split at h; · cases h)
  cases h
  simp only [*, and_self]

/-- When `energyValues` answers, it holds the converted value of each energy key (R182). -/
theorem energyValues_ok {p : Par} {rd : List Reading} {v : EnergyValues} (h : energyValues p rd = .ok v) :
    converted p rd .tPI = .ok v.tPI ∧ converted p rd .tPO = .ok v.tPO ∧ converted p rd .tQI = .ok v.tQI ∧
      converted p rd .tQO = .ok v.tQO := by
  unfold energyValues at h
  simp only [bind, Except.bind] at h
  repeat' (split at h; · cases h)
  cases h
  simp only [*, and_self]

/-- The faults of a required reading (R180, R181, R182). -/
theorem converted_fault {p : Par} {rd : List Reading} {k : Key} {f : FaultCode} (h : converted p rd k = .error f) :
    f = .missingField ∨ f = .invalidEntry := by
  unfold converted at h
  split at h
  · cases h; exact .inl rfl
  · split at h
    · cases h; exact .inr rfl
    · unfold convert convInt at h
      split at h
      all_goals first | cases h | (split at h <;> cases h; exact .inr rfl)

/-- A fault of the power conversions is that of one of the keys (R187). -/
theorem powerValues_fault {p : Par} {rd : List Reading} {f : FaultCode} (h : powerValues p rd = .error f) :
    ∃ k ∈ powerKeys, converted p rd k = .error f := by
  unfold powerValues at h
  simp only [bind, Except.bind] at h
  repeat' (split at h; · rename_i hk; cases h; exact ⟨_, by decide, hk⟩)
  cases h

/-- The same for the energy keys. -/
theorem energyValues_fault {p : Par} {rd : List Reading} {f : FaultCode} (h : energyValues p rd = .error f) :
    ∃ k ∈ energyKeys, converted p rd k = .error f := by
  unfold energyValues at h
  simp only [bind, Except.bind] at h
  repeat' (split at h; · rename_i hk; cases h; exact ⟨_, by decide, hk⟩)
  cases h

/-- The faults of `composeValues`: an empty LastPower, or that of a conversion (R186, R187). -/
theorem composeValues_fault {cfg : Cfg} {p : Par} {lp : Option Snapshot} {stream : Stream} {rd : List Reading} {dt : Dt12}
    {f : FaultCode} (h : composeValues cfg p lp stream rd dt = .error f) :
    (f = .missingField ∧ stream = .energy ∧ p.energyPrefix = .lastPower ∧ lp = none) ∨
      ∃ k ∈ requiredKeys p stream, converted p rd k = .error f := by
  unfold composeValues at h
  simp only [bind, Except.bind] at h
  split at h
  · split at h
    · rename_i hk; cases h; exact .inr (powerValues_fault hk)
    · cases h
  · rename_i hp
    split at h
    · rename_i hk; cases h
      obtain ⟨k, h1, h2⟩ := powerValues_fault hk
      exact .inr ⟨k, by simp [requiredKeys, hp, h1], h2⟩
    · split at h
      · rename_i hk; cases h
        obtain ⟨k, h1, h2⟩ := energyValues_fault hk
        exact .inr ⟨k, by simp [requiredKeys, hp, h1], h2⟩
      · cases h
  · rename_i hp
    split at h
    · rename_i hk; cases h
      obtain ⟨k, h1, h2⟩ := energyValues_fault hk
      exact .inr ⟨k, by simp [requiredKeys, hp, h1], h2⟩
    · cases h
  · rename_i hp; cases h; exact .inl ⟨rfl, rfl, hp, rfl⟩

/-- The only faults of the composer are MissingField and InvalidEntry (R187). -/
theorem composeSnapshot_fault {cfg : Cfg} {p : Par} {lp : Option Snapshot} {stream : Stream} {rd : List Reading} {dt : Dt12}
    {f : FaultCode} (h : composeSnapshot cfg p lp stream rd dt = .error f) : f = .missingField ∨ f = .invalidEntry := by
  unfold composeSnapshot at h
  split at h
  · cases h; exact .inr rfl
  · split at h
    · cases h; exact .inl rfl
    · split at h
      · cases h; exact .inl rfl
      · split at h
        · cases h; exact .inr rfl
        · rcases composeValues_fault h with ⟨rfl, -⟩ | ⟨k, -, hk⟩
          · exact .inl rfl
          · exact converted_fault hk

/-- What COMPOSE's payload is, said once (R188). -/
theorem composePayload_cases (s : State) (stream : Stream) (dt : Dt12) (rd : List Reading) :
    (∃ f, composeSnapshot s.cfg s.par s.lastPower stream rd dt = .error f ∧ composePayload s stream dt rd = .error f) ∨
    ∃ snap, composeSnapshot s.cfg s.par s.lastPower stream rd dt = .ok snap ∧
      ((∃ rs, rawEntries snap = some rs ∧ rs.length ≤ 65535 ∧ composePayload s stream dt rd = .ok (entriesBytes rs)) ∨
       ((∀ rs, rawEntries snap = some rs → 65535 < rs.length) ∧ composePayload s stream dt rd = .error .invalidEntry)) := by
  unfold composePayload
  cases hc : composeSnapshot s.cfg s.par s.lastPower stream rd dt with
  | error f => exact .inl ⟨f, rfl, rfl⟩
  | ok snap =>
    refine .inr ⟨snap, rfl, ?_⟩
    cases hr : rawEntries snap with
    | none => exact .inr ⟨by simp, by simp [snapshotPayload, hr]⟩
    | some rs =>
      by_cases hl : rs.length ≤ 65535
      · exact .inl ⟨rs, rfl, hl, by simp [snapshotPayload, hr, hl]⟩
      · exact .inr ⟨by simpa using hl, by simp [snapshotPayload, hr, hl]⟩

/-- What an encode does, said once (R200): its fault, its suppression, or its commit. -/
theorem encodeAt_cases (stream : Stream) (time : Result Components) (rd : List Reading) (s : State) :
    (∃ f, packTime s.par (streamPolicy stream) time = .error f ∧ encodeAt stream time rd s = s.raise f) ∨
    ∃ dt, packTime s.par (streamPolicy stream) time = .ok dt ∧
      ((s.lastSeen stream = some dt ∧ encodeAt stream time rd s = s.suppress) ∨
       (s.lastSeen stream ≠ some dt ∧
        ((∃ f, composeSnapshot s.cfg s.par s.lastPower stream rd dt = .error f ∧ encodeAt stream time rd s = s.raise f) ∨
         ∃ snap, composeSnapshot s.cfg s.par s.lastPower stream rd dt = .ok snap ∧
          ((∃ f, buildFrame s.cfg s.par snap dt = .error f ∧ encodeAt stream time rd s = s.raise f) ∨
           ∃ frame, buildFrame s.cfg s.par snap dt = .ok frame ∧
            encodeAt stream time rd s = (s.commit stream dt snap).respondOk (blob frame))))) := by
  unfold encodeAt composeFrame
  cases ht : packTime s.par (streamPolicy stream) time with
  | error f => exact .inl ⟨f, rfl, rfl⟩
  | ok dt =>
    refine .inr ⟨dt, rfl, ?_⟩
    by_cases hs : s.lastSeen stream = some dt
    · exact .inl ⟨hs, by simp [hs]⟩
    · refine .inr ⟨hs, ?_⟩
      cases hc : composeSnapshot s.cfg s.par s.lastPower stream rd dt with
      | error f => exact .inl ⟨f, rfl, by simp [hs, hc]⟩
      | ok snap =>
        refine .inr ⟨snap, rfl, ?_⟩
        cases hb : buildFrame s.cfg s.par snap dt with
        | error f => exact .inl ⟨f, rfl, by simp [hs, hc, hb]⟩
        | ok frame => exact .inr ⟨frame, rfl, by simp [hs, hc, hb]⟩

end Sys2Proof.Machine
end

