-- ==== Sys2Proof/Laws/PerInstr.lean ====
section
/-! SUPPORT. Statements about every command, one lemma for each constructor of `Instr`. -/

namespace Sys2Proof.Laws

/-- R61 and R68: a command's encoding is its opcode byte, one of the ten of the table, and then its operand bytes. -/
def Opcode.Statement (i : Instr) : Prop :=
  encode i = opcode i :: operandBytes i ∧ (encode i).head? = some (opcode i) ∧
    opcode i ∈ [(0x00 : Byte), 0x10, 0x20, 0x30, 0x31, 0x40, 0x50, 0x60, 0x70, 0x71]

theorem Opcode.reset : Opcode.Statement .reset := ⟨rfl, rfl, by decide⟩

theorem Opcode.crc16 (data : Bytes) : Opcode.Statement (.crc16 data) := ⟨rfl, rfl, by simp [opcode]⟩

theorem Opcode.encField (tag : Byte) (value : Bytes) : Opcode.Statement (.encField tag value) := ⟨rfl, rfl, by simp [opcode]⟩

theorem Opcode.packDtClock (policy : Byte) : Opcode.Statement (.packDtClock policy) := ⟨rfl, rfl, by simp [opcode]⟩

theorem Opcode.packDtExplicit (policy : Byte) (ts : Bytes) : Opcode.Statement (.packDtExplicit policy ts) :=
  ⟨rfl, rfl, by simp [opcode]⟩

theorem Opcode.shouldEmit (stream : Stream) (dt : Dt12) : Opcode.Statement (.shouldEmit stream dt) := ⟨rfl, rfl, by simp [opcode]⟩

theorem Opcode.buildFrame (dt : Dt12) (ents : List RawEntry) : Opcode.Statement (.buildFrame dt ents) :=
  ⟨rfl, rfl, by simp [opcode]⟩

theorem Opcode.compose (stream : Stream) (dt : Dt12) (rd : List Reading) : Opcode.Statement (.compose stream dt rd) :=
  ⟨rfl, rfl, by simp [opcode]⟩

theorem Opcode.encodeClock (stream : Stream) (rd : List Reading) : Opcode.Statement (.encodeClock stream rd) :=
  ⟨rfl, rfl, by simp [opcode]⟩

theorem Opcode.encodeExplicit (stream : Stream) (ts : Bytes) (rd : List Reading) :
    Opcode.Statement (.encodeExplicit stream ts rd) := ⟨rfl, rfl, by simp [opcode]⟩

end Sys2Proof.Laws
end

