-- ==== Sys2Proof/Tests/Slice0.lean ====
section
/-! SUPPORT. The model's own tests: well-formedness, decoding, one step of each command on vectors of 95_test_vectors.md, and for every
statement with hypotheses a state and operands that meet them (a theorem `wit_<Name>` for `Obligations.<Name>`). -/

namespace Sys2Proof.Tests

-- One theorem at a time: the many kernel evaluations side by side would each hold a thread.
set_option Elab.async false

open Machine Safety

/-! ### The test configuration TC of 95_test_vectors.md -/

def tc : State :=
  { State.reset with
    cfg := { target := 21, source := 16, listLabel := be 10 0x544553545F5630303031,
             meterId := be 16 0x31323334353637383930313233343536, meterType := be 11 0x544553544D455445523031 } }

/-- TC in the LAST_POWER build. -/
def tcLast : State := { tc with par := { tc.par with energyPrefix := .lastPower } }

/-- 2024-03-15, weekday 5, 14:23 and the second given. -/
def at23 (second : Nat) : Components :=
  { year := 2024, month := 3, day := 15, weekday := 5, hour := 14, minute := 23, second := second }

/-- "2024-03-15 5 14:23:" and the two digits given. -/
def ts23 (digits : Nat) : Bytes := be 19 0x323032342D30332D313520352031343A32333A ++ be 2 digits

def dtP : Dt12 := 0x07E8030F050E171EFF800000
def dtE : Dt12 := 0x07E8030F050E0037FF800000
def dtB : Dt12 := 0x07E8030F050E1728FF800000

/-- The readings POW. -/
def rdPower : List Reading :=
  [⟨be 1 0x50, be 4 0x31353030⟩, ⟨be 2 0x504F, be 1 0x30⟩, ⟨be 1 0x51, be 3 0x323030⟩, ⟨be 2 0x514F, be 1 0x30⟩,
   ⟨be 2 0x4931, be 3 0x362E35⟩, ⟨be 2 0x4932, be 3 0x362E34⟩, ⟨be 2 0x4933, be 3 0x362E36⟩,
   ⟨be 2 0x5531, be 3 0x323330⟩, ⟨be 2 0x5532, be 3 0x323331⟩, ⟨be 2 0x5533, be 3 0x323239⟩]

/-- The readings T of program P5. -/
def rdTotals : List Reading :=
  [⟨be 3 0x745049, be 9 0x31323334352E363738⟩, ⟨be 3 0x74504F, be 3 0x302E35⟩, ⟨be 3 0x745149, be 2 0x3432⟩,
   ⟨be 3 0x74514F, be 5 0x302E303031⟩]

/-- The readings EN. -/
def rdEnergy : List Reading := rdPower ++ rdTotals

/-- The converted values of EN (X7, V-E2E-2). -/
def values : Key → Int
  | .P => 1500 | .PO => 0 | .Q => 200 | .QO => 0 | .I1 => 650 | .I2 => 640 | .I3 => 660 | .U1 => 230 | .U2 => 231 | .U3 => 229
  | .tPI => 12345678 | .tPO => 500 | .tQI => 42000 | .tQO => 1

/-- The frame of V-E2E-1. -/
def frameP : Bytes :=
  be 32 0x7EA0D72B211386B8E6E7000F000000000C07E8030F050E171EFF80000002190A ++
  be 32 0x0A544553545F563030303109060101000005FF0A103132333435363738393031 ++
  be 32 0x323334353609060101600101FF0A0B544553544D455445523031090601010107 ++
  be 32 0x00FF06000005DC09060101020700FF060000000009060101030700FF06000000 ++
  be 32 0xC809060101040700FF0600000000090601011F0700FF060000028A0906010133 ++
  be 32 0x0700FF060000028009060101470700FF060000029409060101200700FF1200E6 ++
  be 25 0x09060101340700FF1200E709060101480700FF1200E5EFA47E

/-- The frame of V-E2E-2. -/
def frameE : Bytes :=
  be 31 0x7EA1212B2113738FE6E7000F000000000C07E8030F050E0037FF8000000223 ++ slice frameP 31 214 ++
  be 32 0x09060001010000FF090C07E8030F050E0037FF80000009060101010800FF0600 ++
  be 32 0xBC614E09060101020800FF06000001F409060101030800FF060000A410090601 ++
  be 13 0x01040800FF060000000109E57E

/-! ### Helpers -/

/-- `s` with one transaction on the port. -/
def port (s : State) (c : Bytes) (k : Components) : State := { s with inbox := [⟨c, k⟩] }

/-- The state after one step. -/
def after (s : State) : Option State :=
  match step s with
  | .next t => some t
  | _ => none

/-- The response to one command, with the clock at 14:23:37. -/
def answer (s : State) (c : Bytes) : Option Bytes := (after (port s c (at23 37))).bind State.response

/-- The state after one command given to `exec`. -/
def run (i : Instr) (s : State) : State :=
  match exec i s with
  | .next t => t
  | _ => s

theorem exec_run (i : Instr) (s : State) : exec i s = .next (run i s) := by
  cases i <;> simp only [run, exec, execReset, execCrc16, execEncField, execPackDtClock, execPackDtExplicit, execBuildFrame,
    execCompose, execEncodeClock, execEncodeExplicit]
  unfold execShouldEmit
  split <;> rfl

/-- The frame in the response of a state whose last command answered OK with a blob. -/
def frameOf (s : State) : Bytes := (s.response.getD []).drop 3

/-- What `decode` answered was an error. -/
def rejected (c : Bytes) : Bool :=
  match decode c with
  | .error _ => true
  | .ok _ => false

/-! ### Well-formedness: each check refuses a term just past its limit (R62) -/

/-- A blob of `n` zero bytes. -/
def zeros (n : Nat) : Bytes := List.replicate n 0

theorem blobOk_zeros (n : Nat) : blobOk (zeros n) = decide (n ≤ 65535) := by simp [blobOk, zeros]

theorem readingsOk_empty (n : Nat) : readingsOk (List.replicate n ⟨[], []⟩) = decide (n ≤ 255) := by
  simp [readingsOk, blobOk]

theorem entriesOk_empty (n : Nat) : entriesOk (List.replicate n ⟨0, []⟩) = decide (n ≤ 65535) := by
  simp [entriesOk, blobOk]

theorem test_blob_limit_accepted : (Instr.crc16 (zeros 65535)).wellFormed = true := by
  rw [Instr.wellFormed, blobOk_zeros]; rfl

theorem test_blob_limit_refused : (Instr.crc16 (zeros 65536)).wellFormed = false := by
  rw [Instr.wellFormed, blobOk_zeros]; rfl

theorem test_encField_value_refused : (Instr.encField 0x06 (zeros 65536)).wellFormed = false := by
  rw [Instr.wellFormed, blobOk_zeros]; rfl

theorem test_packDtExplicit_ts_refused : (Instr.packDtExplicit 0 (zeros 65536)).wellFormed = false := by
  rw [Instr.wellFormed, blobOk_zeros]; rfl

theorem test_entries_limit :
    (Instr.buildFrame 0 (List.replicate 65535 ⟨0, []⟩)).wellFormed = true ∧
    (Instr.buildFrame 0 (List.replicate 65536 ⟨0, []⟩)).wellFormed = false := by
  constructor <;> (rw [Instr.wellFormed, entriesOk_empty]; rfl)

theorem test_entry_value_refused : (Instr.buildFrame 0 [⟨0, zeros 65536⟩]).wellFormed = false := by
  simp only [Instr.wellFormed, entriesOk, List.all_cons, blobOk_zeros]; rfl

theorem test_readings_limit :
    (Instr.compose .power 0 (List.replicate 255 ⟨[], []⟩)).wellFormed = true ∧
    (Instr.compose .power 0 (List.replicate 256 ⟨[], []⟩)).wellFormed = false := by
  constructor <;> (rw [Instr.wellFormed, readingsOk_empty]; rfl)

theorem test_reading_key_refused : (Instr.encodeClock .power [⟨zeros 65536, []⟩]).wellFormed = false := by
  simp only [Instr.wellFormed, readingsOk, List.all_cons, blobOk_zeros]; rfl

theorem test_reading_value_refused : (Instr.encodeClock .power [⟨[], zeros 65536⟩]).wellFormed = false := by
  simp only [Instr.wellFormed, readingsOk, List.all_cons, blobOk_zeros]; rfl

theorem test_encodeExplicit_ts_refused : (Instr.encodeExplicit .power (zeros 65536) []).wellFormed = false := by
  rw [Instr.wellFormed, blobOk_zeros]; rfl

theorem test_encodeExplicit_readings_refused :
    (Instr.encodeExplicit .power [] (List.replicate 256 ⟨[], []⟩)).wellFormed = false := by
  rw [Instr.wellFormed, readingsOk_empty]; rfl

/-! ### Decoding: each command's bytes written out from R68 and R69 -/

theorem test_decode_reset : decode [0x00] = .ok .reset := rfl

theorem test_decode_crc16 : decode [0x10, 0x00, 0x02, 0xA0, 0x20] = .ok (.crc16 [0xA0, 0x20]) := rfl

theorem test_decode_encField : decode [0x20, 0x12, 0x00, 0x03, 0x32, 0x33, 0x30] = .ok (.encField 0x12 [0x32, 0x33, 0x30]) := rfl

theorem test_decode_packDtClock : decode [0x30, 0xFF] = .ok (.packDtClock 0xFF) := rfl

theorem test_decode_packDtExplicit : decode [0x31, 0x02, 0x00, 0x01, 0x37] = .ok (.packDtExplicit 0x02 [0x37]) := rfl

theorem test_decode_shouldEmit :
    decode [0x40, 0x01, 0x07, 0xE8, 0x03, 0x0F, 0x05, 0x0E, 0x17, 0x1E, 0xFF, 0x80, 0x00, 0x01] =
      .ok (.shouldEmit .energy 0x07E8030F050E171EFF800001) := rfl

theorem test_decode_buildFrame :
    decode [0x50, 0x07, 0xE8, 0x03, 0x0F, 0x05, 0x0E, 0x17, 0x1E, 0xFF, 0x80, 0x00, 0x00, 0x00, 0x02, 0x0A, 0x00, 0x00,
      0x06, 0x00, 0x01, 0x37] = .ok (.buildFrame dtP [⟨0x0A, []⟩, ⟨0x06, [0x37]⟩]) := rfl

theorem test_decode_compose :
    decode [0x60, 0x00, 0x07, 0xE8, 0x03, 0x0F, 0x05, 0x0E, 0x17, 0x1E, 0xFF, 0x80, 0x00, 0x00, 0x01, 0x00, 0x02, 0x50, 0x4F,
      0x00, 0x01, 0x30] = .ok (.compose .power dtP [⟨[0x50, 0x4F], [0x30]⟩]) := rfl

theorem test_decode_encodeClock : decode [0x70, 0x00, 0x01, 0x00, 0x01, 0x50, 0x00, 0x01, 0x35] =
    .ok (.encodeClock .power [⟨[0x50], [0x35]⟩]) := rfl

theorem test_decode_encodeExplicit : decode [0x71, 0x01, 0x00, 0x02, 0x31, 0x32, 0x01, 0x00, 0x01, 0x51, 0x00, 0x00] =
    .ok (.encodeExplicit .energy [0x31, 0x32] [⟨[0x51], []⟩]) := rfl

/-- V-CTL-2 to V-CTL-7, V-CRC-10 to V-CRC-12, V-SE-9: the decoder rejects, by name. -/
theorem test_decode_rejects :
    decode [] = .error .emptyCommand ∧ decode [0x11] = .error (.reservedOpcode 0x11) ∧
    decode [0x72] = .error (.reservedOpcode 0x72) ∧ decode [0x00, 0x00] = .error (.surplusBytes 1) ∧
    decode [0x10, 0x00] = .error .truncated ∧ decode [0x10, 0x00, 0x05, 0x31] = .error .truncated ∧
    decode [0x10, 0x00, 0x01, 0x00, 0x00] = .error (.surplusBytes 1) ∧ decode [0x70, 0x02, 0x00] = .error (.badStream 0x02) ∧
    decode [0x70, 0x00] = .error .truncated ∧ decode [0x71, 0x00, 0x00, 0x05, 0x31] = .error .truncated :=
  ⟨rfl, rfl, rfl, rfl, rfl, rfl, rfl, rfl, rfl, rfl⟩

/-- The table gives each row its opcode byte; the other operand bytes are zero. -/
theorem test_decodeTableWord :
    decodeTableWord 8 0x00 = some .reset ∧ decodeTableWord 8 0x10 = some (.crc16 []) ∧
    decodeTableWord 8 0x20 = some (.encField 0 []) ∧ decodeTableWord 8 0x30 = some (.packDtClock 0) ∧
    decodeTableWord 8 0x31 = some (.packDtExplicit 0 []) ∧ decodeTableWord 8 0x40 = some (.shouldEmit .power 0) ∧
    decodeTableWord 8 0x50 = some (.buildFrame 0 []) ∧ decodeTableWord 8 0x60 = some (.compose .power 0 []) ∧
    decodeTableWord 8 0x70 = some (.encodeClock .power []) ∧ decodeTableWord 8 0x71 = some (.encodeExplicit .power [] []) ∧
    decodeTableWord 8 0x01 = none := by decide +kernel

/-- The first step after reset with a table word placed runs that command: ENC_FIELD of tag 0 faults with InvalidEntry. -/
theorem test_withFetchWord :
    (after (State.reset.withFetchWord 8 0x20)).bind State.response = some [0x82] ∧
    (after (State.reset.withFetchWord 8 0x10)).bind State.response = some [0x00, 0x00, 0x00] := by decide +kernel

/-! ### One step of each command -/

/-- V-CTL-1. -/
theorem test_reset : (after (port { tc with lastSeenPower := some dtP, lastSeenEnergy := some dtE } [0x00] (at23 37))) =
    some { tc with clock := at23 37, response := some [0x00] } := by decide +kernel

/-- P5 step 6: RESET in the LAST_POWER build. -/
theorem test_reset_lastPower : (run .reset { tcLast with lastPower := some [] }).lastPower = none := by decide +kernel

/-- V-CRC-1. -/
theorem test_crc16_check : answer tc (0x10 :: blob (be 9 0x313233343536373839)) = some [0x00, 0x6E, 0x90] := by decide +kernel

/-- V-CRC-2. -/
theorem test_crc16_empty : answer tc [0x10, 0x00, 0x00] = some [0x00, 0x00, 0x00] := by decide +kernel

/-- V-FLD-3 and V-FLD-4. -/
theorem test_encField_u32_limit :
    answer tc (0x20 :: 0x06 :: blob (be 10 0x34323934393637323935)) = some [0x00, 0x00, 0x05, 0x06, 0xFF, 0xFF, 0xFF, 0xFF] ∧
    answer tc (0x20 :: 0x06 :: blob (be 10 0x34323934393637323936)) = some [0x82] := by decide +kernel

/-- V-FLD-22 and V-FLD-24. -/
theorem test_encField_octet :
    answer tc [0x20, 0x09, 0x00, 0x04, 0x30, 0x61, 0x30, 0x42] = some [0x00, 0x00, 0x04, 0x09, 0x02, 0x0A, 0x0B] ∧
    answer tc [0x20, 0x09, 0x00, 0x03, 0x41, 0x42, 0x43] = some [0x82] := by decide +kernel

/-- V-DT-20 and V-DT-26. -/
theorem test_packDtClock :
    (after (port tc [0x30, 0x00] (at23 37))).bind State.response = some (0x00 :: be 12 0x07E8030F050E171EFF800000) ∧
    (after (port tc [0x30, 0x02] ⟨0, 0, 0, 0, 0, 0, 0⟩)).bind State.response = some (0x00 :: be 12 0x37FF800000) := by decide +kernel

/-- V-DT-25: the range check comes before the rounding. -/
theorem test_packDtClock_range :
    (after (port tc [0x30, 0x01] { at23 0 with minute := 300 })).bind State.response = some [0x83] := by decide +kernel

/-- V-DT-1 and V-DT-3. -/
theorem test_packDtExplicit :
    answer tc (0x31 :: 0x00 :: blob (ts23 0x3337)) = some (0x00 :: be 12 0x07E8030F050E171EFF800000) ∧
    answer tc (0x31 :: 0xFF :: blob (ts23 0x3337)) = some (0x00 :: be 12 0x07E8030F050E0037FF800000) := by decide +kernel

/-- V-DT-14 and V-DT-17 (with "x" around the first and the last run). -/
theorem test_packDtExplicit_runs :
    answer tc [0x31, 0x00, 0x00, 0x00] = some [0x83] ∧
    answer tc (0x31 :: 0x00 :: blob (0x78 :: ts23 0x3337 ++ [0x78])) = some (0x00 :: be 12 0x07E8030F050E171EFF800000) := by
  decide +kernel

/-- V-SE-1 and V-SE-2. -/
theorem test_shouldEmit_twice :
    run (.shouldEmit .power dtP) tc = { tc with lastSeenPower := some dtP, response := some [0x00, 0x01] } ∧
    (run (.shouldEmit .power dtP) (run (.shouldEmit .power dtP) tc)).response = some [0x00, 0x00] := by decide +kernel

/-- V-SE-5 and V-SE-7. -/
theorem test_shouldEmit_streams_and_suffix :
    (run (.shouldEmit .energy dtP) { tc with lastSeenPower := some dtP }).response = some [0x00, 0x01] ∧
    (run (.shouldEmit .power 0x07E8030F050E171E00000000) { tc with lastSeenPower := some dtP }).response = some [0x00, 0x01] := by
  decide +kernel

/-- V-FB-3. -/
theorem test_buildFrame :
    frameOf (run (.buildFrame dtP [⟨0x09, be 12 0x303130313031303730304646⟩, ⟨0x06, be 4 0x31353030⟩]) tc) =
      be 32 0x7EA02D2B21130313E6E7000F000000000C07E8030F050E171EFF800000020209 ++ be 15 0x060101010700FF06000005DC291B7E := by
  decide +kernel

/-- V-FB-6 with the largest address, and V-FB-5a. -/
theorem test_buildFrame_address_and_fault :
    frameOf (run (.buildFrame dtP []) { tc with cfg := { tc.cfg with target := 127, source := 127 } }) =
      be 34 0x7EA020FFFF13C9B1E6E7000F000000000C07E8030F050E171EFF80000002005B147E ∧
    (run (.buildFrame dtP [⟨0x06, be 4 0x31353030⟩, ⟨0x06, [0x78]⟩]) tc).response = some [0x82] := by decide +kernel

/-- V-CMP-1, its entries 15 and 21 (at their offsets in the payload), and V-CMP-17. -/
theorem test_compose_power :
    (run (.compose .power dtP rdPower) tc).response.map List.length = some 286 ∧
    slice ((run (.compose .power dtP rdPower) tc).response.getD []) 1 16 = be 15 0x00190A000A544553545F5630303031 ∧
    (run (.compose .power dtP (⟨[0x70], [0x30]⟩ :: rdPower.tail)) tc).response = some [0x81] := by decide +kernel

/-- V-CMP-18: the count and the last entry; V-CMP-19. -/
theorem test_compose_energy :
    slice ((run (.compose .energy dtE rdEnergy) tc).response.getD []) 0 3 = [0x00, 0x00, 0x23] ∧
    ((run (.compose .energy dtE rdEnergy) tc).response.getD []).reverse.take 4 = [0x31, 0x01, 0x00, 0x06] ∧
    (run (.compose .energy dtE rdPower) tc).response = some [0x81] := by decide +kernel

set_option maxRecDepth 20000 in
/-- V-E2E-1 with the clock source: the frame and the table entry. -/
theorem test_encodeClock :
    run (.encodeClock .power rdPower) { tc with clock := at23 37 } =
      { tc with clock := at23 37, lastSeenPower := some dtP, response := some (0x00 :: 0x00 :: 0xD9 :: frameP) } := by
  decide +kernel

/-- V-ENC-3 and V-ENC-4. -/
theorem test_encodeClock_suppressed_and_fault :
    (run (.encodeClock .power rdPower) { tc with clock := at23 39, lastSeenPower := some dtP }).response = some [0x01] ∧
    (run (.encodeClock .power rdPower) { tc with clock := { at23 39 with year := 65536 } }).response = some [0x83] := by
  decide +kernel

set_option maxRecDepth 20000 in
/-- V-E2E-2. -/
theorem test_encodeExplicit_energy :
    run (.encodeExplicit .energy (ts23 0x3337) rdEnergy) tc =
      { tc with lastSeenEnergy := some dtE, response := some (0x00 :: 0x01 :: 0x23 :: frameE) } := by decide +kernel

set_option maxRecDepth 20000 in
/-- P5 steps 3 and 5: the LAST_POWER build gives the same frame; P2 step 6: a fault writes nothing. -/
theorem test_encodeExplicit_lastPower_and_fault :
    frameOf (run (.encodeExplicit .energy (ts23 0x3337) rdTotals) (run (.encodeExplicit .power (ts23 0x3337) rdPower) tcLast)) =
      frameE ∧
    run (.encodeExplicit .power (ts23 0x3530) (rdPower.take 9)) { tc with lastSeenPower := some dtB } =
      { tc with lastSeenPower := some dtB, response := some [0x81] } := by decide +kernel

/-- The examples of R74 and R75. -/
theorem test_assemble :
    assemble Par.default .CRC16 [.blob (.quoted (be 9 0x313233343536373839))] = some (be 12 0x100009313233343536373839) ∧
    assemble Par.default .SHOULD_EMIT [.name .power, .blob (.hex (be 24 0x303745383033304630353045313731454646383030303030))] =
      some (be 14 0x400007E8030F050E171EFF800000) ∧
    assemble Par.default .ENC_U32 [.blob (.quoted (be 4 0x31353030))] = some (be 8 0x2006000431353030) := by decide +kernel

/-! ### Witnesses: states and operands that meet the hypotheses of the statements, clause by clause -/

theorem constructed_tc : tc.constructed = true := by decide +kernel

theorem inv_tc : Inv tc := ⟨constructed_tc, fun _ => rfl, by intro _ h; cases h⟩

theorem ok_of_toOption {α : Type} {r : Result α} (h : r.toOption.isSome = true) : ∃ v, r = .ok v := by
  cases r with
  | error => cases h
  | ok v => exact ⟨v, rfl⟩

/-- TC in the LAST_POWER build, holding the snapshot of POW (P5 after step 3). -/
def tcHeld : State := { tcLast with lastPower := some (powerSnap tc.cfg tc.par (powerValuesOf values)) }

set_option maxRecDepth 20000 in
theorem inv_tcHeld : Inv tcHeld :=
  ⟨by decide +kernel, (by intro h; cases h), by
    intro snap h
    cases h
    exact ⟨⟨powerValuesOf values, rfl⟩, ok_of_toOption (by decide +kernel)⟩⟩

theorem next_of_after {s : State} (h : (after s).isSome = true) : ∃ t, step s = .next t := by
  unfold after at h
  split at h
  · exact ⟨_, ‹_›⟩
  · cases h

/-- The condition `passes` of the statement, at the largest Cfg and just past each limit. -/
def topIdentity : MeterIdentity :=
  { target := 127, source := 127, listLabel := List.replicate 255 0x7F, meterId := [], meterType := [0x00] }

def passes (m : MeterIdentity) (p : Par) : Prop :=
  m.target ≤ 127 ∧ m.source ≤ 127 ∧ (∀ b ∈ [m.listLabel, m.meterId, m.meterType], b.length ≤ 255 ∧ ∀ x ∈ b, x.toNat ≤ 0x7F) ∧
    [p.tagU32, p.tagU16, p.tagAscii, p.tagOctet].Nodup

theorem wit_ConstructionChecksThenLoads :
    passes topIdentity Par.default ∧ ¬ passes { topIdentity with target := 128 } Par.default ∧
    ¬ passes { topIdentity with source := 128 } Par.default ∧
    ¬ passes { topIdentity with meterId := List.replicate 256 0x41 } Par.default ∧
    ¬ passes { topIdentity with meterType := [0x80] } Par.default ∧
    ¬ passes topIdentity { Par.default with tagOctet := 0x06 } := by
  unfold passes; decide +kernel

theorem wit_StepRunsTheDecodedCommand :
    ∃ (s : State) (t : Transaction) (rest : List Transaction) (i : Instr),
      s.constructed = true ∧ s.inbox = t :: rest ∧ decode t.bytes = .ok i :=
  ⟨port tc [0x30, 0x01] (at23 37), ⟨[0x30, 0x01], at23 37⟩, [], .packDtClock 0x01, by decide +kernel, rfl, rfl⟩

theorem wit_IdleStepKeepsTheState : ∃ s : State, s.constructed = true ∧ s.inbox = [] := ⟨tc, constructed_tc, rfl⟩

theorem wit_StepOfAConstructedBlockGoesOn : ∃ s : State, s.constructed = true := ⟨State.reset, by decide⟩

/-- The first and the last reserved opcode. -/
theorem wit_ReservedOpcodesAreIllegal :
    ∃ (s : State) (t u : Transaction) (op op' : Byte) (bs : Bytes), s.constructed = true ∧ s.inbox = [t, u] ∧
      t.bytes = op :: bs ∧ 0x01 ≤ op.toNat ∧ op.toNat ≤ 0x0F ∧ u.bytes = op' :: bs ∧ 0x72 ≤ op'.toNat ∧ op'.toNat ≤ 0xFF :=
  ⟨{ tc with inbox := [⟨[0x01], at23 0⟩, ⟨[0xFF], at23 0⟩] }, ⟨[0x01], at23 0⟩, ⟨[0xFF], at23 0⟩, 0x01, 0xFF, [],
    by decide +kernel, rfl, rfl, by decide, by decide, rfl, by decide, by decide⟩

theorem wit_MalformedCommandsAreIllegal :
    (port tc [] (at23 0)).constructed = true ∧
    ((Instr.crc16 [0x31]).wellFormed = true ∧ 0 < (encode (.crc16 [0x31])).length ∧
      [0x10, 0x00, 0x01] = (encode (.crc16 [0x31])).take 3 ∧ 3 < (encode (.crc16 [0x31])).length) ∧
    (∃ e, decode [0x50, 0x07] = .error e) ∧ [0x10, 0x00, 0x00, 0x00] = encode (.crc16 []) ++ [0x00] ∧
    (∃ (op b : Byte) (r : Bytes), op ∈ [(0x40 : Byte), 0x60, 0x70, 0x71] ∧ b ≠ 0x00 ∧ b ≠ 0x01 ∧ [0x70, 0x02, 0x00] = op :: b :: r) :=
  ⟨by decide +kernel, by decide, ⟨.truncated, rfl⟩, by decide, 0x70, 0x02, [0x00], by decide, by decide, by decide, rfl⟩

theorem wit_DecodeUndoesEncode : ∃ i : Instr, i.wellFormed = true ∧ i = .compose .energy dtE rdEnergy := ⟨_, by decide, rfl⟩

theorem wit_EncodeUndoesDecode : ∃ (c : Bytes) (i : Instr), decode c = .ok i := ⟨[0x30, 0x7F], .packDtClock 0x7F, rfl⟩

theorem wit_StepKeepsTheInvariant : ∃ s t : State, Inv s ∧ s.lastPower ≠ none ∧ step s = .next t :=
  have ⟨t, h⟩ := next_of_after (s := tcHeld) (by decide +kernel)
  ⟨tcHeld, t, inv_tcHeld, by decide +kernel, h⟩

theorem wit_ConstructionGivesTheInvariant : ∃ s : State, construct topIdentity Par.default = .next s ∧ s.cfg.target = 127 := by
  unfold construct
  rw [if_pos (by decide +kernel)]
  exact ⟨_, rfl, rfl⟩

theorem wit_FaultsAndSuppressionsWriteNoState :
    (run (.encField 0x00 []) tc).response = some [0x82] ∧ exec (.encField 0x00 []) tc = .next (run (.encField 0x00 []) tc) ∧
    (run (.encodeClock .power []) { tc with clock := at23 37, lastSeenPower := some dtP }).response = some [0x01] :=
  ⟨by decide +kernel, exec_run _ _, by decide +kernel⟩

theorem wit_LastSeenHasThreeWriters :
    (run .reset { tc with lastSeenEnergy := some dtE }).lastSeen .energy ≠ some dtE ∧
    (run (.shouldEmit .power dtP) tc).lastSeen .power ≠ tc.lastSeen .power ∧
    (run (.encodeExplicit .power (ts23 0x3337) rdPower) tc).lastSeen .power ≠ tc.lastSeen .power := by decide +kernel

theorem wit_LastPowerHasTwoWriters :
    (run .reset tcHeld).lastPower ≠ tcHeld.lastPower ∧
    (run (.encodeExplicit .power (ts23 0x3337) rdPower) tcLast).lastPower ≠ tcLast.lastPower := by decide +kernel

theorem wit_StreamsAreIndependent :
    Stream.energy ≠ Stream.power ∧ isEncode .power (.encodeClock .power rdPower) ∧
    (∃ dt, Instr.shouldEmit .power dtP = .shouldEmit .power dt) := ⟨by decide, rfl, dtP, rfl⟩

/-- Two states that differ and agree in what each clause asks. -/
theorem wit_PureCommandsReadAndWriteOnlyWhatTheTableSays :
    ∃ s u : State, s ≠ u ∧ s.par = u.par ∧ s.clock = u.clock ∧ s.cfg = u.cfg ∧ s.par.energyPrefix = .lastPower ∧
      s.lastPower = u.lastPower := ⟨tcHeld, { tcHeld with lastSeenPower := some dtP }, by decide +kernel, rfl, rfl, rfl, rfl, rfl⟩

theorem wit_ResetCommandIsConstruction : ∃ s : State, Inv s ∧ s.lastPower ≠ none := ⟨tcHeld, inv_tcHeld, by decide +kernel⟩

theorem numeral_unique {raw : Bytes} {a : Nat} (h : numeral raw = some (a : Rat)) (v : Nat) (hv : numeral raw = some (v : Rat)) :
    v = a := by
  have := Option.some.inj (hv.symm.trans h)
  exact_mod_cast this

/-- The largest values, the least that is too large, and a string that is no numeral. -/
theorem wit_EncFieldPacksIntegers :
    tc.par.ok = true ∧ tc.par.tagU32 = 0x06 ∧ tc.par.tagU16 = 0x12 ∧
    (numeral (be 10 0x34323934393637323935) = some ((4294967295 : Nat) : Rat) ∧ 4294967295 < 2 ^ (8 * 4)) ∧
    (∀ v : Nat, numeral (be 10 0x34323934393637323936) = some (v : Rat) → 2 ^ (8 * 4) ≤ v) ∧
    (numeral (be 5 0x3635353335) = some ((65535 : Nat) : Rat) ∧ 65535 < 2 ^ (8 * 2)) ∧
    (∀ v : Nat, numeral (be 5 0x3635353336) = some (v : Rat) → 2 ^ (8 * 2) ≤ v) ∧
    (∀ v : Nat, numeral [] = some (v : Rat) → 2 ^ (8 * 4) ≤ v) := by
  refine ⟨by decide +kernel, rfl, rfl, ⟨by decide +kernel, by decide⟩, ?_, ⟨by decide +kernel, by decide⟩, ?_, ?_⟩
  · intro v hv
    have h : numeral (be 10 0x34323934393637323936) = some ((4294967296 : Nat) : Rat) := by decide +kernel
    exact (numeral_unique h v hv).ge
  · intro v hv
    have h : numeral (be 5 0x3635353336) = some ((65536 : Nat) : Rat) := by decide +kernel
    exact (numeral_unique h v hv).ge
  · intro v hv; cases hv

theorem wit_EncFieldPacksAscii :
    tc.par.ok = true ∧
    (∃ b : Bytes, (∀ x ∈ b, x.toNat ≤ 0x7F) ∧ b.length = 255 ∧ 0x7F ∈ b) ∧
    (∃ b : Bytes, 255 < b.length ∧ b.length = 256) ∧ (∃ b : Bytes, ∃ x ∈ b, 0x7F < x.toNat) := by
  refine ⟨by decide +kernel, ⟨List.replicate 255 0x7F, by decide +kernel, by decide +kernel, by decide +kernel⟩,
    ⟨List.replicate 256 0x41, by decide +kernel, by decide +kernel⟩, ⟨[0x80], 0x80, by decide, by decide⟩⟩

/-- The longest string, in digits of each range, and one just past each limit. -/
theorem wit_EncFieldPacksOctets :
    tc.par.ok = true ∧
    (∃ h : Bytes, h.length % 2 = 0 ∧ (∀ x ∈ h, (0x30 ≤ x.toNat ∧ x.toNat ≤ 0x39) ∨ (0x41 ≤ x.toNat ∧ x.toNat ≤ 0x46) ∨
      (0x61 ≤ x.toNat ∧ x.toNat ≤ 0x66)) ∧ h.length = 510 ∧ 0x66 ∈ h ∧ 0x41 ∈ h ∧ 0x39 ∈ h) ∧
    (∃ h : Bytes, h.length % 2 = 1) ∧ (∃ h : Bytes, ∃ x ∈ h, x.toNat = 0x47) ∧ (∃ h : Bytes, 510 < h.length ∧ h.length = 511) :=
  ⟨by decide +kernel, ⟨[0x66, 0x41] ++ List.replicate 508 0x39, by decide +kernel, by decide +kernel, by decide +kernel,
    by decide +kernel, by decide +kernel, by decide +kernel⟩, ⟨[0x30], rfl⟩,
    ⟨[0x30, 0x47], 0x47, by decide, rfl⟩, ⟨List.replicate 511 0x30, by decide +kernel, by decide +kernel⟩⟩

theorem wit_UnknownTagsAreRefused :
    (0x02 : Byte) ∉ [tc.par.tagU32, tc.par.tagU16, tc.par.tagAscii, tc.par.tagOctet] ∧
    (⟨0x02, [0x31]⟩ : RawEntry) ∈ [(⟨0x06, [0x37]⟩ : RawEntry), ⟨0x02, [0x31]⟩] := by decide

/-- The largest components that fit, and a year and a minute just past their fields. -/
theorem wit_PackDtClockQuantizesTheDraw :
    inRange ⟨65535, 255, 255, 255, 255, 255, 255⟩ = true ∧ inRange ⟨65536, 0, 0, 0, 0, 0, 0⟩ = false ∧
    inRange ⟨0, 0, 0, 0, 0, 256, 0⟩ = false ∧ (0x01 : Byte) ≠ 0x00 ∧ (0xFF : Byte) ≠ 0x00 := by decide

/-- V-DT-1, V-DT-11 ("65536 1 1 1 0 0 0") and V-DT-14. -/
theorem wit_PackDtExplicitQuantizesTheString :
    tc.par.parseTs (ts23 0x3337) = some (at23 37) ∧ inRange (at23 37) = true ∧
    tc.par.parseTs (be 17 0x3635353336203120312031203020302030) = some ⟨65536, 1, 1, 1, 0, 0, 0⟩ ∧
    inRange ⟨65536, 1, 1, 1, 0, 0, 0⟩ = false ∧ tc.par.parseTs [] = none := by decide +kernel

theorem wit_DefaultParserTakesSevenRuns :
    ∃ (p : Par) (parts : List (Bytes × Bytes)), p.tsParse = .digitRuns ∧ spelled parts [0x78] ∧
      parts.map (fun x => digitsVal x.2) = [10, 2, 3, 4, 5, 6, 7] ∧ spelled parts.tail [] ∧ parts.tail.length ≠ 7 := by
  refine ⟨Par.default, [([], [0x31, 0x30]), ([0x20], [0x32]), ([0x2D], [0x33]), ([0x20], [0x34]), ([0x20], [0x35]), ([0x3A], [0x36]),
    ([0x3A], [0x37])], rfl, ?_, by decide, ?_, by decide⟩ <;> (unfold spelled; decide)

theorem wit_RoundingBucketsAreTheOnlyCollisions :
    ∃ a b : Components, inRange a = true ∧ inRange b = true ∧ a ≠ b ∧ a.second / 10 = b.second / 10 :=
  ⟨⟨65535, 255, 255, 255, 255, 255, 250⟩, ⟨65535, 255, 255, 255, 255, 255, 255⟩, by decide, by decide, by decide, by decide⟩

theorem wit_ShouldEmitChecksAndRecords :
    ({ tc with lastSeenPower := some dtP } : State).lastSeenPower = some dtP ∧ tc.lastSeenPower ≠ some dtP ∧
    ({ tc with lastSeenEnergy := some dtP } : State).lastSeenEnergy = some dtP ∧ tc.lastSeenEnergy ≠ some dtP := by decide

theorem wit_OnlyTheLastValueIsKept : Stream.energy ≠ Stream.power ∧ dtP ≠ dtB := by decide

/-- `n` entries of `k` letters A, the ASCII tag. -/
def asciiEntries (n k : Nat) : List RawEntry := List.replicate n ⟨0x0A, List.replicate k 0x41⟩

/-- Their fields. -/
def asciiFields (n k : Nat) : List Bytes := List.replicate n (0x0A :: BitVec.ofNat 8 k :: List.replicate k 0x41)

theorem asciiFields_encode (n : Nat) {k : Nat} (h : encFieldBytes tc.par ⟨0x0A, List.replicate k 0x41⟩ =
      .ok (0x0A :: BitVec.ofNat 8 k :: List.replicate k 0x41)) :
    List.Forall₂ (fun e b => encFieldBytes tc.par e = .ok b) (asciiEntries n k) (asciiFields n k) := by
  induction n with
  | zero => exact .nil
  | succ n ih => exact .cons h ih

theorem asciiFields_length (n k : Nat) : (asciiFields n k).flatten.length = n * (k + 2) := by
  simp [asciiFields]

/-- V-FB-9, the largest frame, and V-FB-7, the largest count. -/
theorem wit_BuildFrameAnswersTheLayout :
    (∃ (ents : List RawEntry) (fields : List Bytes), List.Forall₂ (fun e b => encFieldBytes tc.par e = .ok b) ents fields ∧
      ents.length ≤ 255 ∧ fields.flatten.length + 34 = 24577) ∧
    ∃ (ents : List RawEntry) (fields : List Bytes), List.Forall₂ (fun e b => encFieldBytes tc.par e = .ok b) ents fields ∧
      ents.length = 255 ∧ fields.flatten.length + 34 ≤ 24577 := by
  refine ⟨⟨asciiEntries 95 255 ++ asciiEntries 1 126, asciiFields 95 255 ++ asciiFields 1 126,
    List.rel_append (asciiFields_encode 95 (by decide +kernel)) (asciiFields_encode 1 (by decide +kernel)), ?_, ?_⟩,
    asciiEntries 255 0, asciiFields 255 0, asciiFields_encode 255 (by decide +kernel), ?_, ?_⟩
  · decide +kernel
  · rw [List.flatten_append, List.length_append, asciiFields_length, asciiFields_length]
  · decide +kernel
  · rw [asciiFields_length]; decide

/-- V-FB-5b, V-FB-8 and V-FB-10. -/
theorem wit_BuildFrameFaultsInOrder :
    (∃ e ∈ [(⟨0x03, [0x31]⟩ : RawEntry)], ∀ b, encFieldBytes tc.par e ≠ .ok b) ∧
    (∃ (ents : List RawEntry) (fields : List Bytes), List.Forall₂ (fun e b => encFieldBytes tc.par e = .ok b) ents fields ∧
      ents.length = 256) ∧
    ∃ (ents : List RawEntry) (fields : List Bytes), List.Forall₂ (fun e b => encFieldBytes tc.par e = .ok b) ents fields ∧
      ents.length ≤ 255 ∧ fields.flatten.length + 34 = 24578 := by
  refine ⟨⟨⟨0x03, [0x31]⟩, by simp, ?_⟩, ⟨asciiEntries 256 0, asciiFields 256 0, asciiFields_encode 256 (by decide +kernel), ?_⟩,
    asciiEntries 95 255 ++ asciiEntries 1 127, asciiFields 95 255 ++ asciiFields 1 127,
    List.rel_append (asciiFields_encode 95 (by decide +kernel)) (asciiFields_encode 1 (by decide +kernel)), ?_, ?_⟩
  · intro b h
    have : encFieldBytes tc.par ⟨0x03, [0x31]⟩ = .error .invalidEntry := by decide +kernel
    rw [this] at h; cases h
  · decide +kernel
  · decide +kernel
  · rw [List.flatten_append, List.length_append, asciiFields_length, asciiFields_length]

set_option maxRecDepth 20000 in
theorem wit_FramesDescribeThemselves :
    exec (.buildFrame dtP []) tc = .next (run (.buildFrame dtP []) tc) ∧
    answersOk (run (.buildFrame dtP []) tc) (0x00 :: 0x22 :: frameOf (run (.buildFrame dtP []) tc)) ∧
    isEncode .power (.encodeExplicit .power (ts23 0x3337) rdPower) ∧
    answersOk (run (.encodeExplicit .power (ts23 0x3337) rdPower) tc) (0x00 :: 0xD9 :: frameP) := by
  refine ⟨exec_run _ _, ?_, rfl, ?_⟩ <;> (unfold answersOk; decide +kernel)

set_option maxRecDepth 20000 in
theorem wit_FrameCrcIgnoresTheAddress :
    ∃ (s t u : State) (cfg : Cfg) (dt : Dt12) (ents : List RawEntry) (f g : Bytes), cfg ≠ s.cfg ∧
      exec (.buildFrame dt ents) s = .next t ∧ answersOk t (be 2 f.length ++ f) ∧
      exec (.buildFrame dt ents) { s with cfg := cfg } = .next u ∧ answersOk u (be 2 g.length ++ g) := by
  refine ⟨tc, _, _, { tc.cfg with target := 0, source := 0 }, dtP, [⟨0x06, [0x37]⟩], frameOf (run (.buildFrame dtP [⟨0x06, [0x37]⟩]) tc),
    frameOf (run (.buildFrame dtP [⟨0x06, [0x37]⟩]) { tc with cfg := { tc.cfg with target := 0, source := 0 } }), by decide,
    exec_run _ _, ?_, exec_run _ _, ?_⟩ <;> (unfold answersOk; decide +kernel)

/-- One reading for each clause, and a power reading that is no integer. -/
theorem wit_ReadingsConvertAsStated :
    tc.par.scaleConv = .exactTrunc ∧
    lookup rdEnergy .P = some (be 4 0x31353030) ∧ numeral (be 4 0x31353030) = some ((1500 : Int) : Rat) ∧
    lookup rdEnergy .U1 = some (be 3 0x323330) ∧ numeral (be 3 0x323330) = some 230 ∧
    lookup rdEnergy .I1 = some (be 3 0x362E35) ∧ numeral (be 3 0x362E35) = some (13 / 2) ∧
    lookup rdEnergy .tPI = some (be 9 0x31323334352E363738) ∧ numeral (be 9 0x31323334352E363738) = some (6172839 / 500) ∧
    numeral (be 6 0x313530302E35) = some (3001 / 2) ∧ (∀ v : Int, (3001 / 2 : Rat) ≠ v) := by
  refine ⟨rfl, by decide, by decide +kernel, by decide, by decide +kernel, by decide, by decide +kernel, by decide,
    by decide +kernel, by decide +kernel, ?_⟩
  intro v h
  have h2 : (3001 : Rat) = 2 * v := by linarith
  have h3 : (3001 : Int) = 2 * v := by exact_mod_cast h2
  omega

theorem converted_values :
    (∀ k ∈ powerKeys, converted tc.par rdEnergy k = .ok (values k) ∧ (canonicalNumeral (values k)).length ≤ 65535) ∧
    ∀ k ∈ energyKeys, converted tc.par rdEnergy k = .ok (values k) ∧ (canonicalNumeral (values k)).length ≤ 65535 := by
  decide +kernel

theorem wit_ComposePowerAnswersTheTable :
    tc.constructed = true ∧ hasDuplicateKey rdEnergy = false ∧
    ∀ k ∈ powerKeys, converted tc.par rdEnergy k = .ok (values k) ∧ (canonicalNumeral (values k)).length ≤ 65535 :=
  ⟨constructed_tc, by decide +kernel, converted_values.1⟩

/-- Both builds. -/
theorem wit_ComposeEnergyAnswersTheTable :
    (tc.constructed = true ∧ hasDuplicateKey rdEnergy = false ∧ tc.par.energyPrefix = .ownInput ∧
      (∀ k ∈ energyKeys, converted tc.par rdEnergy k = .ok (values k) ∧ (canonicalNumeral (values k)).length ≤ 65535) ∧
      ∀ k ∈ powerKeys, converted tc.par rdEnergy k = .ok (values k) ∧ (canonicalNumeral (values k)).length ≤ 65535) ∧
    (tcHeld.constructed = true ∧ hasDuplicateKey rdTotals = false ∧
      (∀ k ∈ energyKeys, converted tcHeld.par rdTotals k = .ok (values k)) ∧ tcHeld.par.energyPrefix = .lastPower ∧
      tcHeld.lastPower = some (powerSnap tcHeld.cfg tcHeld.par (powerValuesOf values))) :=
  ⟨⟨constructed_tc, by decide +kernel, rfl, converted_values.2, converted_values.1⟩,
    by decide +kernel, by decide +kernel, by decide +kernel, rfl, rfl⟩

set_option maxRecDepth 20000 in
theorem wit_EnergySnapshotExtendsThePowerSnapshot :
    tc.par.energyPrefix = .ownInput ∧ exec (.compose .energy dtE rdEnergy) tc = .next (run (.compose .energy dtE rdEnergy) tc) ∧
    ∃ payload, answersOk (run (.compose .energy dtE rdEnergy) tc) payload := by
  refine ⟨rfl, exec_run _ _, (run (.compose .energy dtE rdEnergy) tc).response.get!.tail, ?_⟩
  unfold answersOk
  decide +kernel

/-- A duplicated key; an empty LastPower; a missing key; a value that is no numeral; a power that is no integer (V-CMP-14, 20, 12, 9, 7). -/
theorem wit_ComposeFaultsInOrder :
    ¬ ((⟨[0x50], [0x30]⟩ :: rdPower).map Reading.key).Nodup ∧
    ((rdTotals.map Reading.key).Nodup ∧ tcLast.par.energyPrefix = .lastPower ∧ tcLast.lastPower = none) ∧
    (((rdPower.take 9).map Reading.key).Nodup ∧ Key.U3 ∈ requiredKeys tc.par .power ∧ ∀ r ∈ rdPower.take 9, r.key ≠ Key.U3.bytes) ∧
    (((⟨[0x50], [0x61]⟩ :: rdPower.tail).map Reading.key).Nodup ∧
      (∀ k ∈ requiredKeys tc.par .power, ∃ r ∈ (⟨[0x50], [0x61]⟩ :: rdPower.tail), r.key = k.bytes) ∧ numeral [0x61] = none) ∧
    (numeral (be 6 0x313530302E35) = some (3001 / 2) ∧ (∀ v : Int, (3001 / 2 : Rat) ≠ v) ∧
      ((⟨[0x50], be 6 0x313530302E35⟩ :: rdPower.tail).map Reading.key).Nodup ∧
      ∀ k ∈ requiredKeys tc.par .power, ∃ r ∈ (⟨[0x50], be 6 0x313530302E35⟩ :: rdPower.tail), r.key = k.bytes ∧ numeral r.value ≠ none) := by
  refine ⟨by decide +kernel, by decide +kernel, by decide +kernel, by decide +kernel, by decide +kernel,
    wit_ReadingsConvertAsStated.2.2.2.2.2.2.2.2.2.2, by decide +kernel, by decide +kernel⟩

theorem powerValues_rdPower : powerValues tc.par rdPower = .ok (powerValuesOf values) := by decide +kernel

theorem wit_EncodePowerEmitsAndCommits :
    ∃ (s : State) (c : Components) (ts : Bytes) (rd : List Reading) (v : PowerValues),
      s.constructed = true ∧ inRange c = true ∧ hasDuplicateKey rd = false ∧ powerValues s.par rd = .ok v ∧
      (∀ x ∈ [v.P, v.PO, v.Q, v.QO, v.I1, v.I2, v.I3], 0 ≤ x ∧ x ≤ 4294967295) ∧ (∀ x ∈ [v.U1, v.U2, v.U3], 0 ≤ x ∧ x ≤ 65535) ∧
      s.lastSeenPower ≠ some (dtOfBytes (dtFields s.par.dtSuffix { c with second := 10 * (c.second / 10) })) ∧
      s.clock = c ∧ s.par.parseTs ts = some c :=
  ⟨{ tc with clock := at23 37 }, at23 37, ts23 0x3337, rdPower, powerValuesOf values, by decide +kernel, by decide, by decide +kernel,
    powerValues_rdPower, by decide, by decide, by decide +kernel, rfl, by decide +kernel⟩

/-- Both builds. -/
theorem wit_EncodeEnergyEmitsAndCommits :
    (Inv tc ∧ inRange (at23 37) = true ∧ hasDuplicateKey rdEnergy = false ∧
      energyValues tc.par rdEnergy = .ok { tPI := 12345678, tPO := 500, tQI := 42000, tQO := 1 } ∧ tc.par.energyPrefix = .ownInput ∧
      powerValues tc.par rdEnergy = .ok (powerValuesOf values) ∧ tc.lastSeenEnergy = none ∧
      tc.par.parseTs (ts23 0x3337) = some (at23 37)) ∧
    (Inv tcHeld ∧ hasDuplicateKey rdTotals = false ∧
      energyValues tcHeld.par rdTotals = .ok { tPI := 12345678, tPO := 500, tQI := 42000, tQO := 1 } ∧
      tcHeld.par.energyPrefix = .lastPower ∧ tcHeld.lastPower ≠ none ∧ tcHeld.lastSeenEnergy = none) :=
  ⟨⟨inv_tc, by decide +kernel, by decide +kernel, by decide +kernel, rfl, by decide +kernel, rfl, by decide +kernel⟩,
    inv_tcHeld, by decide +kernel, by decide +kernel, rfl, by decide +kernel, rfl⟩

theorem wit_DuplicatesAreSuppressed :
    ∃ (s : State) (stream : Stream) (c : Components) (ts : Bytes) (dt : Dt12),
      packDatetime s.par (streamPolicy stream) c = .ok dt ∧ s.lastSeen stream = some dt ∧ s.clock = c ∧ s.par.parseTs ts = some c :=
  ⟨{ tc with clock := at23 34, lastSeenPower := some dtP }, .power, at23 34, ts23 0x3334, dtP, by decide +kernel, rfl, rfl,
    by decide +kernel⟩

theorem wit_EncodeChecksTheTimeFirst :
    inRange ({ tc with clock := { at23 0 with year := 65536 } } : State).clock = false ∧ tc.par.parseTs [] = none ∧
    (tc.par.parseTs (be 17 0x3635353336203120312031203020302030) = some ⟨65536, 1, 1, 1, 0, 0, 0⟩ ∧
      inRange ⟨65536, 1, 1, 1, 0, 0, 0⟩ = false) := by decide +kernel

/-- Both clauses, at 14:23:37. -/
theorem wit_ShouldEmitConsumesTheDatetime :
    (∃ s t u : State, exec (.shouldEmit .power dtP) s = .next t ∧ exec (.packDtClock (streamByte .power)) s = .next u ∧
      answersOk u (dtBytes dtP)) ∧
    ∃ (s t u : State) (ts : Bytes), exec (.shouldEmit .power dtP) s = .next t ∧
      exec (.packDtExplicit (streamByte .power) ts) s = .next u ∧ answersOk u (dtBytes dtP) := by
  refine ⟨⟨{ tc with clock := at23 37 }, _, _, exec_run _ _, exec_run _ _, ?_⟩, tc, _, _, ts23 0x3337, exec_run _ _, exec_run _ _, ?_⟩ <;>
    (unfold answersOk; decide +kernel)

set_option maxRecDepth 20000 in
/-- Encodes at 14:23:37 and at 14:23:41, a COMPOSE and a SHOULD_EMIT on the other stream between them. -/
theorem wit_NoFrameRepeatsTheLastDatetime :
    let i : Instr := .encodeExplicit .power (ts23 0x3337) rdPower
    let t := run i tc
    let t1 := run (.compose .energy dtE rdEnergy) t
    let u := run (.shouldEmit .energy dtE) t1
    let w := run (.encodeExplicit .power (ts23 0x3431) rdPower) u
    isEncode .power i ∧ exec i tc = .next t ∧ answersOk t (be 2 frameP.length ++ frameP) ∧
      QuietRun .power [.compose .energy dtE rdEnergy, .shouldEmit .energy dtE] t u ∧
      exec (.encodeExplicit .power (ts23 0x3431) rdPower) u = .next w ∧ answersOk w (be 2 (frameOf w).length ++ frameOf w) := by
  refine ⟨rfl, exec_run _ _, ?_, .cons (exec_run _ _) trivial (.cons (exec_run _ _) (.inl (by decide)) (.nil _)), exec_run _ _, ?_⟩ <;>
    (unfold answersOk; decide +kernel)

set_option maxRecDepth 20000 in
theorem wit_EmittedDatetimeBecomesLastSeen :
    let i : Instr := .encodeExplicit .energy (ts23 0x3337) rdEnergy
    isEncode .energy i ∧ exec i tc = .next (run i tc) ∧ answersOk (run i tc) (be 2 frameE.length ++ frameE) := by
  refine ⟨rfl, exec_run _ _, ?_⟩
  unfold answersOk; decide +kernel

/-- The hypotheses with ENCODE_CLOCK are those of wit_PowerFrameReadsBack. -/
theorem wit_EncodeIsPackComposeBuild :
    tc.par.ok = true ∧ exec (.encodeExplicit .energy (ts23 0x3337) rdEnergy) tc = .next (run (.encodeExplicit .energy (ts23 0x3337) rdEnergy) tc) ∧
    answersOk (run (.encodeExplicit .energy (ts23 0x3337) rdEnergy) tc) (be 2 frameE.length ++ frameE) :=
  ⟨by decide +kernel, exec_run _ _, wit_EmittedDatetimeBecomesLastSeen.2.2⟩

set_option maxRecDepth 20000 in
theorem wit_PowerFrameReadsBack :
    let i : Instr := .encodeClock .power rdPower
    let s : State := { tc with clock := at23 37 }
    s.constructed = true ∧ exec i s = .next (run i s) ∧ answersOk (run i s) (be 2 frameP.length ++ frameP) := by
  refine ⟨by decide +kernel, exec_run _ _, ?_⟩
  unfold answersOk; decide +kernel

set_option maxRecDepth 20000 in
/-- Program P5, the power frame from POW alone. -/
theorem wit_EnergyPrefixModesAgree :
    let i : Instr := .encodeExplicit .power (ts23 0x3337) rdPower
    let j : Instr := .encodeExplicit .energy (ts23 0x3337) rdEnergy
    (∀ k ∈ powerKeys, lookup rdPower k = lookup rdEnergy k) ∧
    tc = { tc with par := { tc.par with energyPrefix := .ownInput } } ∧
    exec i tcLast = .next (run i tcLast) ∧ answersOk (run i tcLast) (be 2 frameP.length ++ frameP) ∧
    exec j tc = .next (run j tc) ∧ answersOk (run j tc) (be 2 frameE.length ++ frameE) ∧
    exec j (run i tcLast) = .next (run j (run i tcLast)) := by
  refine ⟨by decide +kernel, rfl, exec_run _ _, ?_, exec_run _ _, ?_, exec_run _ _⟩ <;> (unfold answersOk; decide +kernel)

/-- A line with two readings, one with two entries whose tags and blobs are written in several forms, and a dt12 of 11 bytes. -/
theorem wit_AssembledLinesAreEncodings :
    (writesLine tc.par .ENCODE_CLOCK [.name .energy, .readings [([0x50], [0x31]), ([0x51], [0x32])]]
        (.encodeClock .energy [⟨[0x50], [0x31]⟩, ⟨[0x51], [0x32]⟩]) ∧
      (Instr.encodeClock .energy [⟨[0x50], [0x31]⟩, ⟨[0x51], [0x32]⟩]).wellFormed = true) ∧
    (writesLine tc.par .BUILD_FRAME [.blob (.hex (hexU (dtBytes dtP))),
        .entries [(0x46, 0x66, .quoted [0x7F]), (0x30, 0x61, .hex [0x33, 0x41])]]
        (.buildFrame dtP [⟨0xFF, [0x7F]⟩, ⟨0x0A, [0x3A]⟩]) ∧
      (Instr.buildFrame dtP [⟨0xFF, [0x7F]⟩, ⟨0x0A, [0x3A]⟩]).wellFormed = true) ∧
    ∃ h : Bytes, h.length = 22 ∧ ∀ dt, ¬ writesDt (.blob (.hex h)) dt := by
  have q : ∀ b : Bytes, (∀ x ∈ b, x.toNat ≤ 0x7F) → writesBlob (.quoted b) b := fun b h => ⟨rfl, h⟩
  refine ⟨⟨⟨rfl, _, _, rfl, .inr (.inl ⟨rfl, rfl⟩), _, rfl,
      .cons ⟨q _ (by decide), q _ (by decide)⟩ (.cons ⟨q _ (by decide), q _ (by decide)⟩ .nil)⟩, by decide⟩,
    ⟨⟨rfl, _, _, rfl, ⟨_, rfl, ?_⟩, _, rfl, .cons ⟨⟨_, _, rfl, ?_⟩, q _ (by decide)⟩ (.cons ⟨⟨_, _, rfl, ?_⟩, ?_⟩ .nil)⟩, by decide⟩,
    List.replicate 22 0x30, by decide, ?_⟩
  · unfold isHexOf isHexDigit; decide +kernel
  · unfold isHexDigit; decide
  · unfold isHexDigit; decide
  · unfold writesBlob isHexOf isHexDigit; decide
  · rintro dt ⟨h, e, hl, -⟩
    cases e
    rw [dtBytes_length] at hl
    revert hl; decide

theorem wit_OnlyTheDecoderRaisesIllegalCommand :
    (∃ t, step (port tc [0x30, 0x01] (at23 37)) = .next t) ∧ (∃ t, step (port tc [0x01] (at23 37)) = .next t) ∧
    tc.constructed = true :=
  ⟨next_of_after (by decide +kernel), next_of_after (by decide +kernel), constructed_tc⟩

/-- A time that packs and is no duplicate; POW with P just below its field, and with U3 just above it. The readings of
wit_ComposeFaultsInOrder meet the other clauses in the same states. -/
theorem wit_EncodeFaultsInComposesOrder :
    let low : List Reading := ⟨[0x50], be 2 0x2D31⟩ :: rdPower.tail
    let high : List Reading := rdPower.take 9 ++ [⟨be 2 0x5533, be 5 0x3635353336⟩]
    (packDatetime tc.par (streamPolicy .power) (at23 37) = .ok dtP ∧ tc.lastSeen .power ≠ some dtP ∧
      tc.par.parseTs (ts23 0x3337) = some (at23 37) ∧ ({ tc with clock := at23 37 } : State).clock = at23 37) ∧
    (packDatetime tcLast.par (streamPolicy .energy) (at23 37) = .ok dtE ∧ tcLast.lastSeen .energy ≠ some dtE) ∧
    (exec (.compose .power dtP []) tc = .next { tc with response := some [0x81] }) ∧
    tc.constructed = true ∧
    ((low.map Reading.key).Nodup ∧ converted tc.par low .P = .ok (-1) ∧
      ∀ k ∈ requiredKeys tc.par .power, ∃ v : Int, converted tc.par low k = .ok v) ∧
    ((high.map Reading.key).Nodup ∧ converted tc.par high .U3 = .ok 65536 ∧
      ∀ k ∈ requiredKeys tc.par .power, ∃ v : Int, converted tc.par high k = .ok v) := by
  refine ⟨by decide +kernel, by decide +kernel, ?_, constructed_tc, ⟨by decide +kernel, by decide +kernel, ?_⟩,
    by decide +kernel, by decide +kernel, ?_⟩
  · exact exec_run _ _
  · intro k hk
    refine ⟨if k = .P then -1 else values k, ?_⟩
    revert k hk; decide +kernel
  · intro k hk
    refine ⟨if k = .U3 then 65536 else values k, ?_⟩
    revert k hk; decide +kernel

end Sys2Proof.Tests
end

section
/-! The family of 00_scope.md: what reset holds, and what no command writes. -/

namespace Sys2Proof.Proofs

open Machine

/-! ### The frame of every command -/

/-- The fields that no command writes (R5, R26, log entries 1 and 2) are the same in both states. -/
structure SameSetting (s t : State) : Prop where
  cfg : t.cfg = s.cfg
  par : t.par = s.par
  inbox : t.inbox = s.inbox
  clock : t.clock = s.clock

theorem SameSetting.trans {s t u : State} (hst : SameSetting s t) (htu : SameSetting t u) : SameSetting s u :=
  ⟨htu.cfg.trans hst.cfg, htu.par.trans hst.par, htu.inbox.trans hst.inbox, htu.clock.trans hst.clock⟩

theorem sameSetting_respond (s : State) (c : Status) (payload : Bytes) : SameSetting s (s.respond c payload) :=
  ⟨rfl, rfl, rfl, rfl⟩

theorem sameSetting_finish (s : State) (r : Result Bytes) : SameSetting s (s.finish r) := by
  obtain ⟨b, -, h⟩ | ⟨f, -, h⟩ := s.finish_cases r <;> rw [h] <;> exact sameSetting_respond ..

theorem sameSetting_setLastSeen (s : State) (stream : Stream) (v : Option Dt12) : SameSetting s (s.setLastSeen stream v) :=
  ⟨s.setLastSeen_cfg .., s.setLastSeen_par .., s.setLastSeen_inbox .., s.setLastSeen_clock ..⟩

theorem sameSetting_clear (s : State) : SameSetting s s.clear :=
  ⟨s.clear_cfg, s.clear_par, s.clear_inbox, s.clear_clock⟩

theorem sameSetting_commit (s : State) (stream : Stream) (dt : Dt12) (snap : Snapshot) :
    SameSetting s (s.commit stream dt snap) :=
  ⟨s.commit_cfg .., s.commit_par .., s.commit_inbox .., s.commit_clock ..⟩

/-- Of the five ends of an encode (R200), four write the response alone and the fifth commits first. -/
theorem sameSetting_encodeAt (stream : Stream) (time : Result Components) (rd : List Reading) (s : State) :
    SameSetting s (encodeAt stream time rd s) := by
  obtain ⟨f, -, h⟩ | ⟨dt, -, ⟨-, h⟩ | ⟨-, ⟨f, -, h⟩ | ⟨snap, -, ⟨f, -, h⟩ | ⟨frame, -, h⟩⟩⟩⟩ :=
    encodeAt_cases stream time rd s <;> rw [h]
  case inr.inr.inr.inr => exact (sameSetting_commit ..).trans (sameSetting_respond ..)
  all_goals exact sameSetting_respond ..

/-- What SHOULD_EMIT does (R150, R151): a duplicate is answered with 00, and any other datetime is recorded and answered with 01. -/
theorem execShouldEmit_cases (stream : Stream) (dt : Dt12) (s : State) :
    (s.lastSeen stream = some dt ∧ execShouldEmit stream dt s = .next (s.respondOk [0x00])) ∨
    (s.lastSeen stream ≠ some dt ∧
      execShouldEmit stream dt s = .next ((s.setLastSeen stream (some dt)).respondOk [0x01])) := by
  unfold execShouldEmit
  obtain ⟨hseen, h⟩ | ⟨hnew, h⟩ := shouldEmit_cases stream dt s
  · exact .inl ⟨hseen, by rw [h]⟩
  · exact .inr ⟨hnew, by rw [h]⟩

/-- Every command goes on to a state with the same setting. -/
theorem exec_sameSetting (i : Instr) (s : State) : ∃ t, exec i s = .next t ∧ SameSetting s t := by
  cases i with
  | reset => exact ⟨_, rfl, (sameSetting_clear s).trans (sameSetting_respond ..)⟩
  | crc16 data => exact ⟨_, rfl, sameSetting_respond ..⟩
  | encField tag value => exact ⟨_, rfl, sameSetting_finish ..⟩
  | packDtClock policy => exact ⟨_, rfl, sameSetting_finish ..⟩
  | packDtExplicit policy ts => exact ⟨_, rfl, sameSetting_finish ..⟩
  | shouldEmit stream dt =>
    obtain ⟨-, h⟩ | ⟨-, h⟩ := execShouldEmit_cases stream dt s
    · exact ⟨_, h, sameSetting_respond ..⟩
    · exact ⟨_, h, (sameSetting_setLastSeen ..).trans (sameSetting_respond ..)⟩
  | buildFrame dt ents => exact ⟨_, rfl, sameSetting_finish ..⟩
  | compose stream dt rd => exact ⟨_, rfl, sameSetting_finish ..⟩
  | encodeClock stream rd => exact ⟨_, rfl, sameSetting_encodeAt ..⟩
  | encodeExplicit stream ts rd => exact ⟨_, rfl, sameSetting_encodeAt ..⟩

/-! ### The obligations -/

/-- Settles O14: each command is a composition of state operations that keep the setting. -/
theorem commandsKeepTheConfiguration : Obligations.CommandsKeepTheConfiguration := by
  intro i s
  obtain ⟨t, hexec, hsame⟩ := exec_sameSetting i s
  exact ⟨t, hexec, hsame.cfg, hsame.par, hsame.inbox, hsame.clock⟩

/-- Settles O1: the reset state holds these values field by field (R5, R28, R37). -/
theorem resetHoldsTheSpecValues : Obligations.ResetHoldsTheSpecValues :=
  ⟨rfl, rfl, rfl, rfl⟩

end Sys2Proof.Proofs
end

section
/-! The family of 10_state.md: what construction accepts and loads, who writes the Last-Seen Table and LastPower, and the invariant
that every step keeps. -/

namespace Sys2Proof.Proofs

open Machine Safety

/-! ### Construction (R25, R100, R240) -/

theorem identityOk_iff {b : Bytes} : identityOk b = true ↔ b.length ≤ 255 ∧ ∀ x ∈ b, x.toNat ≤ 0x7F := by
  simp [identityOk]

theorem cfg_ok_iff {c : Cfg} :
    c.ok = true ↔ ∀ b ∈ [c.listLabel, c.meterId, c.meterType], b.length ≤ 255 ∧ ∀ x ∈ b, x.toNat ≤ 0x7F := by
  simp [Cfg.ok, identityOk_iff, and_assoc]

theorem par_ok_iff {p : Par} : p.ok = true ↔ [p.tagU32, p.tagU16, p.tagAscii, p.tagOctet].Nodup := by
  simp [Par.ok, and_assoc]

/-- The registers that hold what the host supplied (R23). -/
def registers (m : MeterIdentity) : Cfg where
  target := BitVec.ofNat 7 m.target
  source := BitVec.ofNat 7 m.source
  listLabel := m.listLabel
  meterId := m.meterId
  meterType := m.meterType

/-- The machine right after construction with these registers and parameters (R37, R240). -/
def powerOn (m : MeterIdentity) (p : Par) : State :=
  { State.reset with cfg := registers m, par := p }

/-- What `construct` does, said once: it loads the registers and parameters that pass the checks, and refuses all others. -/
theorem construct_cases (m : MeterIdentity) (p : Par) :
    ((m.target ≤ 127 ∧ m.source ≤ 127 ∧ (registers m).ok = true ∧ p.ok = true) ∧ construct m p = .next (powerOn m p)) ∨
    (¬ (m.target ≤ 127 ∧ m.source ≤ 127 ∧ (registers m).ok = true ∧ p.ok = true) ∧
      construct m p = .refused .constructionRefused) := by
  by_cases hchecks : m.target ≤ 127 ∧ m.source ≤ 127 ∧ (registers m).ok = true ∧ p.ok = true
  · exact .inl ⟨hchecks, if_pos hchecks⟩
  · exact .inr ⟨hchecks, if_neg hchecks⟩

/-! ### ADDR (R24) -/

/-- R24's byte `(v << 1) | 1` as a sum. -/
theorem addressByte_eq (v : Nat) : (v <<< 1 ||| 1) = 2 * v + 1 := by
  rw [← Nat.shiftLeft_add_eq_or_of_lt (by decide), Nat.shiftLeft_eq, Nat.mul_comm]

/-- No bit of an address is lost in the 16 bits in which the model computes. -/
theorem addressByte_toNat (v : BitVec 7) : ((zext 16 v <<< 1) ||| 1 : BitVec 16).toNat = 2 * v.toNat + 1 := by
  have hv := v.isLt
  rw [BitVec.toNat_or, BitVec.toNat_shiftLeft, zext, BitVec.toNat_setWidth, Nat.mod_eq_of_lt (a := v.toNat) (by omega),
    Nat.mod_eq_of_lt (by rw [Nat.shiftLeft_eq]; omega)]
  exact addressByte_eq v.toNat

/-- R24's formula as a sum, for a SOURCE of 7 bits. -/
theorem addressWord_eq (t : Nat) {s : Nat} (hs : s < 128) :
    ((t <<< 1 ||| 1) <<< 8 ||| (s <<< 1 ||| 1)) = (2 * t + 1) * 256 + (2 * s + 1) := by
  rw [addressByte_eq, addressByte_eq, ← Nat.shiftLeft_add_eq_or_of_lt (by omega), Nat.shiftLeft_eq]

/-- ADDR is R24's formula: no bit is lost in its 16 bits. -/
theorem addr_toNat (c : Cfg) :
    c.addr.toNat = ((c.target.toNat <<< 1 ||| 1) <<< 8 ||| (c.source.toNat <<< 1 ||| 1)) := by
  have ht := c.target.isLt
  rw [Cfg.addr, BitVec.toNat_or, BitVec.toNat_shiftLeft, addressByte_toNat, addressByte_toNat, addressByte_eq, addressByte_eq,
    Nat.mod_eq_of_lt (by rw [Nat.shiftLeft_eq]; omega)]

/-! ### What a command does to the state -/

theorem statusCode_eq_zero {c : Status} : c.code = 0x00 ↔ c = .ok := by
  rcases c with _ | _ | f
  · simp [Status.code]
  · simp [Status.code]
  · cases f <;> simp [Status.code, FaultCode.code]

theorem answersOk_respond {s : State} {c : Status} {payload b : Bytes} :
    answersOk (s.respond c payload) b ↔ c = .ok ∧ payload = b := by
  rw [answersOk, State.respond_response, Option.some.injEq, List.cons.injEq, statusCode_eq_zero]

/-- An encode on the stream goes through to its commit (R200 steps 3 and 4): the datetime is new, the readings compose, the frame is
built, and `t` is the state after the commit and the response. -/
structure Emits (stream : Stream) (s t : State) (rd : List Reading) (dt : Dt12) (snap : Snapshot) (frame : Bytes) : Prop where
  new : s.lastSeen stream ≠ some dt
  composed : composeSnapshot s.cfg s.par s.lastPower stream rd dt = .ok snap
  built : buildFrame s.cfg s.par snap dt = .ok frame
  next : t = (s.commit stream dt snap).respondOk (blob frame)

/-- Of the five ends of an encode (R200) one emits a frame, and the other four write the response alone and do not answer OK. -/
theorem encodeAt_emits_or_responds (stream : Stream) (time : Result Components) (rd : List Reading) (s : State) :
    (∃ dt snap frame, Emits stream s (encodeAt stream time rd s) rd dt snap frame) ∨
      ∃ c, c ≠ Status.ok ∧ encodeAt stream time rd s = s.respond c [] := by
  obtain ⟨f, -, h⟩ | ⟨dt, -, ⟨-, h⟩ | ⟨hnew, ⟨f, -, h⟩ | ⟨snap, hcompose, ⟨f, -, h⟩ | ⟨frame, hbuild, h⟩⟩⟩⟩ :=
    encodeAt_cases stream time rd s
  case inr.inr.inr.inr => exact .inl ⟨dt, snap, frame, hnew, hcompose, hbuild, h⟩
  case inr.inl => exact .inr ⟨.suppressed, by simp, h⟩
  all_goals exact .inr ⟨.fault f, by simp, h⟩

/-- Both encodes are R200 with some source of the time (R201, R202). -/
theorem exec_of_isEncode {stream : Stream} {i : Instr} (henc : isEncode stream i) (s : State) :
    ∃ time rd, exec i s = .next (encodeAt stream time rd s) := by
  cases i with
  | encodeClock st rd => cases henc; exact ⟨_, rd, rfl⟩
  | encodeExplicit st ts rd => cases henc; exact ⟨_, rd, rfl⟩
  | _ => exact henc.elim

/-- An encode that answers OK has emitted the frame that its payload holds. -/
theorem encode_emits {stream : Stream} {i : Instr} {s t : State} {payload : Bytes} (henc : isEncode stream i)
    (hexec : exec i s = .next t) (hok : answersOk t payload) :
    ∃ rd dt snap frame, Emits stream s t rd dt snap frame ∧ payload = blob frame := by
  obtain ⟨time, rd, h⟩ := exec_of_isEncode henc s
  cases h.symm.trans hexec
  obtain ⟨dt, snap, frame, hemit⟩ | ⟨c, hc, hresp⟩ := encodeAt_emits_or_responds stream time rd s
  · rw [hemit.next] at hok
    exact ⟨rd, dt, snap, frame, hemit, (answersOk_respond.mp hok).2.symm⟩
  · rw [hresp] at hok
    exact absurd (answersOk_respond.mp hok).1 hc

section Emits

variable {stream : Stream} {s t : State} {rd : List Reading} {dt : Dt12} {snap : Snapshot} {frame : Bytes}

theorem Emits.answers (h : Emits stream s t rd dt snap frame) : answersOk t (blob frame) := by
  rw [h.next]; exact answersOk_respond.mpr ⟨rfl, rfl⟩

theorem Emits.lastSeen (h : Emits stream s t rd dt snap frame) : t.lastSeen stream = some dt := by
  rw [h.next]; exact s.commit_lastSeen ..

/-- The snapshot that a power encode emits has the layout of R184 and encodes. -/
theorem Emits.snapshot_layout (h : Emits .power s t rd dt snap frame) :
    (∃ v, snap = powerSnap s.cfg s.par v) ∧ ∃ fields, encodeFields s.par snap = .ok fields := by
  obtain ⟨-, -, -, -, hvalues⟩ := composeSnapshot_ok h.composed
  obtain ⟨fields, hfields, -⟩ := buildFrame_ok_iff.mp h.built
  obtain ⟨-, v, -, hsnap⟩ | ⟨hstream, -⟩ | ⟨hstream, -⟩ := composeValues_ok hvalues
  · exact ⟨⟨v, hsnap⟩, fields, hfields⟩
  all_goals cases hstream

end Emits

/-- What a command does to the state: RESET clears it, a SHOULD_EMIT that returns true records its operand, an encode emits, and
everything else writes the response alone. -/
inductive Effect (i : Instr) (s : State) : State → Prop where
  | clears (hi : i = .reset) : Effect i s (s.clear.respondOk [])
  | records {stream : Stream} {dt : Dt12} (hi : i = .shouldEmit stream dt) :
      Effect i s ((s.setLastSeen stream (some dt)).respondOk [0x01])
  | emits {stream : Stream} {t : State} {rd : List Reading} {dt : Dt12} {snap : Snapshot} {frame : Bytes}
      (hi : isEncode stream i) (h : Emits stream s t rd dt snap frame) : Effect i s t
  | responds (c : Status) (payload : Bytes) : Effect i s (s.respond c payload)

theorem effect_finish (i : Instr) (s : State) (r : Result Bytes) : Effect i s (s.finish r) := by
  obtain ⟨b, -, h⟩ | ⟨f, -, h⟩ := s.finish_cases r <;> rw [h] <;> exact .responds ..

theorem effect_encodeAt {stream : Stream} {i : Instr} (henc : isEncode stream i) (time : Result Components) (rd : List Reading)
    (s : State) : Effect i s (encodeAt stream time rd s) := by
  obtain ⟨dt, snap, frame, hemit⟩ | ⟨c, -, h⟩ := encodeAt_emits_or_responds stream time rd s
  · exact .emits henc hemit
  · rw [h]; exact .responds ..

theorem exec_effect {i : Instr} {s t : State} (hexec : exec i s = .next t) : Effect i s t := by
  cases i with
  | reset => cases hexec; exact .clears rfl
  | crc16 data => cases hexec; exact .responds ..
  | shouldEmit stream dt =>
    obtain ⟨-, h⟩ | ⟨-, h⟩ := execShouldEmit_cases stream dt s <;> cases h.symm.trans hexec
    · exact .responds ..
    · exact .records rfl
  | encodeClock stream rd => cases hexec; exact effect_encodeAt (i := .encodeClock stream rd) rfl ..
  | encodeExplicit stream ts rd => cases hexec; exact effect_encodeAt (i := .encodeExplicit stream ts rd) rfl ..
  | _ => cases hexec; exact effect_finish ..

/-! ### The writers of the Last-Seen Table (R29) -/

/-- RESET, a SHOULD_EMIT that returns true and an encode that emits are the effects that write an entry, each its own stream's. -/
theorem writer_of_lastSeen_ne {i : Instr} {s t : State} {stream : Stream} (hexec : exec i s = .next t)
    (hchange : t.lastSeen stream ≠ s.lastSeen stream) :
    i = .reset ∨ (∃ dt, i = .shouldEmit stream dt ∧ t.response = some [0x00, 0x01]) ∨
      (isEncode stream i ∧ ∃ payload, answersOk t payload) := by
  cases exec_effect hexec with
  | clears hi => exact .inl hi
  | @records st dt hi =>
    by_cases hst : stream = st
    · subst hst; exact .inr (.inl ⟨dt, hi, rfl⟩)
    · exact absurd (s.setLastSeen_lastSeen_ne _ hst) hchange
  | @emits st _ _ dt snap frame hi h =>
    by_cases hst : stream = st
    · subst hst; exact .inr (.inr ⟨hi, _, h.answers⟩)
    · rw [h.next] at hchange
      exact absurd (s.commit_lastSeen_ne hst dt snap) hchange
  | responds => exact absurd rfl hchange

/-- A quiet command writes no entry of the stream: it is none of the three writers. -/
theorem lastSeen_of_quiet {stream : Stream} {i : Instr} {s t : State} (hexec : exec i s = .next t) (hquiet : quiet stream i t) :
    t.lastSeen stream = s.lastSeen stream := by
  by_contra hchange
  obtain rfl | ⟨dt, rfl, htrue⟩ | ⟨henc, payload, hok⟩ := writer_of_lastSeen_ne hexec hchange
  · exact hquiet
  · obtain hne | hfalse := hquiet
    · exact hne rfl
    · rw [hfalse] at htrue; simp at htrue
  · cases i with
    | encodeClock st rd => exact hquiet.elim (fun hne => hne henc) (fun hnot => hnot payload hok)
    | encodeExplicit st ts rd => exact hquiet.elim (fun hne => hne henc) (fun hnot => hnot payload hok)
    | _ => exact henc

theorem lastSeen_of_quietRun {stream : Stream} {is : List Instr} {s t : State} (h : QuietRun stream is s t) :
    t.lastSeen stream = s.lastSeen stream := by
  induction h with
  | nil => rfl
  | cons hexec hquiet _ ih => rw [ih, lastSeen_of_quiet hexec hquiet]

/-! ### The bytes of a frame that no patch step writes -/

/-- A memory write leaves a slice before it as it was. -/
theorem slice_memWrite_before {fb : Bytes} {i j addr n v : Nat} (hj : j ≤ addr) (haddr : addr ≤ fb.length) :
    slice (memWrite fb addr n v) i j = slice fb i j := by
  have h := congrArg (fun b => (b.take j).drop i) (memWrite_take (n := n) (v := v) haddr)
  simpa [slice, List.take_take, List.drop_take, Nat.min_eq_left hj] using h

/-- A memory write leaves a slice after it as it was. -/
theorem slice_memWrite_after {fb : Bytes} {i j addr n v : Nat} (hi : addr + n ≤ i) (haddr : addr ≤ fb.length) :
    slice (memWrite fb addr n v) i j = slice fb i j := by
  have h := congrArg (List.drop (i - (addr + n))) (memWrite_drop (n := n) (v := v) haddr)
  rw [List.drop_drop, List.drop_drop, Nat.add_sub_cancel' hi] at h
  rw [slice, slice, h]

theorem assembleFrame_length (cfg : Cfg) (p : Par) (dt : Dt12) (n : Nat) (fields : Bytes) :
    (assembleFrame cfg p dt n fields).length = 34 + fields.length := by
  simp [assembleFrame, be_length, dtBytes_length]; omega

theorem slice_assembleFrame_datetime (cfg : Cfg) (p : Par) (dt : Dt12) (n : Nat) (fields : Bytes) :
    slice (assembleFrame cfg p dt n fields) 17 29 = dtBytes dt := by
  have hlen := dtBytes_length dt
  simp [slice, assembleFrame, be, hlen]

theorem patchLength_length {fb : Bytes} (h : 34 ≤ fb.length) : (patchLength fb).length = fb.length :=
  memWrite_length (by omega)

theorem patchHcs_length {fb : Bytes} (h : 34 ≤ fb.length) : (patchHcs fb).length = fb.length :=
  memWrite_length (by omega)

theorem slice_patchLength_datetime {fb : Bytes} (h : 34 ≤ fb.length) : slice (patchLength fb) 17 29 = slice fb 17 29 :=
  slice_memWrite_after (by omega) (by omega)

theorem slice_patchHcs_datetime {fb : Bytes} (h : 34 ≤ fb.length) : slice (patchHcs fb) 17 29 = slice fb 17 29 :=
  slice_memWrite_after (by omega) (by omega)

theorem slice_patchFcs_datetime {fb : Bytes} (h : 34 ≤ fb.length) : slice (patchFcs fb) 17 29 = slice fb 17 29 :=
  slice_memWrite_before (by omega) (by omega)

/-- The patches of R163 to R165 lie before and after the packed datetime. -/
theorem slice_patched_datetime {fb : Bytes} (h : 34 ≤ fb.length) :
    slice (patchFcs (patchHcs (patchLength fb))) 17 29 = slice fb 17 29 := by
  have hlen : 34 ≤ (patchLength fb).length := by rwa [patchLength_length h]
  have hhcs : 34 ≤ (patchHcs (patchLength fb)).length := by rwa [patchHcs_length hlen]
  rw [slice_patchFcs_datetime hhcs, slice_patchHcs_datetime hlen, slice_patchLength_datetime h]

/-- Bytes 17 to 28 of a frame are its packed datetime (R160). -/
theorem slice_buildFrame_datetime {cfg : Cfg} {p : Par} {snap : Snapshot} {dt : Dt12} {frame : Bytes}
    (h : buildFrame cfg p snap dt = .ok frame) : slice frame 17 29 = dtBytes dt := by
  obtain ⟨fields, -, -, -, hframe⟩ := buildFrame_ok_iff.mp h
  have hlen := assembleFrame_length cfg p dt snap.length fields.flatten
  rw [hframe, slice_patched_datetime (by omega), slice_assembleFrame_datetime]

theorem dtBytes_inj {a b : Dt12} (h : dtBytes a = dtBytes b) : a = b := by
  rw [← dtOfBytes_dtBytes a, h, dtOfBytes_dtBytes]

theorem blob_eq_iff {a b : Bytes} : be 2 a.length ++ a = blob b ↔ a = b :=
  ⟨fun h => (List.append_inj h (by simp [be_length])).2, fun h => by rw [h, blob]⟩

/-! ### The decoder's answer -/

/-- The reader has read, from the bytes after the opcode `op`, the operands of the well-formed command `i`, and `r` follows them. -/
structure ReadsCommand (op : Byte) (bs : Bytes) (i : Instr) (r : Bytes) : Prop where
  opcode : opcode i = op
  operands : bs = operandBytes i ++ r
  wellFormed : i.wellFormed = true

theorem takeEncField_ok {bs r : Bytes} {i : Instr} (h : takeEncField bs = .ok (i, r)) : ReadsCommand 0x20 bs i r := by
  unfold takeEncField at h
  split at h
  · cases h
  · rename_i tag q htag
    split at h
    · cases h
    · rename_i value q' hvalue
      cases h
      obtain ⟨rfl, hlen⟩ := takeBlob_ok hvalue
      exact ⟨rfl, takeU8_ok htag, by simpa [Instr.wellFormed, blobOk] using hlen⟩

theorem takePackDtExplicit_ok {bs r : Bytes} {i : Instr} (h : takePackDtExplicit bs = .ok (i, r)) :
    ReadsCommand 0x31 bs i r := by
  unfold takePackDtExplicit at h
  split at h
  · cases h
  · rename_i policy q hpolicy
    split at h
    · cases h
    · rename_i ts q' hts
      cases h
      obtain ⟨rfl, hlen⟩ := takeBlob_ok hts
      exact ⟨rfl, takeU8_ok hpolicy, by simpa [Instr.wellFormed, blobOk] using hlen⟩

theorem takeShouldEmit_ok {bs r : Bytes} {i : Instr} (h : takeShouldEmit bs = .ok (i, r)) : ReadsCommand 0x40 bs i r := by
  unfold takeShouldEmit at h
  split at h
  · cases h
  · rename_i stream q hstream
    split at h
    · cases h
    · rename_i dt q' hdt
      cases h
      exact ⟨rfl, by rw [takeStream_ok hstream, takeDt12_ok hdt]; rfl, rfl⟩

theorem takeBuildFrame_ok {bs r : Bytes} {i : Instr} (h : takeBuildFrame bs = .ok (i, r)) : ReadsCommand 0x50 bs i r := by
  unfold takeBuildFrame at h
  split at h
  · cases h
  · rename_i dt q hdt
    split at h
    · cases h
    · rename_i ents q' hents
      cases h
      obtain ⟨rfl, hok⟩ := takeEntries_ok hents
      exact ⟨rfl, by simp [takeDt12_ok hdt, operandBytes], hok⟩

theorem takeCompose_ok {bs r : Bytes} {i : Instr} (h : takeCompose bs = .ok (i, r)) : ReadsCommand 0x60 bs i r := by
  unfold takeCompose at h
  split at h
  · cases h
  · rename_i stream q hstream
    split at h
    · cases h
    · rename_i dt q' hdt
      split at h
      · cases h
      · rename_i rd q'' hrd
        cases h
        obtain ⟨rfl, hok⟩ := takeReadings_ok hrd
        exact ⟨rfl, by simp [takeStream_ok hstream, takeDt12_ok hdt, operandBytes], hok⟩

theorem takeEncodeClock_ok {bs r : Bytes} {i : Instr} (h : takeEncodeClock bs = .ok (i, r)) : ReadsCommand 0x70 bs i r := by
  unfold takeEncodeClock at h
  split at h
  · cases h
  · rename_i stream q hstream
    split at h
    · cases h
    · rename_i rd q' hrd
      cases h
      obtain ⟨rfl, hok⟩ := takeReadings_ok hrd
      exact ⟨rfl, takeStream_ok hstream, hok⟩

theorem takeEncodeExplicit_ok {bs r : Bytes} {i : Instr} (h : takeEncodeExplicit bs = .ok (i, r)) :
    ReadsCommand 0x71 bs i r := by
  unfold takeEncodeExplicit at h
  split at h
  · cases h
  · rename_i stream q hstream
    split at h
    · cases h
    · rename_i ts q' hts
      split at h
      · cases h
      · rename_i rd q'' hrd
        cases h
        obtain ⟨rfl, hlen⟩ := takeBlob_ok hts
        obtain ⟨rfl, hok⟩ := takeReadings_ok hrd
        exact ⟨rfl, by simp [takeStream_ok hstream, operandBytes], by simp [Instr.wellFormed, blobOk, hlen, hok]⟩

/-- The two commands with one operand: reading it and wrapping it in its constructor answers when the reading does. -/
theorem mapCommand_ok {α : Type} {x : Parsed α} {mk : α → Instr} {i : Instr} {r : Bytes}
    (h : (x.map fun (a, r) => (mk a, r)) = .ok (i, r)) : ∃ a, x = .ok (a, r) ∧ i = mk a := by
  cases x with
  | error e => cases h
  | ok y => cases h; exact ⟨y.1, rfl, rfl⟩

/-- Each opcode's reader reads a command with that opcode (R68, R69). -/
theorem operands_ok {op : Byte} {bs r : Bytes} {i : Instr} (h : operands op bs = .ok (i, r)) : ReadsCommand op bs i r := by
  unfold operands at h
  split_ifs at h with hReset hCrc hField hClock hExplicit hShould hBuild hCompose hEncClock hEncExplicit <;> subst op
  · cases h; exact ⟨rfl, rfl, rfl⟩
  · obtain ⟨data, hdata, rfl⟩ := mapCommand_ok h
    obtain ⟨rfl, hlen⟩ := takeBlob_ok hdata
    exact ⟨rfl, rfl, by simpa [Instr.wellFormed, blobOk] using hlen⟩
  · exact takeEncField_ok h
  · obtain ⟨policy, hpolicy, rfl⟩ := mapCommand_ok h
    exact ⟨rfl, takeU8_ok hpolicy, rfl⟩
  · exact takePackDtExplicit_ok h
  · exact takeShouldEmit_ok h
  · exact takeBuildFrame_ok h
  · exact takeCompose_ok h
  · exact takeEncodeClock_ok h
  · exact takeEncodeExplicit_ok h

/-- A byte string that decodes is the encoding of the command it decodes to, and that is well-formed (R61, R77). -/
theorem decode_ok {c : Bytes} {i : Instr} (h : decode c = .ok i) : c = encode i ∧ i.wellFormed = true := by
  unfold decode at h
  split at h
  · cases h
  · split at h
    · cases h
    · rename_i j hread
      cases h
      obtain ⟨rfl, rfl, hwf⟩ := operands_ok hread
      exact ⟨by simp [encode], hwf⟩
    · cases h

/-! ### The invariant -/

/-- The invariant speaks of Cfg, Par and LastPower alone. -/
theorem inv_of_same {s t : State} (h : Inv s) (hcfg : t.cfg = s.cfg) (hpar : t.par = s.par) (hpower : t.lastPower = s.lastPower) :
    Inv t where
  constructed := by rw [State.constructed, hcfg, hpar]; exact h.constructed
  ownInput := by rw [hpar, hpower]; exact h.ownInput
  lastPower := by rw [hcfg, hpar, hpower]; exact h.lastPower

/-- A state that holds no power snapshot has the invariant when its Cfg and Par pass the checks. -/
theorem inv_of_no_snapshot {s : State} (h : s.constructed = true) (hnone : s.lastPower = none) : Inv s where
  constructed := h
  ownInput _ := hnone
  lastPower snap hsnap := by rw [hnone] at hsnap; cases hsnap

theorem inv_clear {s : State} (h : Inv s) : Inv s.clear := by
  have hpower := s.clear_lastPower
  refine inv_of_no_snapshot (by simpa [State.constructed] using h.constructed) ?_
  cases hbuild : s.par.energyPrefix with
  | ownInput => simpa [hbuild, h.ownInput hbuild] using hpower
  | lastPower => simpa [hbuild] using hpower

theorem inv_emits {stream : Stream} {s t : State} {rd : List Reading} {dt : Dt12} {snap : Snapshot} {frame : Bytes}
    (h : Emits stream s t rd dt snap frame) (hs : Inv s) : Inv t := by
  obtain rfl := h.next
  have hpower := s.commit_lastPower stream dt snap
  by_cases hwrites : stream = .power ∧ s.par.energyPrefix = .lastPower
  · obtain ⟨rfl, hbuild⟩ := hwrites
    rw [if_pos ⟨rfl, hbuild⟩] at hpower
    refine ⟨by simpa [State.constructed, State.respondOk] using hs.constructed, ?_, ?_⟩
    · simp [State.respondOk, hbuild]
    · simpa [State.respondOk, hpower] using h.snapshot_layout
  · rw [if_neg hwrites] at hpower
    exact inv_of_same hs (s.commit_cfg ..) (s.commit_par ..) hpower

/-- Every command keeps the invariant. -/
theorem exec_inv {i : Instr} {s t : State} (hs : Inv s) (hexec : exec i s = .next t) : Inv t := by
  cases exec_effect hexec with
  | clears => exact inv_of_same (inv_clear hs) rfl rfl rfl
  | records => exact inv_of_same hs (s.setLastSeen_cfg ..) (s.setLastSeen_par ..) (s.setLastSeen_lastPower ..)
  | emits _ h => exact inv_emits h hs
  | responds => exact inv_of_same hs rfl rfl rfl

/-! ### The step -/

/-- What a step of a constructed block does, said once: it is idle, refuses bytes that are no command, or runs the command. -/
theorem step_cases {s t : State} (h : step s = .next t) :
    (s.inbox = [] ∧ t = s) ∨
    ∃ tr rest, s.inbox = tr :: rest ∧
      ((∃ e, decode tr.bytes = .error e ∧ t = State.raise { s with inbox := rest, clock := tr.clock } .illegalCommand) ∨
       ∃ i, decode tr.bytes = .ok i ∧ exec i { s with inbox := rest, clock := tr.clock } = .next t) := by
  unfold step at h
  split at h
  · split at h
    · rename_i haccept
      cases h
      cases hinbox : s.inbox with
      | nil => exact .inl ⟨rfl, rfl⟩
      | cons tr rest => simp [State.accept, hinbox] at haccept
    · rename_i haccept
      obtain ⟨tr, rest, hinbox, rfl, rfl⟩ := State.accept_eq_some haccept
      split at h
      · rename_i e hdecode
        cases h
        exact .inr ⟨tr, rest, hinbox, .inl ⟨e, hdecode, rfl⟩⟩
      · rename_i i hdecode
        exact .inr ⟨tr, rest, hinbox, .inr ⟨i, hdecode, h⟩⟩
  · cases h

/-! ### The obligations -/

/-- Settles O12: a step takes a transaction off the port, and the command it then runs keeps the invariant. -/
theorem stepKeepsTheInvariant : Obligations.StepKeepsTheInvariant := by
  intro s t hs hstep
  obtain ⟨-, rfl⟩ | ⟨tr, rest, -, ⟨e, -, rfl⟩ | ⟨i, -, hexec⟩⟩ := step_cases hstep
  · exact hs
  · exact inv_of_same hs rfl rfl rfl
  · have haccepted : Inv { s with inbox := rest, clock := tr.clock } := inv_of_same hs rfl rfl rfl
    exact exec_inv haccepted hexec

/-- Settles O2: the checks that `construct` makes are those of R25 and R100. -/
theorem constructionChecksThenLoads : Obligations.ConstructionChecksThenLoads := by
  intro m p passes
  have hchecks : passes ↔ m.target ≤ 127 ∧ m.source ≤ 127 ∧ (registers m).ok = true ∧ p.ok = true := by
    rw [cfg_ok_iff, par_ok_iff]; rfl
  rw [hchecks]
  obtain ⟨⟨htarget, hsource, hcfg, hpar⟩, h⟩ | ⟨hfails, h⟩ := construct_cases m p
  · refine ⟨fun _ => ⟨powerOn m p, h, ?_⟩, fun hfails => absurd ⟨htarget, hsource, hcfg, hpar⟩ hfails⟩
    refine ⟨by simp [State.constructed, powerOn, hcfg, hpar], ?_, ?_, rfl, rfl, rfl, rfl, rfl, rfl, rfl⟩
    · exact Nat.mod_eq_of_lt (Nat.lt_succ_of_le htarget)
    · exact Nat.mod_eq_of_lt (Nat.lt_succ_of_le hsource)
  · exact ⟨fun hpasses => absurd hpasses hfails, fun _ => h⟩

/-- Settles O17: `writer_of_lastSeen_ne`, and for each of the three writers what it leaves in the entry. -/
theorem lastSeenHasThreeWriters : Obligations.LastSeenHasThreeWriters := by
  intro i s t stream hexec
  refine ⟨writer_of_lastSeen_ne hexec, ?_, ?_, ?_⟩
  · rintro rfl
    cases hexec
    exact s.clear_lastSeen stream
  · rintro dt rfl htrue
    obtain ⟨-, h⟩ | ⟨-, h⟩ := execShouldEmit_cases stream dt s <;> cases h.symm.trans hexec
    · simp [State.respondOk] at htrue
    · exact s.setLastSeen_lastSeen ..
  · rintro henc ⟨payload, hok⟩
    obtain ⟨rd, dt, snap, frame, hemit, -⟩ := encode_emits henc hexec hok
    exact ⟨dt, hemit.new, hemit.lastSeen⟩

/-- Settles O18: only RESET and the commit of a power encode touch LastPower, where the build has it. -/
theorem lastPowerHasTwoWriters : Obligations.LastPowerHasTwoWriters := by
  intro i s t hexec hchange
  cases exec_effect hexec with
  | clears hi =>
    have hpower := s.clear_lastPower
    by_cases hbuild : s.par.energyPrefix = .lastPower
    · rw [if_pos hbuild] at hpower
      exact ⟨hbuild, .inl ⟨hi, hpower⟩⟩
    · rw [if_neg hbuild] at hpower
      exact absurd hpower hchange
  | records => exact absurd (s.setLastSeen_lastPower ..) hchange
  | @emits st _ _ dt snap frame hi h =>
    have hpower := s.commit_lastPower st dt snap
    by_cases hwrites : st = .power ∧ s.par.energyPrefix = .lastPower
    · obtain ⟨rfl, hbuild⟩ := hwrites
      exact ⟨hbuild, .inr ⟨hi, _, h.answers⟩⟩
    · rw [if_neg hwrites] at hpower
      rw [h.next] at hchange
      exact absurd hpower hchange
  | responds => exact absurd rfl hchange

/-- Settles O53: the frame that an encode emits holds the datetime that its commit records. -/
theorem emittedDatetimeBecomesLastSeen : Obligations.EmittedDatetimeBecomesLastSeen := by
  intro stream i s t f henc hexec hok
  obtain ⟨rd, dt, snap, frame, hemit, hframe⟩ := encode_emits henc hexec hok
  obtain rfl := blob_eq_iff.mp hframe
  exact ⟨dt, slice_buildFrame_datetime hemit.built, hemit.new, hemit.lastSeen⟩

/-- Settles O52: the first frame's datetime is still the last seen when the second encode finds its own to be new. -/
theorem noFrameRepeatsTheLastDatetime : Obligations.NoFrameRepeatsTheLastDatetime := by
  intro stream i j mid s t u w f g hi hj hexecI hokF hrun hexecJ hokG hsame
  obtain ⟨a, hfa, -, hta⟩ := emittedDatetimeBecomesLastSeen stream i s t f hi hexecI hokF
  obtain ⟨b, hgb, hub, -⟩ := emittedDatetimeBecomesLastSeen stream j u w g hj hexecJ hokG
  have hab : a = b := dtBytes_inj (by rw [← hfa, ← hgb, hsame])
  exact hub (by rw [lastSeen_of_quietRun hrun, hta, hab])

/-- Settles O3: `addr_toNat` is the formula, and the fields are read off the sum that it is. -/
theorem addrHoldsTargetAndSource : Obligations.AddrHoldsTargetAndSource := by
  intro c
  have ht := c.target.isLt
  have hs := c.source.isLt
  have haddr := (addr_toNat c).trans (addressWord_eq _ hs)
  refine ⟨addr_toNat c, haddr, ?_, ?_, ?_, ?_⟩
  · apply BitVec.eq_of_toNat_eq
    rw [BitVec.extractLsb'_toNat, haddr, Nat.shiftRight_eq_div_pow]
    omega
  · apply BitVec.eq_of_toNat_eq
    rw [BitVec.extractLsb'_toNat, haddr, Nat.shiftRight_eq_div_pow]
    omega
  · rw [BitVec.getLsbD, haddr, Nat.testBit_eq_decide_div_mod_eq]
    simp only [decide_eq_true_eq]; omega
  · rw [BitVec.getLsbD, haddr, Nat.testBit_eq_decide_div_mod_eq]
    simp only [decide_eq_true_eq]; omega

/-- Settles O4: what the decoder answers is well-formed, and the step hands it to `exec`. -/
theorem stepRunsTheDecodedCommand : Obligations.StepRunsTheDecodedCommand := by
  intro s tr rest i hconstructed hinbox hdecode
  exact ⟨(decode_ok hdecode).2, by simp [step, hconstructed, State.accept, hinbox, hdecode]⟩

/-- Settles O13: construction leaves no power snapshot. -/
theorem constructionGivesTheInvariant : Obligations.ConstructionGivesTheInvariant := by
  refine ⟨inv_of_no_snapshot (by decide) rfl, fun m p s hs => ?_⟩
  obtain ⟨⟨-, -, hcfg, hpar⟩, h⟩ | ⟨-, h⟩ := construct_cases m p <;> cases h.symm.trans hs
  exact inv_of_no_snapshot (by simp [State.constructed, powerOn, hcfg, hpar]) rfl

end Sys2Proof.Proofs
end

section
/-! The family of 20_memory.md: the byte order of a stored CRC, what the pure commands read and write, and the two streams' entries
kept apart. -/

namespace Sys2Proof.Proofs

open Machine Safety

/-! ### The byte order of CRC16 (R43, R123) -/

theorem swap16_toNat (x : BitVec 16) : (swap16 x).toNat = (x.toNat % 256) * 256 + x.toNat / 256 := by
  have hhigh : x.toNat / 256 < 256 := by have := x.isLt; omega
  have hfits (n : Nat) : n % 256 % 65536 = n % 256 := by omega
  calc (swap16 x).toNat = (x.toNat % 256) <<< 8 % 2 ^ 16 ||| x.toNat / 256 % 256 := by
        simp [swap16, zext, Nat.shiftRight_eq_div_pow, hfits]
    _ = (x.toNat % 256) <<< 8 ||| x.toNat / 256 := by
        rw [Nat.mod_eq_of_lt hhigh, Nat.mod_eq_of_lt (by rw [Nat.shiftLeft_eq]; omega)]
    _ = (x.toNat % 256) * 256 + x.toNat / 256 := by
        rw [← Nat.shiftLeft_add_eq_or_of_lt hhigh, Nat.shiftLeft_eq]

/-- R43: big-endian after the swap is little-endian. -/
theorem be_two_swap16 (x : BitVec 16) : be 2 (swap16 x).toNat = [x.extractLsb' 0 8, x.extractLsb' 8 8] := by
  have hhigh : x.toNat / 256 < 256 := by have := x.isLt; omega
  have hfirst : BitVec.ofNat 8 ((swap16 x).toNat / 256 ^ 1) = x.extractLsb' 0 8 := by
    rw [swap16_toNat, Nat.pow_one, Nat.mul_comm, Nat.mul_add_div (by decide), Nat.div_eq_of_lt hhigh]
    exact BitVec.eq_of_toNat_eq (by simp)
  have hsecond : BitVec.ofNat 8 ((swap16 x).toNat / 256 ^ 0) = x.extractLsb' 8 8 := by
    rw [swap16_toNat, Nat.pow_zero, Nat.div_one]
    exact BitVec.eq_of_toNat_eq (by simp [Nat.shiftRight_eq_div_pow])
  rw [be, be, be, hfirst, hsecond]

/-! ### Commands that end in `State.finish` write the response alone (R48) -/

/-- The response does not depend on the state that it is written into. -/
theorem finish_writes_response (answer : Result Bytes) :
    ∃ r, ∀ s : State, s.finish answer = { s with response := some r } := by
  cases answer with
  | ok payload => exact ⟨Status.ok.code :: payload, fun _ => rfl⟩
  | error f => exact ⟨[(Status.fault f).code], fun _ => rfl⟩

/-- Two states in which a command finishes with the same answer get the same response and no other change. -/
theorem same_response_of_finish {i : Instr} {s u : State} {answer : Result Bytes} (hs : exec i s = .next (s.finish answer))
    (hu : exec i u = .next (u.finish answer)) :
    ∃ r, exec i s = .next { s with response := some r } ∧ exec i u = .next { u with response := some r } := by
  obtain ⟨r, hr⟩ := finish_writes_response answer
  exact ⟨r, by rw [hs, hr], by rw [hu, hr]⟩

/-- R186: a snapshot's values come from LastPower only for ENERGY in a LAST_POWER build. -/
theorem composeValues_congr_lastPower {cfg : Cfg} {p : Par} {lp lp' : Option Snapshot} {stream : Stream}
    (h : stream = .energy → p.energyPrefix = .lastPower → lp = lp') (rd : List Reading) (dt : Dt12) :
    composeValues cfg p lp stream rd dt = composeValues cfg p lp' stream rd dt := by
  cases stream with
  | power => rfl
  | energy =>
    cases hbuild : p.energyPrefix with
    | ownInput => simp only [composeValues, hbuild]
    | lastPower => rw [h rfl hbuild]

/-- The same of a composition with its checks (R187). -/
theorem composeSnapshot_congr_lastPower {cfg : Cfg} {p : Par} {lp lp' : Option Snapshot} {stream : Stream}
    (h : stream = .energy → p.energyPrefix = .lastPower → lp = lp') (rd : List Reading) (dt : Dt12) :
    composeSnapshot cfg p lp stream rd dt = composeSnapshot cfg p lp' stream rd dt := by
  have hheld : (stream = .energy ∧ p.energyPrefix = .lastPower ∧ lp = none) ↔
      (stream = .energy ∧ p.energyPrefix = .lastPower ∧ lp' = none) :=
    and_congr_right fun henergy => and_congr_right fun hbuild => by rw [h henergy hbuild]
  simp only [composeSnapshot, hheld, composeValues_congr_lastPower h]

theorem composePayload_congr {s u : State} {stream : Stream} (hpar : s.par = u.par) (hcfg : s.cfg = u.cfg)
    (hpower : stream = .energy → s.par.energyPrefix = .lastPower → s.lastPower = u.lastPower) (dt : Dt12) (rd : List Reading) :
    composePayload s stream dt rd = composePayload u stream dt rd := by
  rw [composePayload, composePayload, composeSnapshot_congr_lastPower hpower, hcfg, hpar]

/-! ### The other stream's entry commutes with every state operation (R51) -/

theorem setLastSeen_comm {a b : Stream} (h : a ≠ b) (s : State) (v w : Option Dt12) :
    (s.setLastSeen a v).setLastSeen b w = (s.setLastSeen b w).setLastSeen a v := by
  cases a <;> cases b
  case power.power | energy.energy => exact absurd rfl h
  case power.energy | energy.power => rfl

theorem setLastPower_setLastSeen (s : State) (stream : Stream) (v : Option Dt12) (w : Option Snapshot) :
    (s.setLastSeen stream v).setLastPower w = (s.setLastPower w).setLastSeen stream v := by
  unfold State.setLastPower
  rw [State.setLastSeen_par]
  cases s.par.energyPrefix with
  | ownInput => rfl
  | lastPower => cases stream <;> rfl

theorem respond_setLastSeen (s : State) (stream : Stream) (v : Option Dt12) (c : Status) (payload : Bytes) :
    (s.setLastSeen stream v).respond c payload = (s.respond c payload).setLastSeen stream v := by
  cases stream <;> rfl

theorem commit_setLastSeen_ne {stream other : Stream} (h : other ≠ stream) (s : State) (v : Option Dt12) (dt : Dt12)
    (snap : Snapshot) : (s.setLastSeen other v).commit stream dt snap = (s.commit stream dt snap).setLastSeen other v := by
  cases stream with
  | power => simp only [State.commit, setLastSeen_comm h, setLastPower_setLastSeen]
  | energy => exact setLastSeen_comm h ..

/-- R150 on one stream neither reads nor writes the other stream's entry. -/
theorem execShouldEmit_setLastSeen_ne {stream other : Stream} (h : other ≠ stream) (dt : Dt12) (s : State) (v : Option Dt12) :
    ∃ t, execShouldEmit stream dt s = .next t ∧
      execShouldEmit stream dt (s.setLastSeen other v) = .next (t.setLastSeen other v) := by
  have hswapped := execShouldEmit_cases stream dt (s.setLastSeen other v)
  rw [s.setLastSeen_lastSeen_ne v h.symm] at hswapped
  obtain ⟨hseen, hexec⟩ | ⟨hnew, hexec⟩ := execShouldEmit_cases stream dt s
  · obtain ⟨-, hexec'⟩ := hswapped.resolve_right fun hcase => hcase.1 hseen
    exact ⟨_, hexec, hexec'.trans (congrArg _ (respond_setLastSeen ..))⟩
  · obtain ⟨-, hexec'⟩ := hswapped.resolve_left fun hcase => hnew hcase.1
    rw [setLastSeen_comm h] at hexec'
    exact ⟨_, hexec, hexec'.trans (congrArg _ (respond_setLastSeen ..))⟩

/-- R200 on one stream neither reads nor writes the other stream's entry. -/
theorem encodeAt_setLastSeen_ne {stream other : Stream} (h : other ≠ stream) (time : Result Components) (rd : List Reading)
    (s : State) (v : Option Dt12) :
    encodeAt stream time rd (s.setLastSeen other v) = (encodeAt stream time rd s).setLastSeen other v := by
  have hframe (dt : Dt12) : composeFrame (s.setLastSeen other v) stream rd dt = composeFrame s stream rd dt := by
    simp [composeFrame]
  unfold encodeAt
  rw [State.setLastSeen_par, State.setLastSeen_lastSeen_ne _ _ h.symm]
  cases packTime s.par (streamPolicy stream) time with
  | error f => exact respond_setLastSeen ..
  | ok dt =>
    by_cases hseen : s.lastSeen stream = some dt
    · simp only [hseen, if_true]
      exact respond_setLastSeen ..
    · simp only [hseen, if_false, hframe]
      cases composeFrame s stream rd dt with
      | error f => exact respond_setLastSeen ..
      | ok built =>
        simp only [commit_setLastSeen_ne h]
        exact respond_setLastSeen ..

/-- A command on one stream is none of the writers of the other stream's entry (R29). -/
theorem quiet_of_other_stream {stream other : Stream} {i : Instr} (h : other ≠ stream)
    (hi : isEncode stream i ∨ ∃ dt, i = .shouldEmit stream dt) (t : State) : quiet other i t := by
  obtain henc | ⟨dt, rfl⟩ := hi
  · cases i with
    | encodeClock st rd => cases henc; exact .inl h.symm
    | encodeExplicit st ts rd => cases henc; exact .inl h.symm
    | _ => exact henc.elim
  · exact .inl h.symm

/-- With any other value in the other stream's entry, a command on one stream does the same to all else. -/
theorem exec_setLastSeen_ne {stream other : Stream} {i : Instr} (h : other ≠ stream)
    (hi : isEncode stream i ∨ ∃ dt, i = .shouldEmit stream dt) (s : State) (v : Option Dt12) :
    ∃ t, exec i s = .next t ∧ exec i (s.setLastSeen other v) = .next (t.setLastSeen other v) := by
  obtain henc | ⟨dt, rfl⟩ := hi
  · cases i with
    | encodeClock st rd =>
      cases henc
      exact ⟨_, rfl, by rw [← encodeAt_setLastSeen_ne h, ← s.setLastSeen_clock other v]; rfl⟩
    | encodeExplicit st ts rd =>
      cases henc
      exact ⟨_, rfl, by rw [← encodeAt_setLastSeen_ne h, ← s.setLastSeen_par other v]; rfl⟩
    | _ => exact henc.elim
  · exact execShouldEmit_setLastSeen_ne h dt s v

/-! ### The obligations -/

/-- Settles O19: the command is quiet on the other stream, and commutes with a write of its entry. -/
theorem streamsAreIndependent : Obligations.StreamsAreIndependent := by
  intro stream other i s v hother hi
  obtain ⟨t, hexec, hswapped⟩ := exec_setLastSeen_ne hother hi s v
  exact ⟨t, hexec, lastSeen_of_quiet hexec (quiet_of_other_stream hother hi t), hswapped⟩

/-- Settles O20: each of the six commands finishes with an answer that is a function of what R48's table lists. -/
theorem pureCommandsReadAndWriteOnlyWhatTheTableSays : Obligations.PureCommandsReadAndWriteOnlyWhatTheTableSays := by
  intro i s u hpar hreads
  cases i with
  | crc16 data => exact same_response_of_finish (answer := .ok (be 2 (crc16 data).toNat)) rfl rfl
  | encField tag value => exact same_response_of_finish rfl (by rw [hpar]; rfl)
  | packDtClock policy =>
    have hclock : s.clock = u.clock := hreads
    exact same_response_of_finish rfl (by rw [hpar, hclock]; rfl)
  | packDtExplicit policy ts => exact same_response_of_finish rfl (by rw [hpar]; rfl)
  | buildFrame dt ents =>
    have hcfg : s.cfg = u.cfg := hreads
    exact same_response_of_finish rfl (by rw [hpar, hcfg]; rfl)
  | compose stream dt rd =>
    obtain ⟨hcfg, hpower⟩ := hreads
    exact same_response_of_finish rfl (by rw [composePayload_congr hpar hcfg hpower]; rfl)
  | _ => exact hreads.elim

/-- Settles O23: the engine's swap (R120) and the big-endian store undo each other. -/
theorem crc16AnswersLowByteFirst : Obligations.Crc16AnswersLowByteFirst := by
  intro data s
  have hbytes := be_two_swap16 (~~~ crcReg Config.crcSeed data)
  rw [← hbytes]
  rfl

end Sys2Proof.Proofs
end

section
/-! The family of 30_encoding.md: the decoder and the encoder undo each other, which bytes are numerals and hex strings, what the
assembler writes, the status codes of each command, and an encode as its three primitives. -/

namespace Sys2Proof.Proofs

open Machine Safety

/-! ### Decoding (R61, R68, R69, R77) -/

theorem blobOk_iff {b : Bytes} : blobOk b = true ↔ b.length ≤ 65535 := by simp [blobOk]

/-- R62, R68, R69: an opcode's reader reads back the operands of a well-formed command, whatever follows them. -/
theorem operands_operandBytes {i : Instr} (h : i.wellFormed = true) (r : Bytes) :
    operands (opcode i) (operandBytes i ++ r) = .ok (i, r) := by
  cases i with
  | reset => rfl
  | crc16 data => simp [operands, opcode, operandBytes, takeBlob_blob (blobOk_iff.mp h), Except.map]
  | encField tag value =>
    simp [operands, opcode, operandBytes, takeEncField, takeU8, takeBlob_blob (blobOk_iff.mp h)]
  | packDtClock policy => simp [operands, opcode, operandBytes, takeU8, Except.map]
  | packDtExplicit policy ts =>
    simp [operands, opcode, operandBytes, takePackDtExplicit, takeU8, takeBlob_blob (blobOk_iff.mp h)]
  | shouldEmit stream dt =>
    simp [operands, opcode, operandBytes, takeShouldEmit, takeStream_streamByte, takeDt12_dtBytes]
  | buildFrame dt ents =>
    simp [operands, opcode, operandBytes, takeBuildFrame, List.append_assoc, takeDt12_dtBytes, takeEntries_entriesBytes h]
  | compose stream dt rd =>
    simp [operands, opcode, operandBytes, takeCompose, List.append_assoc, takeStream_streamByte, takeDt12_dtBytes,
      takeReadings_readingsBytes h]
  | encodeClock stream rd =>
    simp [operands, opcode, operandBytes, takeEncodeClock, takeStream_streamByte, takeReadings_readingsBytes h]
  | encodeExplicit stream ts rd =>
    obtain ⟨hts, hrd⟩ : blobOk ts = true ∧ readingsOk rd = true := by simpa [Instr.wellFormed] using h
    simp [operands, opcode, operandBytes, takeEncodeExplicit, List.append_assoc, takeStream_streamByte,
      takeBlob_blob (blobOk_iff.mp hts), takeReadings_readingsBytes hrd]

theorem decode_encode {i : Instr} (h : i.wellFormed = true) : decode (encode i) = .ok i := by
  have hread := operands_operandBytes h []
  rw [List.append_nil] at hread
  simp only [decode, encode, hread]

/-- The statement of `Laws.Opcode` for every command. -/
theorem opcode_statement : ∀ i : Instr, Laws.Opcode.Statement i
  | .reset => Laws.Opcode.reset
  | .crc16 data => Laws.Opcode.crc16 data
  | .encField tag value => Laws.Opcode.encField tag value
  | .packDtClock policy => Laws.Opcode.packDtClock policy
  | .packDtExplicit policy ts => Laws.Opcode.packDtExplicit policy ts
  | .shouldEmit stream dt => Laws.Opcode.shouldEmit stream dt
  | .buildFrame dt ents => Laws.Opcode.buildFrame dt ents
  | .compose stream dt rd => Laws.Opcode.compose stream dt rd
  | .encodeClock stream rd => Laws.Opcode.encodeClock stream rd
  | .encodeExplicit stream ts rd => Laws.Opcode.encodeExplicit stream ts rd

/-- A byte that is none of the ten opcodes of R68 names no format. -/
theorem operands_of_unlisted {op : Byte} (h : op ∉ [(0x00 : Byte), 0x10, 0x20, 0x30, 0x31, 0x40, 0x50, 0x60, 0x70, 0x71])
    (bs : Bytes) : operands op bs = .error (.reservedOpcode op) := by
  simp only [List.mem_cons, List.not_mem_nil, or_false, not_or] at h
  simp only [operands, h, if_false]

/-- R211: the step of a constructed block on bytes that are no command. -/
theorem step_of_decode_error {s : State} {t : Transaction} {rest : List Transaction} {e : DecodeError}
    (hconstructed : s.constructed = true) (hinbox : s.inbox = t :: rest) (hdecode : decode t.bytes = .error e) :
    step s = .next { s with inbox := rest, clock := t.clock, response := some [0x8F] } := by
  simp only [step, hconstructed, if_true, State.accept, hinbox, hdecode]
  rfl

/-! ### Numerals (R64, R65) -/

/-- Appending a digit to a string multiplies its value by ten and adds the digit's. -/
theorem digitsVal_append_singleton (ds : Bytes) (b : Byte) :
    digitsVal (ds ++ [b]) = 10 * digitsVal ds + (b.toNat - 0x30) := by
  simp [digitsVal]

theorem digitsVal_append (a b : Bytes) : digitsVal (a ++ b) = digitsVal a * 10 ^ b.length + digitsVal b := by
  induction b using List.reverseRecOn with
  | nil => simp [digitsVal]
  | append_singleton b x ih =>
    rw [← List.append_assoc, digitsVal_append_singleton, digitsVal_append_singleton, ih, List.length_append, pow_add]
    simp only [List.length_singleton]
    ring

/-- The bytes of an unsigned numeral with these digits before and after its point (R64). -/
def decimalBytes (ip fp : Bytes) : Bytes :=
  ip ++ if fp = [] then [] else 0x2E :: fp

/-- The rational that an unsigned numeral with these digits denotes (R64). -/
def decimalValue (ip fp : Bytes) : Rat :=
  (digitsVal ip : Rat) + (digitsVal fp : Rat) / 10 ^ fp.length

theorem mkRat_digitsVal_append (ip fp : Bytes) :
    mkRat (digitsVal (ip ++ fp)) (10 ^ fp.length) = decimalValue ip fp := by
  rw [digitsVal_append, decimalValue, Rat.mkRat_eq_div]
  push_cast
  field_simp

/-- A run of bytes that ends where the next byte breaks it is cut off whole. -/
theorem takeWhile_dropWhile_append {p : Byte → Bool} {ds rest : Bytes} (hds : ∀ x ∈ ds, p x = true)
    (hrest : ∀ x ∈ rest.head?, p x = false) : (ds ++ rest).takeWhile p = ds ∧ (ds ++ rest).dropWhile p = rest := by
  rw [List.takeWhile_append_of_pos hds, List.dropWhile_append_of_pos hds]
  cases rest with
  | nil => simp
  | cons x xs => simp [hrest x rfl]

/-- R64 without its sign: which bytes are an unsigned numeral, and its value. -/
theorem unsignedNumeral_eq_some_iff {b : Bytes} {q : Rat} :
    unsignedNumeral b = some q ↔ ∃ ip fp : Bytes, ip ≠ [] ∧ (∀ x ∈ ip, isDigit x = true) ∧ (∀ x ∈ fp, isDigit x = true) ∧
      b = decimalBytes ip fp ∧ q = decimalValue ip fp := by
  constructor
  · intro h
    have hb := List.takeWhile_append_dropWhile (p := isDigit) (l := b)
    have hdigits : ∀ x ∈ b.takeWhile isDigit, isDigit x = true := fun x hx => List.mem_takeWhile_imp hx
    unfold unsignedNumeral at h
    simp only at h
    split at h
    · cases h
    · rename_i hne
      split at h
      · rename_i hrest
        cases h
        refine ⟨_, [], hne, hdigits, by simp, ?_, ?_⟩
        · rw [hrest] at hb; simpa [decimalBytes] using hb.symm
        · rw [← mkRat_digitsVal_append]; simp
      · rename_i dot fp hrest
        split at h
        · rename_i hpoint
          obtain ⟨rfl, hfp, hall⟩ := hpoint
          cases h
          refine ⟨_, fp, hne, hdigits, List.all_eq_true.mp hall, ?_, mkRat_digitsVal_append ..⟩
          rw [hrest] at hb; simpa [decimalBytes, hfp] using hb.symm
        · cases h
  · rintro ⟨ip, fp, hne, hip, hfp, rfl, rfl⟩
    have hpoint : ∀ x ∈ (if fp = [] then [] else 0x2E :: fp : Bytes).head?, isDigit x = false := by
      intro x hx
      split at hx <;> cases hx
      rfl
    obtain ⟨htake, hdrop⟩ := takeWhile_dropWhile_append hip hpoint
    rw [← mkRat_digitsVal_append]
    simp only [unsignedNumeral, decimalBytes, htake, hdrop, hne, if_false]
    by_cases hempty : fp = []
    · simp [hempty]
    · simp [hempty, List.all_eq_true.mpr hfp]

/-- A minus is no digit, so an unsigned numeral does not begin with one. -/
theorem unsignedNumeral_minus (r : Bytes) : unsignedNumeral (0x2D :: r) = none := rfl

theorem numeral_minus (r : Bytes) : numeral (0x2D :: r) = (unsignedNumeral r).map fun q => -q := rfl

theorem numeral_unsigned {b : Bytes} {q : Rat} (h : unsignedNumeral b = some q) : numeral b = some q := by
  cases b with
  | nil => cases h
  | cons x r =>
    have hx : x ≠ 0x2D := by rintro rfl; rw [unsignedNumeral_minus] at h; cases h
    simp only [numeral, hx, if_false, h]

/-- What `numeral` answers, said once: an unsigned numeral, or a minus and the negation of one. -/
theorem numeral_eq_some_iff {b : Bytes} {q : Rat} :
    numeral b = some q ↔ unsignedNumeral b = some q ∨ ∃ r, b = 0x2D :: r ∧ unsignedNumeral r = some (-q) := by
  constructor
  · intro h
    cases b with
    | nil => cases h
    | cons x r =>
      by_cases hx : x = 0x2D
      · subst hx
        rw [numeral_minus, Option.map_eq_some_iff] at h
        obtain ⟨a, ha, rfl⟩ := h
        exact .inr ⟨r, rfl, by rw [ha, neg_neg]⟩
      · simp only [numeral, hx, if_false] at h
        exact .inl h
  · rintro (h | ⟨r, rfl, h⟩)
    · exact numeral_unsigned h
    · rw [numeral_minus, h, Option.map_some, neg_neg]

/-- The ASCII digit of a value below 10 (R65). -/
theorem digit_toNat {n : Nat} (h : n < 10) : (BitVec.ofNat 8 (0x30 + n)).toNat = 0x30 + n := by
  rw [BitVec.toNat_ofNat]; omega

theorem isDigit_digit {n : Nat} (h : n < 10) : isDigit (BitVec.ofNat 8 (0x30 + n)) = true := by
  simp only [isDigit, digit_toNat h, Bool.and_eq_true, decide_eq_true_eq]; omega

/-- The decimal form of `n` (R65): digits, at least one, with the value `n`, and no leading zero unless `n` is the one digit 0. -/
structure DecimalForm (n : Nat) (ds : Bytes) : Prop where
  ne_nil : ds ≠ []
  digits : ∀ x ∈ ds, isDigit x = true
  value : digitsVal ds = n
  leading : ds.head? = some 0x30 → n = 0 ∧ ds = [0x30]

theorem decimalForm_digit {n : Nat} (h : n < 10) : DecimalForm n [BitVec.ofNat 8 (0x30 + n)] where
  ne_nil := by simp
  digits := by simpa using isDigit_digit h
  value := by simp only [digitsVal, List.foldl_cons, List.foldl_nil, digit_toNat h]; omega
  leading hzero := by
    have hbyte := congrArg BitVec.toNat (Option.some.inj hzero)
    rw [digit_toNat h] at hbyte
    have hn : n = 0 := Nat.add_left_cancel hbyte
    exact ⟨hn, by rw [hn]; rfl⟩

/-- One more digit after the form of a number that is not zero. -/
theorem DecimalForm.append_digit {n d : Nat} {ds : Bytes} (h : DecimalForm n ds) (hn : n ≠ 0) (hd : d < 10) :
    DecimalForm (10 * n + d) (ds ++ [BitVec.ofNat 8 (0x30 + d)]) where
  ne_nil := by simp
  digits := by
    simp only [List.mem_append, List.mem_singleton]
    rintro x (hx | rfl)
    · exact h.digits x hx
    · exact isDigit_digit hd
  value := by rw [digitsVal_append_singleton, h.value, digit_toNat hd]; omega
  leading hzero := by
    rw [List.head?_append_of_ne_nil _ h.ne_nil] at hzero
    exact absurd (h.leading hzero).1 hn

/-- Each round of `decimalDigits` appends one digit to the form of the quotient. -/
theorem decimalForm_decimalDigits (fuel n : Nat) (h : n < 10 ^ (fuel + 1)) : DecimalForm n (decimalDigits (fuel + 1) n) := by
  induction fuel generalizing n with
  | zero => simpa [decimalDigits, show n < 10 by simpa using h] using decimalForm_digit (by simpa using h)
  | succ fuel ih =>
    rw [decimalDigits]
    split
    · rename_i hsmall; exact decimalForm_digit hsmall
    · rename_i hlarge
      have hfront := ih (n / 10) (by rw [pow_succ] at h; omega)
      have hform := hfront.append_digit (d := n % 10) (by omega) (by omega)
      rwa [Nat.div_add_mod] at hform

theorem decimalForm_natNumeral (n : Nat) : DecimalForm n (natNumeral n) := by
  refine decimalForm_decimalDigits _ _ ?_
  calc n < 2 ^ (Nat.log2 n + 1) := Nat.lt_log2_self
    _ ≤ 10 ^ (Nat.log2 n + 1) := Nat.pow_le_pow_left (by decide) _

theorem canonicalNumeral_eq (v : Int) :
    canonicalNumeral v = (if v < 0 then [0x2D] else []) ++ natNumeral v.natAbs := by
  unfold canonicalNumeral
  split <;> rfl

theorem unsignedNumeral_natNumeral (n : Nat) : unsignedNumeral (natNumeral n) = some (n : Rat) := by
  have h := decimalForm_natNumeral n
  refine unsignedNumeral_eq_some_iff.mpr ⟨natNumeral n, [], h.ne_nil, h.digits, by simp, by simp [decimalBytes], ?_⟩
  have hfraction : digitsVal [] = 0 := rfl
  simp [decimalValue, h.value, hfraction]

/-- A canonical numeral reads back as its integer (R65). -/
theorem numeral_canonicalNumeral (v : Int) : numeral (canonicalNumeral v) = some (v : Rat) := by
  have habs := unsignedNumeral_natNumeral v.natAbs
  rw [canonicalNumeral]
  split
  · have hv : -(v.natAbs : Int) = v := by omega
    rw [numeral_minus, habs, Option.map_some, ← Int.cast_natCast, ← Int.cast_neg, hv]
  · have hv : (v.natAbs : Int) = v := by omega
    rw [numeral_unsigned habs, ← Int.cast_natCast, hv]

/-! ### Hex strings (R105) -/

/-- The hex digits of R105 by their values and by their ASCII codes are the same. -/
theorem hexVal_eq_some_iff {x : Byte} {n : Nat} : hexVal x = some n ↔ isHexDigit x n := by
  unfold hexVal isHexDigit
  split_ifs <;> simp <;> omega

theorem isHexDigit_le {x : Byte} {n : Nat} (h : isHexDigit x n) : n ≤ 15 := by
  obtain ⟨hn, -⟩ | ⟨-, hn, -⟩ := h <;> omega

theorem isHexOf_nil_iff {h : Bytes} : isHexOf h [] ↔ h = [] := by
  simp [isHexOf]

/-- The hex string of a byte and more bytes: its two digits, then the hex string of the others. -/
theorem isHexOf_cons_iff {h : Bytes} {b : Byte} {d : Bytes} :
    isHexOf h (b :: d) ↔
      ∃ hi lo r, h = hi :: lo :: r ∧ isHexDigit hi (b.toNat / 16) ∧ isHexDigit lo (b.toNat % 16) ∧ isHexOf r d := by
  constructor
  · rintro ⟨hlen, hdigits⟩
    match h, hlen with
    | hi :: lo :: r, hlen =>
      obtain ⟨hhi, hlo⟩ := hdigits 0 (by simp)
      refine ⟨hi, lo, r, rfl, hhi, hlo, by simpa [Nat.mul_add] using hlen, fun k hk => ?_⟩
      have hnext := hdigits (k + 1) (by simpa using hk)
      simpa [Nat.mul_add, Nat.add_right_comm] using hnext
  · rintro ⟨hi, lo, r, rfl, hhi, hlo, hlen, hdigits⟩
    refine ⟨by simp [hlen, Nat.mul_add], fun k hk => ?_⟩
    cases k with
    | zero => exact ⟨hhi, hlo⟩
    | succ k => simpa [Nat.mul_add, Nat.add_right_comm] using hdigits k (by simpa using hk)

/-- A byte is determined by its two halves, the values of its hex digits. -/
theorem byte_of_nibbles {b : Byte} {h l : Nat} (hh : h ≤ 15) (hl : l ≤ 15) :
    BitVec.ofNat 8 (16 * h + l) = b ↔ b.toNat / 16 = h ∧ b.toNat % 16 = l := by
  rw [← BitVec.toNat_inj, BitVec.toNat_ofNat]
  omega

theorem hexDecode_eq_nil_iff {h : Bytes} : hexDecode h = some [] ↔ h = [] := by
  match h with
  | [] => simp [hexDecode]
  | [_] => simp [hexDecode]
  | hi :: lo :: r =>
    simp only [hexDecode, reduceCtorEq, iff_false]
    split <;> simp

/-- What `hexDecode` reads first: two digits, which are the halves of the first byte. -/
theorem hexDecode_eq_cons_iff {h : Bytes} {b : Byte} {d : Bytes} :
    hexDecode h = some (b :: d) ↔
      ∃ hi lo r, h = hi :: lo :: r ∧ isHexDigit hi (b.toNat / 16) ∧ isHexDigit lo (b.toNat % 16) ∧ hexDecode r = some d := by
  constructor
  · intro hdecode
    match h with
    | [] => simp [hexDecode] at hdecode
    | [_] => cases hdecode
    | hi :: lo :: r =>
      unfold hexDecode at hdecode
      split at hdecode
      · rename_i x y e hhi hlo hr
        rw [hexVal_eq_some_iff] at hhi hlo
        cases hdecode
        obtain ⟨hx, hy⟩ := (byte_of_nibbles (isHexDigit_le hhi) (isHexDigit_le hlo)).mp rfl
        exact ⟨hi, lo, r, rfl, by rwa [hx], by rwa [hy], hr⟩
      · cases hdecode
  · rintro ⟨hi, lo, r, rfl, hhi, hlo, hr⟩
    have hb := (byte_of_nibbles (isHexDigit_le hhi) (isHexDigit_le hlo)).mpr ⟨rfl, rfl⟩
    simp only [hexDecode, hexVal_eq_some_iff.mpr hhi, hexVal_eq_some_iff.mpr hlo, hr, hb]

/-- The decoder of R105 reads exactly the hex strings. -/
theorem hexDecode_eq_some_iff {h d : Bytes} : hexDecode h = some d ↔ isHexOf h d := by
  induction d generalizing h with
  | nil => rw [hexDecode_eq_nil_iff, isHexOf_nil_iff]
  | cons b d ih => simp only [hexDecode_eq_cons_iff, isHexOf_cons_iff, ih]

/-! ### The assembler (R74, R75) -/

theorem asmU8_of_writesByte {o : AsmOperand} {b : Byte} (h : writesByte o b) : asmU8 o = some b := by
  obtain ⟨hi, lo, rfl, hhi, hlo⟩ := h
  have hb := (byte_of_nibbles (isHexDigit_le hhi) (isHexDigit_le hlo)).mpr ⟨rfl, rfl⟩
  simp only [asmU8, hexVal_eq_some_iff.mpr hhi, hexVal_eq_some_iff.mpr hlo, hb]

theorem asmSelector_of_writesSelector {o : AsmOperand} {b : Byte} (h : writesSelector o b) : asmSelector o = some b := by
  obtain ⟨rfl, rfl⟩ | ⟨rfl, rfl⟩ | hbyte := h
  · rfl
  · rfl
  · have hread := asmU8_of_writesByte hbyte
    obtain ⟨hi, lo, rfl, -⟩ := hbyte
    exact hread

theorem asmBlob_of_writesBlob {a : AsmBlob} {v : Bytes} (h : writesBlob a v) (hok : blobOk v = true) :
    asmBlob (.blob a) = some (blob v) := by
  have hbytes : a.bytes = some v := by
    cases a with
    | quoted b =>
      obtain ⟨rfl, hascii⟩ := h
      simpa [AsmBlob.bytes] using hascii
    | hex x => exact hexDecode_eq_some_iff.mpr h
  simp [asmBlob, hbytes, blobOk_iff.mp hok]

/-- A dt12 operand is read exactly if it is the hex string of 12 bytes. -/
theorem asmDt_eq_some_iff {o : AsmOperand} {v : Bytes} : asmDt o = some v ↔ ∃ dt, writesDt o dt ∧ v = dtBytes dt := by
  constructor
  · intro h
    unfold asmDt at h
    split at h
    · rename_i x
      rw [Option.bind_eq_some_iff] at h
      obtain ⟨d, hd, hlen⟩ := h
      split at hlen
      · rename_i h12
        cases hlen
        have hd12 := dtBytes_dtOfBytes h12
        exact ⟨dtOfBytes v, ⟨x, rfl, by rw [hd12]; exact hexDecode_eq_some_iff.mp hd⟩, hd12.symm⟩
      · cases hlen
    · cases h
  · rintro ⟨dt, ⟨x, rfl, hhex⟩, rfl⟩
    simp [asmDt, hexDecode_eq_some_iff.mpr hhex, dtBytes_length]

theorem asmEntryList_of_writes {es : List (Byte × Byte × AsmBlob)} {ents : List RawEntry}
    (h : List.Forall₂ (fun a e => writesByte (.lit a.1 a.2.1) e.tag ∧ writesBlob a.2.2 e.value) es ents)
    (hok : ∀ e ∈ ents, blobOk e.value = true) : asmEntryList es = some (ents.flatMap entryBytes) := by
  induction h with
  | nil => rfl
  | @cons a e es ents hwrites _ ih =>
    obtain ⟨htag, hvalue⟩ := hwrites
    have hrest := ih fun x hx => hok x (List.mem_cons_of_mem _ hx)
    have hblob := asmBlob_of_writesBlob hvalue (hok e List.mem_cons_self)
    simp only [asmEntryList, asmU8_of_writesByte htag, hblob, hrest, List.flatMap_cons, entryBytes]

theorem asmEntries_of_writesEntries {o : AsmOperand} {ents : List RawEntry} (h : writesEntries o ents)
    (hok : entriesOk ents = true) : asmEntries o = some (entriesBytes ents) := by
  obtain ⟨es, rfl, hwrites⟩ := h
  obtain ⟨hlen, hvalues⟩ : ents.length ≤ 65535 ∧ ∀ e ∈ ents, blobOk e.value = true := by simpa [entriesOk] using hok
  simp [asmEntries, asmEntryList_of_writes hwrites hvalues, hwrites.length_eq, hlen, entriesBytes]

theorem asmReadingList_of_writes {kv : List (Bytes × Bytes)} {rd : List Reading}
    (h : List.Forall₂ (fun a r => writesBlob (.quoted a.1) r.key ∧ writesBlob (.quoted a.2) r.value) kv rd)
    (hok : ∀ r ∈ rd, blobOk r.key = true ∧ blobOk r.value = true) :
    asmReadingList kv = some (rd.flatMap readingBytes) := by
  induction h with
  | nil => rfl
  | @cons a r kv rd hwrites _ ih =>
    obtain ⟨hkey, hvalue⟩ := hwrites
    obtain ⟨hkeyOk, hvalueOk⟩ := hok r List.mem_cons_self
    have hrest := ih fun x hx => hok x (List.mem_cons_of_mem _ hx)
    simp only [asmReadingList, asmBlob_of_writesBlob hkey hkeyOk, asmBlob_of_writesBlob hvalue hvalueOk, hrest,
      List.flatMap_cons, readingBytes]

theorem asmReadings_of_writesReadings {o : AsmOperand} {rd : List Reading} (h : writesReadings o rd)
    (hok : readingsOk rd = true) : asmReadings o = some (readingsBytes rd) := by
  obtain ⟨kv, rfl, hwrites⟩ := h
  obtain ⟨hlen, hpairs⟩ : rd.length ≤ 255 ∧ ∀ r ∈ rd, blobOk r.key = true ∧ blobOk r.value = true := by
    simpa [readingsOk] using hok
  simp [asmReadings, asmReadingList_of_writes hwrites hpairs, hwrites.length_eq, hlen, readingsBytes]

theorem asmDt_of_writesDt {o : AsmOperand} {dt : Dt12} (h : writesDt o dt) : asmDt o = some (dtBytes dt) :=
  asmDt_eq_some_iff.mpr ⟨dt, h, rfl⟩

/-- A line that writes a well-formed command assembles to its encoding. -/
theorem assemble_of_writesLine {p : Par} {m : Mnemonic} {ops : List AsmOperand} {i : Instr} (h : writesLine p m ops i)
    (hok : i.wellFormed = true) : assemble p m ops = some (encode i) := by
  cases i with
  | reset =>
    obtain ⟨rfl, rfl⟩ := h
    rfl
  | crc16 data =>
    obtain ⟨rfl, d, rfl, hdata⟩ := h
    simp [assemble, asmBlob_of_writesBlob hdata hok, encode, opcode, operandBytes]
  | encField tag value =>
    obtain ⟨v, hvalue, ⟨rfl, t, rfl, htag⟩ | ⟨rfl, hpseudo⟩⟩ := h
    · simp [assemble, asmEncField, asmU8_of_writesByte htag, asmBlob_of_writesBlob hvalue hok, encode, opcode, operandBytes]
    · obtain ⟨rfl, rfl⟩ | ⟨rfl, rfl⟩ | ⟨rfl, rfl⟩ | ⟨rfl, rfl⟩ := hpseudo <;>
        simp [assemble, asmEncField, asmBlob_of_writesBlob hvalue hok, encode, opcode, operandBytes]
  | packDtClock policy =>
    obtain ⟨rfl, o, rfl, hpolicy⟩ := h
    simp [assemble, asmSelector_of_writesSelector hpolicy, encode, opcode, operandBytes]
  | packDtExplicit policy ts =>
    obtain ⟨rfl, o, t, rfl, hpolicy, hts⟩ := h
    simp [assemble, asmSelector_of_writesSelector hpolicy, asmBlob_of_writesBlob hts hok, encode, opcode, operandBytes]
  | shouldEmit stream dt =>
    obtain ⟨rfl, o, d, rfl, hstream, hdt⟩ := h
    simp [assemble, asmSelector_of_writesSelector hstream, asmDt_of_writesDt hdt, encode, opcode, operandBytes]
  | buildFrame dt ents =>
    obtain ⟨rfl, d, e, rfl, hdt, hents⟩ := h
    simp [assemble, asmDt_of_writesDt hdt, asmEntries_of_writesEntries hents hok, encode, opcode, operandBytes]
  | compose stream dt rd =>
    obtain ⟨rfl, o, d, r, rfl, hstream, hdt, hrd⟩ := h
    simp [assemble, asmSelector_of_writesSelector hstream, asmDt_of_writesDt hdt, asmReadings_of_writesReadings hrd hok,
      encode, opcode, operandBytes]
  | encodeClock stream rd =>
    obtain ⟨rfl, o, r, rfl, hstream, hrd⟩ := h
    simp [assemble, asmSelector_of_writesSelector hstream, asmReadings_of_writesReadings hrd hok, encode, opcode, operandBytes]
  | encodeExplicit stream ts rd =>
    obtain ⟨rfl, o, t, r, rfl, hstream, hts, hrd⟩ := h
    obtain ⟨htsOk, hrdOk⟩ : blobOk ts = true ∧ readingsOk rd = true := by simpa [Instr.wellFormed] using hok
    simp [assemble, asmSelector_of_writesSelector hstream, asmBlob_of_writesBlob hts htsOk,
      asmReadings_of_writesReadings hrd hrdOk, encode, opcode, operandBytes]

theorem asmDt_eq_none {d : AsmOperand} (h : ∀ dt, ¬ writesDt d dt) : asmDt d = none := by
  rw [Option.eq_none_iff_forall_ne_some]
  intro v hv
  obtain ⟨dt, hdt, -⟩ := asmDt_eq_some_iff.mp hv
  exact h dt hdt

/-! ### The status of every response (R72, R73) -/

/-- The row of R72 for a command: the statuses it can answer. IllegalCommand is the decoder's (R225). -/
def statusRow : Instr → List Status
  | .reset => [.ok]
  | .crc16 _ => [.ok]
  | .encField _ _ => [.ok, .fault .invalidEntry]
  | .packDtClock _ => [.ok, .fault .invalidTimestamp]
  | .packDtExplicit _ _ => [.ok, .fault .invalidTimestamp]
  | .shouldEmit _ _ => [.ok]
  | .buildFrame _ _ => [.ok, .fault .invalidEntry, .fault .frameTooLong]
  | .compose _ _ _ => [.ok, .fault .missingField, .fault .invalidEntry]
  | .encodeClock _ _ | .encodeExplicit _ _ _ =>
    [.ok, .suppressed, .fault .missingField, .fault .invalidEntry, .fault .invalidTimestamp, .fault .frameTooLong]

/-- The row of R72 for a command: what it says of the payload of an OK. -/
def okPayload : Instr → Bytes → Prop
  | .reset, payload => payload = []
  | .crc16 _, payload => payload.length = 2
  | .packDtClock _, payload | .packDtExplicit _ _, payload => payload.length = 12
  | .shouldEmit _ _, payload => payload = [0x01] ∨ payload = [0x00]
  | _, _ => True

/-- The response is a status of the row; only OK carries a payload, and one that satisfies `ok` (R72). -/
def AnswersIn (row : List Status) (ok : Bytes → Prop) (t : State) : Prop :=
  ∃ c ∈ row, ∃ payload, t.response = some (c.code :: payload) ∧ (c ≠ .ok → payload = []) ∧ (c = .ok → ok payload)

section AnswersIn

variable {row : List Status} {ok : Bytes → Prop}

theorem answersIn_respondOk {payload : Bytes} (hrow : .ok ∈ row) (hok : ok payload) (s : State) :
    AnswersIn row ok (s.respondOk payload) :=
  ⟨.ok, hrow, payload, rfl, fun hne => absurd rfl hne, fun _ => hok⟩

theorem answersIn_alone {c : Status} (hrow : c ∈ row) (hne : c ≠ .ok) (s : State) : AnswersIn row ok (s.respond c []) :=
  ⟨c, hrow, [], rfl, fun _ => rfl, fun h => absurd h hne⟩

theorem answersIn_raise {f : FaultCode} (hrow : .fault f ∈ row) (s : State) : AnswersIn row ok (s.raise f) :=
  answersIn_alone hrow (by simp) s

/-- A command that ends in `State.finish` answers in a row that holds OK and each fault of its computation. -/
theorem answersIn_finish {r : Result Bytes} (hrow : .ok ∈ row) (hok : ∀ b, r = .ok b → ok b)
    (hfault : ∀ f, r = .error f → .fault f ∈ row) (s : State) : AnswersIn row ok (s.finish r) := by
  cases r with
  | ok b => exact answersIn_respondOk hrow (hok b rfl) s
  | error f => exact answersIn_raise (hfault f rfl) s

end AnswersIn

theorem map_ok {α β : Type} {g : α → β} {r : Result α} {b : β} (h : r.map g = .ok b) : ∃ a, r = .ok a ∧ b = g a := by
  cases r with
  | ok a => cases h; exact ⟨a, rfl, rfl⟩
  | error f => cases h

theorem map_fault {α β : Type} {g : α → β} {r : Result α} {f : FaultCode} (h : r.map g = .error f) : r = .error f := by
  cases r with
  | ok a => cases h
  | error f => cases h; rfl

theorem encFieldBytes_fault {p : Par} {e : RawEntry} {f : FaultCode} (h : encFieldBytes p e = .error f) :
    f = .invalidEntry := by
  unfold encFieldBytes at h
  split at h
  · rename_i hinterp; cases h; exact interp_fault hinterp
  · exact encodeField_fault h

theorem buildFrame_fault_mem {cfg : Cfg} {p : Par} {snap : Snapshot} {dt : Dt12} {f : FaultCode}
    (h : buildFrame cfg p snap dt = .error f) : f = .invalidEntry ∨ f = .frameTooLong := by
  obtain ⟨hf, -⟩ | ⟨-, -, ⟨hf, -⟩ | ⟨hf, -⟩⟩ := buildFrame_fault h
  · exact .inl hf
  · exact .inl hf
  · exact .inr hf

theorem buildRaw_fault {cfg : Cfg} {p : Par} {ents : List RawEntry} {dt : Dt12} {f : FaultCode}
    (h : buildRaw cfg p ents dt = .error f) : f = .invalidEntry ∨ f = .frameTooLong := by
  unfold buildRaw at h
  split at h
  · rename_i hinterp; cases h; exact .inl (interpAll_fault hinterp)
  · exact buildFrame_fault_mem h

theorem composePayload_fault {s : State} {stream : Stream} {dt : Dt12} {rd : List Reading} {f : FaultCode}
    (h : composePayload s stream dt rd = .error f) : f = .missingField ∨ f = .invalidEntry := by
  obtain ⟨g, hcompose, hpayload⟩ | ⟨snap, -, ⟨rs, -, -, hpayload⟩ | ⟨-, hpayload⟩⟩ := composePayload_cases s stream dt rd <;>
    cases hpayload.symm.trans h
  · exact composeSnapshot_fault hcompose
  · exact .inr rfl

/-- Both PACK_DT commands, from the time that their source gave. -/
theorem answersIn_packTime {policy : Policy} {time : Result Components}
    (htime : ∀ g, time = .error g → g = .invalidTimestamp) (s : State) :
    AnswersIn [.ok, .fault .invalidTimestamp] (fun payload => payload.length = 12)
      (s.finish ((packTime s.par policy time).map dtBytes)) := by
  refine answersIn_finish (by simp) (fun b hb => ?_) (fun f hf => ?_) s
  · obtain ⟨dt, -, rfl⟩ := map_ok hb
    exact dtBytes_length dt
  · simp [packTime_fault htime (map_fault hf)]

/-- Both encodes, from the time that their source gave: each end of R200 has a status of the row. -/
theorem answersIn_encodeAt {time : Result Components} (htime : ∀ g, time = .error g → g = .invalidTimestamp) (stream : Stream)
    (rd : List Reading) (s : State) :
    AnswersIn [.ok, .suppressed, .fault .missingField, .fault .invalidEntry, .fault .invalidTimestamp, .fault .frameTooLong]
      (fun _ => True) (encodeAt stream time rd s) := by
  obtain ⟨f, hpack, h⟩ | ⟨dt, -, ⟨-, h⟩ | ⟨-, ⟨f, hcompose, h⟩ | ⟨snap, -, ⟨f, hbuild, h⟩ | ⟨frame, -, h⟩⟩⟩⟩ :=
    encodeAt_cases stream time rd s <;> rw [h]
  · exact answersIn_raise (by simp [packTime_fault htime hpack]) s
  · exact answersIn_alone (by simp) (by simp) s
  · refine answersIn_raise ?_ s
    obtain rfl | rfl := composeSnapshot_fault hcompose <;> simp
  · refine answersIn_raise ?_ s
    obtain rfl | rfl := buildFrame_fault_mem hbuild <;> simp
  · exact answersIn_respondOk (by simp) trivial _

theorem ok_mem_statusRow (i : Instr) : .ok ∈ statusRow i := by
  cases i <;> simp [statusRow]

/-- Every command answers in its row of R72. -/
theorem exec_answersIn (i : Instr) (s : State) : ∃ t, exec i s = .next t ∧ AnswersIn (statusRow i) (okPayload i) t := by
  cases i with
  | reset => exact ⟨_, rfl, answersIn_respondOk (ok := okPayload .reset) (ok_mem_statusRow _) rfl _⟩
  | crc16 data => exact ⟨_, rfl, answersIn_respondOk (ok_mem_statusRow _) (be_length ..) _⟩
  | encField tag value =>
    refine ⟨_, rfl, answersIn_finish (ok_mem_statusRow _) (fun _ _ => trivial) (fun f hf => ?_) s⟩
    simp [statusRow, encFieldBytes_fault (map_fault hf)]
  | packDtClock policy => exact ⟨_, rfl, answersIn_packTime (by simp) s⟩
  | packDtExplicit policy ts => exact ⟨_, rfl, answersIn_packTime (fun _ => explicitTime_fault) s⟩
  | shouldEmit stream dt =>
    obtain ⟨-, h⟩ | ⟨-, h⟩ := execShouldEmit_cases stream dt s
    · exact ⟨_, h, answersIn_respondOk (ok_mem_statusRow _) (.inr rfl) _⟩
    · exact ⟨_, h, answersIn_respondOk (ok_mem_statusRow _) (.inl rfl) _⟩
  | buildFrame dt ents =>
    refine ⟨_, rfl, answersIn_finish (ok_mem_statusRow _) (fun _ _ => trivial) (fun f hf => ?_) s⟩
    obtain rfl | rfl := buildRaw_fault (map_fault hf) <;> simp [statusRow]
  | compose stream dt rd =>
    refine ⟨_, rfl, answersIn_finish (ok_mem_statusRow _) (fun _ _ => trivial) (fun f hf => ?_) s⟩
    obtain rfl | rfl := composePayload_fault hf <;> simp [statusRow]
  | encodeClock stream rd => exact ⟨_, rfl, answersIn_encodeAt (by simp) stream rd s⟩
  | encodeExplicit stream ts rd => exact ⟨_, rfl, answersIn_encodeAt (fun _ => explicitTime_fault) stream rd s⟩

theorem statusCode_eq_illegalCommand {c : Status} : c.code = 0x8F ↔ c = .fault .illegalCommand := by
  rcases c with _ | _ | f
  · simp [Status.code]
  · simp [Status.code]
  · cases f <;> simp [Status.code, FaultCode.code]

theorem illegalCommand_not_mem_statusRow (i : Instr) : .fault .illegalCommand ∉ statusRow i := by
  cases i <;> simp [statusRow]

theorem exec_ne_illegalCommand {i : Instr} {s t : State} (hexec : exec i s = .next t) : t.response ≠ some [0x8F] := by
  intro hillegal
  obtain ⟨u, hu, c, hrow, payload, hresponse, -⟩ := exec_answersIn i s
  cases hu.symm.trans hexec
  rw [hresponse, Option.some.injEq, List.cons.injEq, statusCode_eq_illegalCommand] at hillegal
  obtain ⟨rfl, -⟩ := hillegal
  exact illegalCommand_not_mem_statusRow i hrow

/-! ### An encode as its three primitives (R166, R200, D37) -/

theorem policyOf_streamByte (stream : Stream) : policyOf (streamByte stream) = streamPolicy stream := by
  cases stream <;> rfl

theorem decimalDigits_length_le (fuel n : Nat) : (decimalDigits fuel n).length ≤ fuel := by
  induction fuel generalizing n with
  | zero => simp [decimalDigits]
  | succ fuel ih =>
    rw [decimalDigits]
    split
    · simp
    · simpa using ih (n / 10)

/-- The numeral of a number that a u32 field holds fits a blob (R62, R102). -/
theorem canonicalNumeral_length_le {v : Nat} (h : v < 2 ^ 32) : (canonicalNumeral v).length ≤ 33 := by
  have hlog : Nat.log2 v ≤ 32 := by
    by_cases hzero : v = 0
    · subst hzero; decide
    · exact ((Nat.log2_lt hzero).mpr h).le
  have hlen := decimalDigits_length_le (Nat.log2 v + 1) v
  have hsign : canonicalNumeral v = natNumeral v := by simp [canonicalNumeral]
  rw [hsign, natNumeral]
  omega

theorem valueBytes_natCast (v : Nat) : valueBytes (.num v) = some (canonicalNumeral v) := by
  simp [valueBytes]

/-- The raw entry carries the entry unchanged: its value bytes fit a blob, and it is interpreted as the entry (R101, R188, D37). -/
structure Carries (p : Par) (e : Entry) (r : RawEntry) : Prop where
  tag : r.tag = e.tag
  bytes : valueBytes e.value = some r.value
  fits : r.value.length ≤ 65535
  interp : interp p r = .ok e

/-- Every entry that encodes has a raw entry that carries it. -/
theorem exists_carries_of_encodeField {p : Par} {e : Entry} {b : Bytes} (h : encodeField p e = .ok b) : ∃ r, Carries p e r := by
  obtain ⟨v, rfl, hv, -⟩ | ⟨v, rfl, -, hv, -⟩ | ⟨x, rfl, hU32, hU16, -, hlen, -⟩ | ⟨x, d, rfl, hU32, hU16, hAscii, hdecode, hlen, -⟩ :=
    encodeField_ok h
  · have hlen := canonicalNumeral_length_le hv
    exact ⟨⟨p.tagU32, canonicalNumeral v⟩, rfl, valueBytes_natCast v, by simp only; omega,
      by simp [Machine.interp, numeral_canonicalNumeral]⟩
  · have hlen := canonicalNumeral_length_le (v := v) (by omega)
    exact ⟨⟨p.tagU16, canonicalNumeral v⟩, rfl, valueBytes_natCast v, by simp only; omega,
      by simp [Machine.interp, numeral_canonicalNumeral]⟩
  · exact ⟨⟨p.tagAscii, x⟩, rfl, rfl, by simp only; omega, by simp [Machine.interp, hU32, hU16]⟩
  · obtain ⟨hdouble, -⟩ := hexDecode_eq_some_iff.mp hdecode
    exact ⟨⟨p.tagOctet, x⟩, rfl, rfl, by simp only; omega, by simp [Machine.interp, hU32, hU16, hAscii]⟩

/-- Every snapshot that encodes has an `entries` form that carries each of its entries. -/
theorem exists_rawEntries_of_encodeFields {p : Par} {snap : Snapshot} {fields : List Bytes}
    (h : List.Forall₂ (fun e b => encodeField p e = .ok b) snap fields) :
    ∃ rs, rawEntries snap = some rs ∧ List.Forall₂ (Carries p) snap rs := by
  induction h with
  | nil => exact ⟨[], rfl, .nil⟩
  | @cons e b es bs hencode _ ih =>
    obtain ⟨r, hr⟩ := exists_carries_of_encodeField hencode
    obtain ⟨rs, hraw, hrs⟩ := ih
    refine ⟨r :: rs, ?_, .cons hr hrs⟩
    simp only [rawEntries, hr.bytes, hraw, hr.fits, if_true, ← hr.tag]

theorem interpAll_of_carries {p : Par} {snap : Snapshot} {rs : List RawEntry} (h : List.Forall₂ (Carries p) snap rs) :
    interpAll p rs = .ok snap :=
  interpAll_ok_iff.mpr (h.flip.imp fun _ _ hr => hr.interp)

theorem entriesOk_of_carries {p : Par} {snap : Snapshot} {rs : List RawEntry} (h : List.Forall₂ (Carries p) snap rs)
    (hcount : snap.length ≤ 255) : entriesOk rs = true := by
  have hfits : ∀ r ∈ rs, r.value.length ≤ 65535 := by
    clear hcount
    induction h with
    | nil => simp
    | cons hr _ ih => simpa using ⟨hr.fits, ih⟩
  have hlen := h.length_eq
  simpa [entriesOk, blobOk_iff, show rs.length ≤ 65535 by omega] using hfits

/-- An encode that answers OK has packed a datetime, composed a snapshot and built its frame (R200). -/
theorem encodeAt_ok {stream : Stream} {time : Result Components} {rd : List Reading} {s : State} {f : Bytes}
    (h : answersOk (encodeAt stream time rd s) f) :
    ∃ dt snap frame, packTime s.par (streamPolicy stream) time = .ok dt ∧
      composeSnapshot s.cfg s.par s.lastPower stream rd dt = .ok snap ∧ buildFrame s.cfg s.par snap dt = .ok frame ∧
      f = blob frame := by
  obtain ⟨g, -, he⟩ | ⟨dt, hpack, ⟨-, he⟩ | ⟨-, ⟨g, -, he⟩ | ⟨snap, hcompose, ⟨g, -, he⟩ | ⟨frame, hbuild, he⟩⟩⟩⟩ :=
    encodeAt_cases stream time rd s <;> rw [he] at h <;> obtain ⟨hstatus, hpayload⟩ := answersOk_respond.mp h
  case inr.inr.inr.inr => exact ⟨dt, snap, frame, hpack, hcompose, hbuild, hpayload.symm⟩
  all_goals cases hstatus

/-- The three primitives answer what the encode computes (R166, R188, R200). -/
theorem primitives_of_encodeAt {stream : Stream} {time : Result Components} {rd : List Reading} {s : State} {f : Bytes}
    (h : answersOk (encodeAt stream time rd s) f) :
    ∃ dt payload ents, packTime s.par (streamPolicy stream) time = .ok dt ∧ composePayload s stream dt rd = .ok payload ∧
      decode (0x50 :: dtBytes dt ++ payload) = .ok (.buildFrame dt ents) ∧
      (buildRaw s.cfg s.par ents dt).map blob = .ok f := by
  obtain ⟨dt, snap, frame, hpack, hcompose, hbuild, rfl⟩ := encodeAt_ok h
  obtain ⟨fields, hfields, hcount, -⟩ := buildFrame_ok_iff.mp hbuild
  obtain ⟨rs, hraw, hrs⟩ := exists_rawEntries_of_encodeFields (encodeFields_ok_iff.mp hfields)
  have hok := entriesOk_of_carries hrs hcount
  have hlen : rs.length ≤ 65535 := by have := hrs.length_eq; omega
  refine ⟨dt, entriesBytes rs, rs, hpack, ?_, decode_encode (i := .buildFrame dt rs) hok, ?_⟩
  · simp only [composePayload, hcompose, snapshotPayload, hraw, hlen, if_true]
  · simp only [buildRaw, interpAll_of_carries hrs, hbuild, Except.map]

/-! ### The obligations -/

/-- Settles O10: each opcode's reader reads back the operands that the encoder writes. -/
theorem decodeUndoesEncode : Obligations.DecodeUndoesEncode :=
  fun _ => decode_encode

/-- Settles O11: `decode_ok`, which follows the readers operand by operand. -/
theorem encodeUndoesDecode : Obligations.EncodeUndoesDecode := by
  intro c i h
  obtain ⟨hbytes, hwf⟩ := decode_ok h
  exact ⟨hwf, hbytes.symm⟩

/-- Settles O7: the reserved values are those that R68 does not list. -/
theorem reservedOpcodesAreIllegal : Obligations.ReservedOpcodesAreIllegal := by
  unfold Obligations.ReservedOpcodesAreIllegal
  intro reserved
  have hlisted : ∀ op ∈ [(0x00 : Byte), 0x10, 0x20, 0x30, 0x31, 0x40, 0x50, 0x60, 0x70, 0x71], ¬ reserved op.toNat := by
    decide
  refine ⟨fun i => hlisted _ (opcode_statement i).2.2, by decide +kernel, ?_⟩
  intro s t rest op bs hconstructed hinbox hbytes hreserved
  have hoperands := operands_of_unlisted (fun hmem => hlisted op hmem hreserved) bs
  exact step_of_decode_error hconstructed hinbox (by simp only [hbytes, decode, hoperands]; rfl)

/-- Settles O9: the decoder evaluated on the written bytes. -/
theorem writtenCommandsDecode : Obligations.WrittenCommandsDecode :=
  ⟨rfl, rfl, rfl, rfl, rfl⟩

/-- Settles O26: R64's grammar is a sign and an unsigned numeral. -/
theorem numeralsAreTheStatedGrammar : Obligations.NumeralsAreTheStatedGrammar := by
  intro b q
  rw [numeral_eq_some_iff]
  constructor
  · rintro (h | ⟨r, rfl, h⟩)
    · obtain ⟨ip, fp, hne, hip, hfp, rfl, rfl⟩ := unsignedNumeral_eq_some_iff.mp h
      exact ⟨false, ip, fp, hne, hip, hfp, by simp [decimalBytes], by simp [decimalValue]⟩
    · obtain ⟨ip, fp, hne, hip, hfp, rfl, hq⟩ := unsignedNumeral_eq_some_iff.mp h
      exact ⟨true, ip, fp, hne, hip, hfp, by simp [decimalBytes], by
        rw [neg_eq_iff_eq_neg.mp hq]; simp [decimalValue]⟩
  · rintro ⟨neg, ip, fp, hne, hip, hfp, rfl, rfl⟩
    have h : unsignedNumeral (decimalBytes ip fp) = some (decimalValue ip fp) :=
      unsignedNumeral_eq_some_iff.mpr ⟨ip, fp, hne, hip, hfp, rfl, rfl⟩
    cases neg with
    | false => left; simpa [decimalBytes, decimalValue] using h
    | true => right; exact ⟨decimalBytes ip fp, by simp [decimalBytes], by simpa [decimalValue] using h⟩
/-- Settles O27: the digits of the canonical numeral are the decimal form of the absolute value. -/
theorem canonicalNumeralsDenoteTheirInteger : Obligations.CanonicalNumeralsDenoteTheirInteger := by
  intro v
  have h := decimalForm_natNumeral v.natAbs
  exact ⟨numeral_canonicalNumeral v, natNumeral v.natAbs, canonicalNumeral_eq v, h.ne_nil, h.digits,
    fun hzero => (h.leading hzero).2⟩
/-- Settles O57: the first part line by line, the second because only a written dt12 is read as one. -/
theorem assembledLinesAreEncodings : Obligations.AssembledLinesAreEncodings := by
  refine ⟨fun p m ops i => assemble_of_writesLine, fun p d hd o e r => ?_⟩
  simp [assemble, asmDt_eq_none hd]

/-- Settles O15: each command answers in its row of R72, and the rows are those of the statement. -/
theorem responsesFollowTheStatusTable : Obligations.ResponsesFollowTheStatusTable := by
  intro i s
  obtain ⟨t, hexec, c, hrow, payload, hresponse, halone, hok⟩ := exec_answersIn i s
  have hcode : c.code ∈ (statusRow i).map Status.code := List.mem_map_of_mem hrow
  refine ⟨t, c.code, payload, hexec, hresponse, fun hne => halone fun hc => hne (statusCode_eq_zero.mpr hc), ?_⟩
  cases i with
  | reset | crc16 | shouldEmit => cases List.mem_singleton.mp hrow; exact ⟨rfl, hok rfl⟩
  | packDtClock | packDtExplicit => exact ⟨hcode, fun hzero => hok (statusCode_eq_zero.mp hzero)⟩
  | _ => exact hcode

/-- Settles O58: no row of R72 but the decoder's holds 8F. -/
theorem onlyTheDecoderRaisesIllegalCommand : Obligations.OnlyTheDecoderRaisesIllegalCommand := by
  refine ⟨fun i s t => exec_ne_illegalCommand, fun s t c rest hconstructed hinbox hstep => ⟨fun hillegal => ?_, ?_⟩⟩
  · obtain ⟨hidle, -⟩ | ⟨tr, rest', hport, ⟨e, hdecode, -⟩ | ⟨i, -, hexec⟩⟩ := step_cases hstep
    · rw [hidle] at hinbox; cases hinbox
    · cases hport.symm.trans hinbox; exact ⟨e, hdecode⟩
    · exact absurd hillegal (exec_ne_illegalCommand hexec)
  · rintro ⟨e, hdecode⟩
    cases (step_of_decode_error hconstructed hinbox hdecode).symm.trans hstep
    rfl

/-- Settles O54: both encodes are R200, whose three computations are those of the primitives. -/
theorem encodeIsPackComposeBuild : Obligations.EncodeIsPackComposeBuild := by
  intro s t stream enc pack rd f _ hforms hexec hok
  obtain ⟨time, hencode, hpackExec⟩ : ∃ time, exec enc s = .next (encodeAt stream time rd s) ∧
      exec pack s = .next (s.finish ((packTime s.par (streamPolicy stream) time).map dtBytes)) := by
    rw [← policyOf_streamByte]
    obtain ⟨rfl, rfl⟩ | ⟨ts, rfl, rfl⟩ := hforms <;> exact ⟨_, rfl, rfl⟩
  cases hencode.symm.trans hexec
  obtain ⟨dt, payload, ents, hpack, hcompose, hdecode, hbuild⟩ := primitives_of_encodeAt hok
  refine ⟨dt, payload, ents, ?_, ?_, hdecode, ?_⟩
  · rw [hpackExec, hpack]; rfl
  · rw [exec, execCompose, hcompose]; rfl
  · rw [exec, execBuildFrame, hbuild]; rfl

end Sys2Proof.Proofs
end

section
/-! The family of 41_field_encoder.md: what ENC_FIELD answers on each of the four tags, and that an entry with any other tag, or one that
does not encode, is refused by ENC_FIELD and by BUILD_FRAME. -/

namespace Sys2Proof.Proofs

open Machine Safety

/-! ### ENC_FIELD and BUILD_FRAME by what their entries encode to (R110, R168) -/

theorem encFieldBytes_ok_iff {p : Par} {e : RawEntry} {b : Bytes} :
    encFieldBytes p e = .ok b ↔ ∃ v, interp p e = .ok v ∧ encodeField p v = .ok b := by
  unfold encFieldBytes
  cases interp p e <;> simp

/-- R110: the response to an entry that encodes is its field as a blob. -/
theorem exec_encField_of_ok {s : State} {tag : Byte} {value f : Bytes} (h : encFieldBytes s.par ⟨tag, value⟩ = .ok f) :
    exec (.encField tag value) s = .next { s with response := some (0x00 :: be 2 f.length ++ f) } := by
  rw [exec, execEncField, h]
  rfl

/-- R106, R110: an entry that does not encode raises InvalidEntry. -/
theorem exec_encField_refused {s : State} {tag : Byte} {value : Bytes} (h : ∀ f, encFieldBytes s.par ⟨tag, value⟩ ≠ .ok f) :
    exec (.encField tag value) s = .next { s with response := some [0x82] } := by
  cases hfield : encFieldBytes s.par ⟨tag, value⟩ with
  | ok f => exact absurd hfield (h f)
  | error g =>
    cases encFieldBytes_fault hfield
    rw [exec, execEncField, hfield]
    rfl

/-- Where the entries are interpreted and the snapshot encodes, each entry encodes (R167, R168). -/
theorem exists_encFieldBytes_of_mem {p : Par} {ents : List RawEntry} {snap : Snapshot} {fields : List Bytes}
    (hinterp : interpAll p ents = .ok snap) (hencode : encodeFields p snap = .ok fields) {e : RawEntry} (he : e ∈ ents) :
    ∃ b, encFieldBytes p e = .ok b := by
  have hsnap := interpAll_ok_iff.mp hinterp
  have hfields := encodeFields_ok_iff.mp hencode
  clear hinterp hencode
  induction hsnap generalizing fields with
  | nil => cases he
  | @cons e' v ents snap hv _ ih =>
    cases hfields with
    | @cons _ b _ fields hb hrest =>
      obtain rfl | hmem := List.mem_cons.mp he
      · exact ⟨b, encFieldBytes_ok_iff.mpr ⟨v, hv, hb⟩⟩
      · exact ih hmem hrest

/-- R167, R168: an entry that does not encode decides the build, before the count and the length are looked at. -/
theorem buildRaw_of_mem_refused {cfg : Cfg} {p : Par} {ents : List RawEntry} {e : RawEntry} (he : e ∈ ents)
    (h : ∀ b, encFieldBytes p e ≠ .ok b) (dt : Dt12) : buildRaw cfg p ents dt = .error .invalidEntry := by
  unfold buildRaw
  cases hinterp : interpAll p ents with
  | error f => rw [interpAll_fault hinterp]
  | ok snap =>
    cases hencode : encodeFields p snap with
    | error f => simp only [buildFrame, hencode, encodeFields_fault hencode]
    | ok fields =>
      obtain ⟨b, hb⟩ := exists_encFieldBytes_of_mem hinterp hencode he
      exact absurd hb (h b)

theorem exec_buildFrame_of_mem_refused {s : State} {ents : List RawEntry} {e : RawEntry} (he : e ∈ ents)
    (h : ∀ b, encFieldBytes s.par e ≠ .ok b) (dt : Dt12) :
    exec (.buildFrame dt ents) s = .next { s with response := some [0x82] } := by
  rw [exec, execBuildFrame, buildRaw_of_mem_refused he h]
  rfl

/-! ### Which entries encode, by their tag (R101 to R106) -/

/-- R106: only an entry with one of the four tags encodes. -/
theorem tag_mem_of_encFieldBytes {p : Par} {e : RawEntry} {b : Bytes} (h : encFieldBytes p e = .ok b) :
    e.tag ∈ [p.tagU32, p.tagU16, p.tagAscii, p.tagOctet] := by
  obtain ⟨v, hinterp, -⟩ := encFieldBytes_ok_iff.mp h
  obtain ⟨-, ⟨hU32 | hU16, -⟩ | ⟨-, -, hAscii, -⟩ | ⟨-, -, -, hOctet, -⟩⟩ := interp_ok hinterp
  · simp [hU32]
  · simp [hU16]
  · simp [hAscii]
  · simp [hOctet]

/-- The tag is one of the two integer tags, and `n` is the number of bytes of its fields (R102, R103). -/
def integerTag (p : Par) (tag : Byte) (n : Nat) : Prop :=
  tag = p.tagU32 ∧ n = 4 ∨ tag = p.tagU16 ∧ n = 2

theorem interp_integer {p : Par} {tag : Byte} {n : Nat} (htag : integerTag p tag n) {raw : Bytes} {v : Entry} :
    interp p ⟨tag, raw⟩ = .ok v ↔ ∃ q, numeral raw = some q ∧ v = ⟨tag, .num q⟩ := by
  have hinteger : tag = p.tagU32 ∨ tag = p.tagU16 := htag.imp And.left And.left
  simp only [interp, hinteger, if_true]
  cases numeral raw <;> simp [eq_comm]

theorem encodeField_integer {p : Par} (hok : p.ok = true) {tag : Byte} {n : Nat} (htag : integerTag p tag n) (q : Rat) :
    encodeField p ⟨tag, .num q⟩ = encodeInt n tag q := by
  obtain ⟨hdistinct, -⟩ : p.tagU32 ≠ p.tagU16 ∧ _ := of_decide_eq_true hok
  obtain ⟨rfl, rfl⟩ | ⟨rfl, rfl⟩ := htag
  · simp [encodeField]
  · simp [encodeField, hdistinct.symm]

/-- R102, R103: an integer tag takes exactly the numerals of the naturals that its bytes hold. -/
theorem encFieldBytes_integer_iff {p : Par} (hok : p.ok = true) {tag : Byte} {n : Nat} (htag : integerTag p tag n)
    {raw b : Bytes} :
    encFieldBytes p ⟨tag, raw⟩ = .ok b ↔ ∃ v : Nat, numeral raw = some (v : Rat) ∧ v < 2 ^ (8 * n) ∧ b = tag :: be n v := by
  rw [encFieldBytes_ok_iff]
  constructor
  · rintro ⟨e, hinterp, hencode⟩
    obtain ⟨q, hq, rfl⟩ := (interp_integer htag).mp hinterp
    rw [encodeField_integer hok htag] at hencode
    obtain ⟨v, rfl, hfits, rfl⟩ := encodeInt_ok_iff.mp hencode
    exact ⟨v, hq, hfits, rfl⟩
  · rintro ⟨v, hv, hfits, rfl⟩
    refine ⟨⟨tag, .num v⟩, (interp_integer htag).mpr ⟨v, hv, rfl⟩, ?_⟩
    rw [encodeField_integer hok htag]
    exact encodeInt_ok_iff.mpr ⟨v, rfl, hfits, rfl⟩

/-- R104: the ASCII tag's value is the string itself. -/
theorem encFieldBytes_ascii {p : Par} (hok : p.ok = true) (b : Bytes) :
    encFieldBytes p ⟨p.tagAscii, b⟩ = encodeAscii p.tagAscii b := by
  obtain ⟨-, hU32, -, hU16, -, -⟩ := of_decide_eq_true hok
  simp [encFieldBytes, interp, encodeField, hU32.symm, hU16.symm]

/-- R105: the octet tag's value is the string of characters itself. -/
theorem encFieldBytes_octet {p : Par} (hok : p.ok = true) (h : Bytes) :
    encFieldBytes p ⟨p.tagOctet, h⟩ = encodeOctet p.tagOctet h := by
  obtain ⟨-, -, hU32, -, hU16, hAscii⟩ := of_decide_eq_true hok
  simp [encFieldBytes, interp, encodeField, hU32.symm, hU16.symm, hAscii.symm]

theorem encFieldBytes_ascii_iff {p : Par} (hok : p.ok = true) {b f : Bytes} :
    encFieldBytes p ⟨p.tagAscii, b⟩ = .ok f ↔
      (∀ x ∈ b, x.toNat ≤ 0x7F) ∧ b.length ≤ 255 ∧ f = p.tagAscii :: BitVec.ofNat 8 b.length :: b := by
  rw [encFieldBytes_ascii hok, encodeAscii_ok_iff]

theorem encFieldBytes_octet_iff {p : Par} (hok : p.ok = true) {h f : Bytes} :
    encFieldBytes p ⟨p.tagOctet, h⟩ = .ok f ↔
      ∃ d, isHexOf h d ∧ d.length ≤ 255 ∧ f = p.tagOctet :: BitVec.ofNat 8 d.length :: d := by
  simp only [encFieldBytes_octet hok, encodeOctet_ok_iff, hexDecode_eq_some_iff]

/-! ### Which strings are hex strings (R105) -/

/-- The codes of the hex digits, in the three ranges of R105. -/
theorem exists_isHexDigit_iff {x : Byte} :
    (∃ n, isHexDigit x n) ↔
      (0x30 ≤ x.toNat ∧ x.toNat ≤ 0x39) ∨ (0x41 ≤ x.toNat ∧ x.toNat ≤ 0x46) ∨ (0x61 ≤ x.toNat ∧ x.toNat ≤ 0x66) := by
  constructor
  · rintro ⟨n, hn⟩
    unfold isHexDigit at hn
    omega
  · rintro (hdigit | hupper | hlower)
    · exact ⟨x.toNat - 0x30, .inl (by omega)⟩
    · exact ⟨x.toNat - 0x41 + 10, .inr (by omega)⟩
    · exact ⟨x.toNat - 0x61 + 10, .inr (by omega)⟩

theorem isHexOf_length {h d : Bytes} (hd : isHexOf h d) : h.length = 2 * d.length :=
  hd.1

theorem forall_isHexDigit_of_isHexOf {h d : Bytes} (hd : isHexOf h d) : ∀ x ∈ h, ∃ n, isHexDigit x n := by
  induction d generalizing h with
  | nil => simp [isHexOf_nil_iff.mp hd]
  | cons b d ih =>
    obtain ⟨hi, lo, r, rfl, hhi, hlo, hr⟩ := isHexOf_cons_iff.mp hd
    simpa using ⟨⟨_, hhi⟩, ⟨_, hlo⟩, ih hr⟩

/-- An even number of hex digits is the hex string of some bytes, one for each pair. -/
theorem exists_isHexOf : ∀ {h : Bytes}, h.length % 2 = 0 → (∀ x ∈ h, ∃ n, isHexDigit x n) → ∃ d, isHexOf h d
  | [], _, _ => ⟨[], isHexOf_nil_iff.mpr rfl⟩
  | [_], heven, _ => by cases heven
  | hi :: lo :: r, heven, hdigits => by
    obtain ⟨⟨m, hm⟩, ⟨n, hn⟩, hr⟩ : (∃ m, isHexDigit hi m) ∧ (∃ n, isHexDigit lo n) ∧ ∀ x ∈ r, ∃ n, isHexDigit x n := by
      simpa using hdigits
    obtain ⟨d, hd⟩ := exists_isHexOf (h := r) (by simp only [List.length_cons] at heven; omega) hr
    obtain ⟨hhigh, hlow⟩ := (byte_of_nibbles (isHexDigit_le hm) (isHexDigit_le hn)).mp rfl
    exact ⟨BitVec.ofNat 8 (16 * m + n) :: d, isHexOf_cons_iff.mpr ⟨hi, lo, r, rfl, by rwa [hhigh], by rwa [hlow], hd⟩⟩

/-! ### The obligations -/

/-- Settles O28: an integer tag takes the numerals of the naturals that fit, and no other string. -/
theorem encFieldPacksIntegers : Obligations.EncFieldPacksIntegers := by
  intro s raw tag n hok htag
  refine ⟨fun v hv hfits => ?_, fun hnone => exec_encField_refused fun f hf => ?_⟩
  · have hfield := exec_encField_of_ok ((encFieldBytes_integer_iff hok htag).mpr ⟨v, hv, hfits, rfl⟩)
    rwa [List.length_cons, be_length, Nat.add_comm] at hfield
  · obtain ⟨v, hv, hfits, -⟩ := (encFieldBytes_integer_iff hok htag).mp hf
    exact absurd (hnone v hv) (Nat.not_le.mpr hfits)

/-- Settles O29: the ASCII tag takes the strings within both limits of R104, and no other. -/
theorem encFieldPacksAscii : Obligations.EncFieldPacksAscii := by
  intro s b hok
  refine ⟨fun ⟨hascii, hlen⟩ => ?_, fun hbad => exec_encField_refused fun f hf => ?_⟩
  · have hfield := exec_encField_of_ok ((encFieldBytes_ascii_iff hok).mpr ⟨hascii, hlen, rfl⟩)
    rwa [List.length_cons, List.length_cons, Nat.add_assoc, Nat.add_comm] at hfield
  · obtain ⟨hascii, hlen, -⟩ := (encFieldBytes_ascii_iff hok).mp hf
    obtain ⟨x, hx, hlarge⟩ | hlong := hbad
    · exact absurd (hascii x hx) (Nat.not_le.mpr hlarge)
    · exact absurd hlen (Nat.not_le.mpr hlong)

/-- Settles O30: the octet tag takes the hex strings of at most 255 bytes; a hex string has two digits for each byte. -/
theorem encFieldPacksOctets : Obligations.EncFieldPacksOctets := by
  unfold Obligations.EncFieldPacksOctets
  simp only [← exists_isHexDigit_iff]
  intro s h hok
  refine ⟨fun ⟨heven, hdigits, hlen⟩ => ?_, fun hbad => exec_encField_refused fun f hf => ?_⟩
  · obtain ⟨d, hd⟩ := exists_isHexOf heven hdigits
    have hdouble := isHexOf_length hd
    have hfield := exec_encField_of_ok ((encFieldBytes_octet_iff hok).mpr ⟨d, hd, by omega, rfl⟩)
    rw [List.length_cons, List.length_cons, Nat.add_assoc, Nat.add_comm] at hfield
    exact ⟨d, hd, hfield⟩
  · obtain ⟨d, hd, hlen, -⟩ := (encFieldBytes_octet_iff hok).mp hf
    have hdouble := isHexOf_length hd
    obtain hodd | ⟨x, hx, hnot⟩ | hlong := hbad
    · omega
    · exact hnot (forall_isHexDigit_of_isHexOf hd x hx)
    · omega

/-- Settles O31: an entry with an unknown tag does not encode, and one such entry decides a BUILD_FRAME. -/
theorem unknownTagsAreRefused : Obligations.UnknownTagsAreRefused := by
  intro s tag raw hunknown
  have hrefused : ∀ b, encFieldBytes s.par ⟨tag, raw⟩ ≠ .ok b := fun b hb => hunknown (tag_mem_of_encFieldBytes hb)
  exact ⟨exec_encField_refused hrefused, fun dt ents hmem => exec_buildFrame_of_mem_refused hmem hrefused dt⟩

end Sys2Proof.Proofs
end

section
/-! The family of 42_crc.md: the byte-wise engine is the bit-serial one, a byte string with its CRC leaves a fixed register, and a frame's
CRC therefore does not depend on its address. -/

namespace Sys2Proof.Proofs

open Machine Safety

/-! ### The engine and the bit-serial register (R120) -/

/-- A register with a word XORed in shifts as the bit-serial register that takes the word's low bit, the rest of the word still XORed
in. -/
theorem crcBit_xor (c v : BitVec 16) : crcBit (c ^^^ v) = crcSerialBit c (v.getLsbD 0) ^^^ (v >>> 1) := by
  unfold crcBit crcSerialBit
  rw [BitVec.getLsbD_xor, BitVec.ushiftRight_xor_distrib]
  split
  · rw [BitVec.xor_assoc, BitVec.xor_comm (v >>> 1), BitVec.xor_assoc]
  · rfl

/-- `n` shifts of a register with a word XORed in are `n` steps of the bit-serial register over the word's low `n` bits. -/
theorem crcBits_xor (n : Nat) (c v : BitVec 16) :
    crcBits n (c ^^^ v) = ((List.range n).map v.getLsbD).foldl crcSerialBit c ^^^ (v >>> n) := by
  induction n generalizing c v with
  | zero => simp [crcBits]
  | succ n ih =>
    have hbits : (List.range n).map (v >>> 1).getLsbD = (List.range n).map (v.getLsbD ∘ Nat.succ) :=
      List.map_congr_left fun k _ => by simp [Nat.add_comm]
    rw [crcBits, crcBit_xor, ih, hbits, List.range_succ_eq_map, List.map_cons, List.map_map, List.foldl_cons,
      ← BitVec.shiftRight_add, Nat.add_comm 1 n]

theorem crcByte_eq_serial (c : BitVec 16) (x : Byte) :
    crcByte c x = ((List.range 8).map x.getLsbD).foldl crcSerialBit c := by
  have hbits : (List.range 8).map (zext 16 x).getLsbD = (List.range 8).map x.getLsbD :=
    List.map_congr_left fun k hk => by
      have hk8 := List.mem_range.mp hk
      simp [zext]; omega
  have hrest : zext 16 x >>> 8 = 0#16 := BitVec.eq_of_toNat_eq (by simp [zext, Nat.shiftRight_eq_div_pow]; omega)
  rw [crcByte, crcBits_xor, hbits, hrest, BitVec.xor_zero]

theorem crcReg_eq_serial (c : BitVec 16) (d : Bytes) : crcReg c d = (messageBits d).foldl crcSerialBit c := by
  rw [messageBits, List.foldl_flatMap, ← funext₂ crcByte_eq_serial, crcReg]

/-! ### The residue (R125) -/

theorem crcReg_append (c : BitVec 16) (a b : Bytes) : crcReg c (a ++ b) = crcReg (crcReg c a) b :=
  List.foldl_append

/-- The bits of a word sent low byte first are the word's bits in order. -/
theorem messageBits_word (v : BitVec 16) :
    messageBits [v.extractLsb' 0 8, v.extractLsb' 8 8] = (List.range 16).map v.getLsbD := by
  simp [messageBits, List.range_succ]

/-- Sixteen message bits reach every bit of the register: only what the word XORs into it matters. -/
theorem crcReg_word (c v : BitVec 16) : crcReg c [v.extractLsb' 0 8, v.extractLsb' 8 8] = crcBits 16 (c ^^^ v) := by
  have hrest : v >>> 16 = 0#16 := BitVec.ushiftRight_eq_zero le_rfl
  rw [crcReg_eq_serial, messageBits_word, crcBits_xor, hrest, BitVec.xor_zero]

/-- A register followed by its complement holds all ones before the last sixteen shifts, whatever it was. -/
theorem crcReg_complement (c : BitVec 16) : crcReg c [(~~~ c).extractLsb' 0 8, (~~~ c).extractLsb' 8 8] = 0xF0B8 := by
  have hones : c ^^^ ~~~ c = BitVec.allOnes 16 := by
    rw [← BitVec.xor_allOnes, ← BitVec.xor_assoc, BitVec.xor_self, BitVec.zero_xor]
  rw [crcReg_word, hones]
  simp [crcBits, crcBit, Config.crcPoly]

theorem crcReg_append_crc16_eq (d : Bytes) : crcReg Config.crcSeed (d ++ be 2 (crc16 d).toNat) = 0xF0B8 := by
  rw [crcReg_append, crc16, be_two_swap16, crcReg_complement]

/-! ### The frame from offset 8 on (R163 to R165) -/

theorem slice_append_slice (b : Bytes) {i j k : Nat} (hij : i ≤ j) (hjk : j ≤ k) : slice b i j ++ slice b j k = slice b i k := by
  have hdrop : b.drop j = (b.drop i).drop (j - i) := by rw [List.drop_drop, Nat.add_sub_cancel' hij]
  have hlen : k - i = (j - i) + (k - j) := by omega
  rw [slice, slice, slice, hdrop, hlen, List.take_add]

/-- What a memory write stores stands at its address. -/
theorem slice_memWrite_self {fb : Bytes} {addr n v : Nat} (haddr : addr ≤ fb.length) :
    slice (memWrite fb addr n v) addr (addr + n) = be n v := by
  have hlen : (fb.take addr).length = addr := List.length_take_of_le haddr
  rw [slice, memWrite, List.append_assoc, List.drop_left' hlen, Nat.add_sub_cancel_left, List.take_left' (be_length n v)]

/-- A memory write past the first `k` bytes is a memory write into the rest. -/
theorem drop_memWrite {fb : Bytes} {k addr n v : Nat} (hk : k ≤ addr) (haddr : addr ≤ fb.length) :
    (memWrite fb addr n v).drop k = memWrite (fb.drop k) (addr - k) n v := by
  have hlen : k ≤ (fb.take addr).length := by rwa [List.length_take_of_le haddr]
  have hrest : k + (addr - k + n) = addr + n := by omega
  rw [memWrite, memWrite, List.append_assoc, List.drop_append_of_le_length hlen, List.drop_take, List.drop_drop, hrest,
    List.append_assoc]

theorem drop_patchLength {fb : Bytes} (h : 34 ≤ fb.length) : (patchLength fb).drop 8 = fb.drop 8 := by
  have hdrop := congrArg (List.drop 5) (memWrite_drop (n := 2) (v := Config.lenBase + fb.length - 2) (show 1 ≤ fb.length by omega))
  rwa [List.drop_drop, List.drop_drop] at hdrop

theorem drop_patchHcs {fb : Bytes} (h : 34 ≤ fb.length) : (patchHcs fb).drop 8 = fb.drop 8 :=
  memWrite_drop (addr := 6) (n := 2) (by omega)

/-- R164 with R125: the header and its CRC together leave the register at the residue, so that only the bytes from offset 8 on count. -/
theorem crcReg_slice_patchHcs {fb : Bytes} (h : 34 ≤ fb.length) {j : Nat} (hj : 8 ≤ j) :
    crcReg Config.crcSeed (slice (patchHcs fb) 1 j) = crcReg 0xF0B8 (slice fb 8 j) := by
  have hhead : slice (patchHcs fb) 1 6 = slice fb 1 6 := slice_memWrite_before le_rfl (by omega)
  have hcrc : slice (patchHcs fb) 6 8 = be 2 (crc16 (slice fb 1 6)).toNat := slice_memWrite_self (by omega)
  have hrest : slice (patchHcs fb) 8 j = slice fb 8 j := slice_memWrite_after le_rfl (by omega)
  rw [← slice_append_slice _ (by omega : 1 ≤ 8) hj, ← slice_append_slice _ (by omega : 1 ≤ 6) (by omega : 6 ≤ 8), hhead, hcrc, hrest,
    crcReg_append, crcReg_append_crc16_eq]

theorem patched_length {fb : Bytes} (h : 34 ≤ fb.length) : (patchFcs (patchHcs (patchLength fb))).length = fb.length := by
  have hlength := patchLength_length h
  have hhcs : (patchHcs (patchLength fb)).length = fb.length := by rw [patchHcs_length (by omega), hlength]
  rw [patchFcs, memWrite_length (by omega), hhcs]

/-- From offset 8 on, a finished frame is a function of its length and of what step 1 assembled there. -/
theorem drop_patched {fb : Bytes} (h : 34 ≤ fb.length) :
    (patchFcs (patchHcs (patchLength fb))).drop 8 =
      memWrite (fb.drop 8) (fb.length - 3 - 8) 2
        (swap16 (~~~ crcReg 0xF0B8 ((fb.drop 8).take (fb.length - 3 - 8)))).toNat := by
  have hlength := patchLength_length h
  have hlen : 34 ≤ (patchLength fb).length := by rwa [hlength]
  have hhcs : (patchHcs (patchLength fb)).length = fb.length := by rw [patchHcs_length hlen, hlength]
  have hdrop : (patchHcs (patchLength fb)).drop 8 = fb.drop 8 := by rw [drop_patchHcs hlen, drop_patchLength h]
  rw [patchFcs, hhcs, drop_memWrite (by omega) (by omega), hdrop, crc16, crcReg_slice_patchHcs hlen (by omega), slice,
    drop_patchLength h]

theorem drop_assembleFrame (cfg cfg' : Cfg) (p : Par) (dt : Dt12) (n : Nat) (fields : Bytes) :
    (assembleFrame cfg p dt n fields).drop 8 = (assembleFrame cfg' p dt n fields).drop 8 := rfl

theorem le_assembleFrame_length (cfg : Cfg) (p : Par) (dt : Dt12) (n : Nat) (fields : Bytes) :
    34 ≤ (assembleFrame cfg p dt n fields).length := by
  rw [assembleFrame_length]
  exact Nat.le_add_right ..

/-- R160: the identity stands before offset 8 only, and the frame CRC does not carry it past that offset. -/
theorem buildFrame_drop_congr_cfg {cfg cfg' : Cfg} {p : Par} {snap : Snapshot} {dt : Dt12} {f g : Bytes}
    (hf : buildFrame cfg p snap dt = .ok f) (hg : buildFrame cfg' p snap dt = .ok g) :
    f.length = g.length ∧ f.drop 8 = g.drop 8 := by
  obtain ⟨fields, hfields, -, -, hframe⟩ := buildFrame_ok_iff.mp hf
  obtain ⟨fields', hfields', -, -, hframe'⟩ := buildFrame_ok_iff.mp hg
  obtain rfl : fields = fields' := Except.ok.inj (hfields.symm.trans hfields')
  have hlong (c : Cfg) := le_assembleFrame_length c p dt snap.length fields.flatten
  rw [hframe, hframe']
  constructor
  · rw [patched_length (hlong cfg), patched_length (hlong cfg'), assembleFrame_length, assembleFrame_length]
  · rw [drop_patched (hlong cfg), drop_patched (hlong cfg'), assembleFrame_length, assembleFrame_length, drop_assembleFrame cfg cfg']

/-! ### BUILD_FRAME's answer (R168) -/

theorem buildRaw_ok_iff {cfg : Cfg} {p : Par} {ents : List RawEntry} {dt : Dt12} {f : Bytes} :
    buildRaw cfg p ents dt = .ok f ↔ ∃ snap, interpAll p ents = .ok snap ∧ buildFrame cfg p snap dt = .ok f := by
  unfold buildRaw
  cases interpAll p ents <;> simp

/-- The frame that BUILD_FRAME answers is the one built of its entries. -/
theorem buildRaw_of_answersOk {s t : State} {dt : Dt12} {ents : List RawEntry} {f : Bytes}
    (hexec : exec (.buildFrame dt ents) s = .next t) (hok : answersOk t (be 2 f.length ++ f)) :
    buildRaw s.cfg s.par ents dt = .ok f := by
  rw [exec, execBuildFrame] at hexec
  cases hexec
  obtain ⟨b, hbuild, hnext⟩ | ⟨c, -, hnext⟩ := State.finish_cases s ((buildRaw s.cfg s.par ents dt).map blob) <;>
    rw [hnext] at hok <;> obtain ⟨hstatus, hpayload⟩ := answersOk_respond.mp hok
  · obtain ⟨frame, hraw, rfl⟩ := map_ok hbuild
    rwa [blob_eq_iff.mp hpayload.symm]
  · cases hstatus

/-! ### The obligations -/

/-- Settles O24: byte by byte, the engine's eight shifts are eight bit-serial steps. -/
theorem crcEngineIsBitSerial : Obligations.CrcEngineIsBitSerial :=
  crcReg_eq_serial

/-- Settles O25: the appended bytes are the register's complement. -/
theorem crcResidueIsFixed : Obligations.CrcResidueIsFixed :=
  crcReg_append_crc16_eq

/-- Settles O41: the header CRC absorbs the address before offset 8. -/
theorem frameCrcIgnoresTheAddress : Obligations.FrameCrcIgnoresTheAddress := by
  intro s t u cfg dt ents f g hexec hok hexec' hok'
  obtain ⟨snap, hinterp, hbuild⟩ := buildRaw_ok_iff.mp (buildRaw_of_answersOk hexec hok)
  obtain ⟨snap', hinterp', hbuild'⟩ := buildRaw_ok_iff.mp (buildRaw_of_answersOk hexec' hok')
  obtain rfl : snap = snap' := Except.ok.inj (hinterp.symm.trans hinterp')
  exact buildFrame_drop_congr_cfg hbuild hbuild'

end Sys2Proof.Proofs
end

section
/-! The family of 43_datetime.md: what the two pack commands answer, which times pack to one datetime, and the default parser. -/

namespace Sys2Proof.Proofs

open Machine Safety

/-! ### The bytes of a packed datetime (R130, R131, R132, R133) -/

/-- R131: each component is a value that its field of R130 holds. -/
def Fits (c : Components) : Prop :=
  c.year ≤ 65535 ∧ c.month ≤ 255 ∧ c.day ≤ 255 ∧ c.weekday ≤ 255 ∧ c.hour ≤ 255 ∧ c.minute ≤ 255 ∧ c.second ≤ 255

theorem inRange_iff {c : Components} : inRange c = true ↔ Fits c := by
  simp only [inRange, Fits, Bool.and_eq_true, decide_eq_true_eq, and_assoc]

/-- The bytes of R130 that neither policy rounds: dt[0:6). -/
def dateBytes (c : Components) : Bytes :=
  [BitVec.ofNat 8 (c.year / 256), BitVec.ofNat 8 (c.year % 256), BitVec.ofNat 8 c.month, BitVec.ofNat 8 c.day,
    BitVec.ofNat 8 c.weekday, BitVec.ofNat 8 c.hour]

theorem be_one (v : Nat) : be 1 v = [BitVec.ofNat 8 v] := by
  simp [be]

theorem be_two (v : Nat) : be 2 v = [BitVec.ofNat 8 (v / 256), BitVec.ofNat 8 (v % 256)] := by
  have hlow : BitVec.ofNat 8 v = BitVec.ofNat 8 (v % 256) := BitVec.eq_of_toNat_eq (by simp)
  rw [be, be_one, Nat.pow_one, hlow]

theorem dtFields_eq (suffix : BitVec 32) (c : Components) :
    dtFields suffix c = dateBytes c ++ [BitVec.ofNat 8 c.minute, BitVec.ofNat 8 c.second] ++ be 4 suffix.toNat := by
  simp only [dtFields, be_one, be_two, dateBytes, List.cons_append, List.nil_append]

/-- R132: the second is cut to its ten. -/
theorem roundTime_power (c : Components) : roundTime .power c = { c with second := 10 * (c.second / 10) } := by
  have hcut : c.second - c.second % 10 = 10 * (c.second / 10) := by omega
  rw [roundTime, hcut]

/-- R132, R133: rounding only lowers the minute and the second, or sets them to 0 and 55. -/
theorem fits_roundTime {c : Components} (h : Fits c) (policy : Policy) : Fits (roundTime policy c) := by
  obtain ⟨hyear, hmonth, hday, hweekday, hhour, hminute, hsecond⟩ := h
  cases policy with
  | power => exact ⟨hyear, hmonth, hday, hweekday, hhour, hminute, (Nat.sub_le _ _).trans hsecond⟩
  | energy => exact ⟨hyear, hmonth, hday, hweekday, hhour, Nat.zero_le _, (by decide : 55 ≤ 255)⟩

/-! ### The commands (R138, R139) -/

/-- R137: the response to a command that packs a time whose components fit. -/
theorem exec_packTime_of_fits {i : Instr} {s : State} {policy : Policy} {c : Components}
    (hexec : exec i s = .next (s.finish ((packTime s.par policy (.ok c)).map dtBytes))) (hfits : Fits c) :
    exec i s = .next { s with response := some (0x00 :: dtFields s.par.dtSuffix (roundTime policy c)) } := by
  have hbytes := dtBytes_dtOfBytes (dtFields_length s.par.dtSuffix (roundTime policy c))
  rw [hexec, packTime, packDatetime, if_pos (inRange_iff.mpr hfits), Except.map, hbytes]
  rfl

/-- R131: a component that does not fit raises InvalidTimestamp, before any rounding. -/
theorem exec_packTime_of_not_fits {i : Instr} {s : State} {policy : Policy} {c : Components}
    (hexec : exec i s = .next (s.finish ((packTime s.par policy (.ok c)).map dtBytes))) (hfits : ¬ Fits c) :
    exec i s = .next { s with response := some [0x83] } := by
  rw [hexec, packTime, packDatetime, if_neg (inRange_iff.not.mpr hfits)]
  rfl

/-- The three clauses of O32 and O33: what a command with this policy operand answers when its source gave this time. -/
theorem exec_packTime_clauses {i : Instr} {s : State} {policy : Byte} {c : Components}
    (hexec : exec i s = .next (s.finish ((packTime s.par (policyOf policy) (.ok c)).map dtBytes))) :
    (Fits c → policy = 0x00 → exec i s = .next { s with response := some (0x00 :: (dateBytes c ++
      [BitVec.ofNat 8 c.minute, BitVec.ofNat 8 (10 * (c.second / 10))] ++ be 4 s.par.dtSuffix.toNat)) }) ∧
    (Fits c → policy ≠ 0x00 → exec i s = .next { s with response := some (0x00 :: (dateBytes c ++
      [0x00, 0x37] ++ be 4 s.par.dtSuffix.toNat)) }) ∧
    (¬ Fits c → exec i s = .next { s with response := some [0x83] }) := by
  refine ⟨fun hfits hpower => ?_, fun hfits henergy => ?_, exec_packTime_of_not_fits hexec⟩
  · rw [exec_packTime_of_fits hexec hfits, policyOf, if_pos hpower, roundTime_power, dtFields_eq]
    rfl
  · rw [exec_packTime_of_fits hexec hfits, policyOf, if_neg henergy, dtFields_eq]
    rfl

/-! ### Times that pack alike (R132, R133) -/

theorem byte_ofNat_inj {m n : Nat} (hm : m ≤ 255) (hn : n ≤ 255) : BitVec.ofNat 8 m = BitVec.ofNat 8 n ↔ m = n := by
  rw [← BitVec.toNat_inj, BitVec.toNat_ofNat, BitVec.toNat_ofNat]
  omega

/-- R130: each field holds its component whole. -/
theorem dtFields_inj {suffix : BitVec 32} {a b : Components} (ha : Fits a) (hb : Fits b) :
    dtFields suffix a = dtFields suffix b ↔ a = b := by
  refine ⟨fun h => ?_, fun h => by rw [h]⟩
  obtain ⟨hyear, hmonth, hday, hweekday, hhour, hminute, hsecond⟩ := ha
  obtain ⟨hyear', hmonth', hday', hweekday', hhour', hminute', hsecond'⟩ := hb
  simp only [dtFields_eq, dateBytes, List.cons_append, List.nil_append, List.cons.injEq, and_true] at h
  obtain ⟨hhigh, hlow, hm, hd, hw, hh, hmin, hs⟩ := h
  rw [byte_ofNat_inj (by omega) (by omega)] at hhigh hlow hm hd hw hh hmin hs
  have hy : a.year = b.year := by omega
  cases a
  cases b
  exact (Components.mk.injEq ..).mpr ⟨hy, hm, hd, hw, hh, hmin, hs⟩

theorem dtOfBytes_inj {a b : Bytes} (ha : a.length = 12) (hb : b.length = 12) : dtOfBytes a = dtOfBytes b ↔ a = b :=
  ⟨fun h => by rw [← dtBytes_dtOfBytes ha, h, dtBytes_dtOfBytes hb], fun h => by rw [h]⟩

/-- R137: times that fit pack alike exactly when they round alike. -/
theorem packDatetime_eq_iff {p : Par} {policy : Policy} {a b : Components} (ha : inRange a = true) (hb : inRange b = true) :
    packDatetime p policy a = packDatetime p policy b ↔ roundTime policy a = roundTime policy b := by
  rw [packDatetime, packDatetime, if_pos ha, if_pos hb, Except.ok.injEq, dtOfBytes_inj (dtFields_length _ _) (dtFields_length _ _),
    dtFields_inj (fits_roundTime (inRange_iff.mp ha) policy) (fits_roundTime (inRange_iff.mp hb) policy)]

/-! ### Runs of digits (R135) -/

theorem spelled_nil_iff {tail : Bytes} : spelled [] tail ↔ ∀ b ∈ tail, isDigit b = false := by
  simp [spelled]

/-- A first run with the bytes before it, and a spelling of the rest in which every run has bytes before it. -/
theorem spelled_cons_iff {pre run tail : Bytes} {parts : List (Bytes × Bytes)} :
    spelled ((pre, run) :: parts) tail ↔
      (run ≠ [] ∧ (∀ b ∈ run, isDigit b = true) ∧ ∀ b ∈ pre, isDigit b = false) ∧ (∀ x ∈ parts, x.1 ≠ []) ∧ spelled parts tail := by
  have hrest (h : ∀ x ∈ parts, x.1 ≠ []) : ∀ x ∈ parts.tail, x.1 ≠ [] := fun x hx => h x (List.mem_of_mem_tail hx)
  simp only [spelled, List.forall_mem_cons, List.tail_cons]
  tauto

theorem spell_cons (pre run tail : Bytes) (parts : List (Bytes × Bytes)) :
    spell ((pre, run) :: parts) tail = pre ++ (run ++ spell parts tail) := by
  simp [spell]

/-- A separator goes before the first run, or in front of the tail of a string with no run. -/
theorem exists_spelled_separator {b : Byte} (hb : isDigit b = false) {parts : List (Bytes × Bytes)} {tail : Bytes}
    (h : spelled parts tail) : ∃ parts' tail', spelled parts' tail' ∧ b :: spell parts tail = spell parts' tail' := by
  cases parts with
  | nil => exact ⟨[], b :: tail, spelled_nil_iff.mpr (List.forall_mem_cons.mpr ⟨hb, spelled_nil_iff.mp h⟩), rfl⟩
  | cons x parts =>
    obtain ⟨⟨hne, hrun, hpre⟩, hrest⟩ := spelled_cons_iff.mp h
    exact ⟨(b :: x.1, x.2) :: parts, tail, spelled_cons_iff.mpr ⟨⟨hne, hrun, List.forall_mem_cons.mpr ⟨hb, hpre⟩⟩, hrest⟩, rfl⟩

/-- A digit lengthens a first run with which the string begins, and else is a run of its own. -/
theorem exists_spelled_digit {b : Byte} (hb : isDigit b = true) {parts : List (Bytes × Bytes)} {tail : Bytes}
    (h : spelled parts tail) : ∃ parts' tail', spelled parts' tail' ∧ b :: spell parts tail = spell parts' tail' := by
  have hown (hparts : ∀ x ∈ parts, x.1 ≠ []) : spelled (([], [b]) :: parts) tail :=
    spelled_cons_iff.mpr ⟨⟨by simp, by simpa using hb, by simp⟩, hparts, h⟩
  cases parts with
  | nil => exact ⟨_, _, hown (by simp), rfl⟩
  | cons x parts =>
    obtain ⟨pre, run⟩ := x
    obtain ⟨⟨hne, hrun, hpre⟩, hrest, htail⟩ := spelled_cons_iff.mp h
    cases pre with
    | nil =>
      exact ⟨([], b :: run) :: parts, tail,
        spelled_cons_iff.mpr ⟨⟨by simp, List.forall_mem_cons.mpr ⟨hb, hrun⟩, hpre⟩, hrest, htail⟩, rfl⟩
    | cons c pre => exact ⟨_, _, hown (List.forall_mem_cons.mpr ⟨by simp, hrest⟩), rfl⟩

/-- R135: every string is some maximal runs of digits with separators around them. -/
theorem exists_spelled (ts : Bytes) : ∃ parts tail, spelled parts tail ∧ ts = spell parts tail := by
  induction ts with
  | nil => exact ⟨[], [], spelled_nil_iff.mpr (by simp), rfl⟩
  | cons b r ih =>
    obtain ⟨parts, tail, h, rfl⟩ := ih
    cases hb : isDigit b with
    | false => exact exists_spelled_separator hb h
    | true => exact exists_spelled_digit hb h

/-- Separators that follow no run are passed over. -/
theorem digitRuns_separators {pre : Bytes} (h : ∀ b ∈ pre, isDigit b = false) (r : Bytes) :
    digitRuns none (pre ++ r) = digitRuns none r := by
  induction pre with
  | nil => rfl
  | cons b pre ih =>
    obtain ⟨hb, hpre⟩ := List.forall_mem_cons.mp h
    simp [digitRuns, hb, ih hpre]

/-- An open run takes the digits that follow, and ends before the next separator or with the string. -/
theorem digitRuns_open {run r : Bytes} (hrun : ∀ b ∈ run, isDigit b = true) (hr : ∀ b ∈ r.head?, isDigit b = false) (ds : Bytes) :
    digitRuns (some (digitsVal ds)) (run ++ r) = digitsVal (ds ++ run) :: digitRuns none r := by
  induction run generalizing ds with
  | nil =>
    cases r with
    | nil => simp [digitRuns]
    | cons b r => simp [digitRuns, hr b rfl]
  | cons b run ih =>
    obtain ⟨hb, hrun⟩ := List.forall_mem_cons.mp hrun
    have hnext := ih hrun (ds ++ [b])
    rw [digitsVal_append_singleton] at hnext
    simpa [digitRuns, hb] using hnext

/-- A maximal run gives its decimal value. -/
theorem digitRuns_run {run r : Bytes} (hne : run ≠ []) (hrun : ∀ b ∈ run, isDigit b = true)
    (hr : ∀ b ∈ r.head?, isDigit b = false) : digitRuns none (run ++ r) = digitsVal run :: digitRuns none r := by
  obtain ⟨b, run, rfl⟩ := List.exists_cons_of_ne_nil hne
  obtain ⟨hb, hrun⟩ := List.forall_mem_cons.mp hrun
  simpa [digitRuns, hb, digitsVal] using digitRuns_open hrun hr [b]

/-- What stands after a maximal run begins with no digit. -/
theorem head_spell_not_digit {parts : List (Bytes × Bytes)} {tail : Bytes} (h : spelled parts tail)
    (hsep : ∀ x ∈ parts, x.1 ≠ []) : ∀ b ∈ (spell parts tail).head?, isDigit b = false := by
  cases parts with
  | nil => exact fun b hb => spelled_nil_iff.mp h b (List.mem_of_mem_head? hb)
  | cons x parts =>
    obtain ⟨pre, run⟩ := x
    obtain ⟨⟨-, -, hpre⟩, -⟩ := spelled_cons_iff.mp h
    obtain ⟨c, pre, rfl⟩ := List.exists_cons_of_ne_nil (hsep _ List.mem_cons_self)
    simpa [spell_cons] using (List.forall_mem_cons.mp hpre).1

/-- R135: the scanner finds the runs of a spelling, in order. -/
theorem digitRuns_spell {parts : List (Bytes × Bytes)} {tail : Bytes} (h : spelled parts tail) :
    digitRuns none (spell parts tail) = parts.map fun x => digitsVal x.2 := by
  induction parts with
  | nil => simpa [spell, digitRuns] using digitRuns_separators (spelled_nil_iff.mp h) []
  | cons x parts ih =>
    obtain ⟨pre, run⟩ := x
    obtain ⟨⟨hne, hrun, hpre⟩, hsep, hrest⟩ := spelled_cons_iff.mp h
    calc digitRuns none (spell ((pre, run) :: parts) tail)
      _ = digitRuns none (run ++ spell parts tail) := by rw [spell_cons, digitRuns_separators hpre]
      _ = digitsVal run :: digitRuns none (spell parts tail) := digitRuns_run hne hrun (head_spell_not_digit hrest hsep)
      _ = _ := by rw [ih hrest, List.map_cons]

theorem tsParseRuns_of_seven {ts : Bytes} {c : Components}
    (h : digitRuns none ts = [c.year, c.month, c.day, c.weekday, c.hour, c.minute, c.second]) : tsParseRuns ts = some c := by
  rw [tsParseRuns, h]

theorem tsParseRuns_of_length_ne {ts : Bytes} (h : (digitRuns none ts).length ≠ 7) : tsParseRuns ts = none := by
  unfold tsParseRuns
  split
  · rename_i hruns
    rw [hruns] at h
    exact absurd rfl h
  · rfl

/-! ### The obligations -/

/-- Settles O32: the clock's draw is the time that PACK_DT_CLOCK packs. -/
theorem packDtClockQuantizesTheDraw : Obligations.PackDtClockQuantizesTheDraw :=
  fun _ _ => exec_packTime_clauses rfl

/-- Settles O33: a string that parses gives the time to pack, and one that does not gives the fault. -/
theorem packDtExplicitQuantizesTheString : Obligations.PackDtExplicitQuantizesTheString := by
  intro s policy ts
  have hexec : exec (.packDtExplicit policy ts) s =
      .next (s.finish ((packTime s.par (policyOf policy) (s.par.explicitTime ts)).map dtBytes)) := rfl
  refine ⟨fun c hparse => ?_, fun hparse => ?_⟩ <;> rw [Par.explicitTime, hparse] at hexec
  · exact exec_packTime_clauses hexec
  · exact hexec

/-- Settles O34: the runs of a spelling are the runs that the parser counts. -/
theorem defaultParserTakesSevenRuns : Obligations.DefaultParserTakesSevenRuns := by
  refine ⟨exists_spelled, fun p parts tail hparser h => ?_⟩
  have hparse : p.parseTs (spell parts tail) = tsParseRuns (spell parts tail) := by rw [Par.parseTs, hparser]
  rw [hparse]
  refine ⟨fun c hseven => tsParseRuns_of_seven ((digitRuns_spell h).trans hseven), fun hlen => tsParseRuns_of_length_ne ?_⟩
  rwa [digitRuns_spell h, List.length_map]

/-- Settles O35: equal datetimes are equal rounded times, and a second cut to its ten keeps its tens. -/
theorem roundingBucketsAreTheOnlyCollisions : Obligations.RoundingBucketsAreTheOnlyCollisions := by
  intro p a b ha hb
  refine ⟨(packDatetime_eq_iff ha hb).trans ?_, (packDatetime_eq_iff ha hb).trans ?_⟩
  · simp [roundTime_power, and_assoc]
  · simp [roundTime]

end Sys2Proof.Proofs
end

section
/-! The family of 44_duplicate_filter.md: what SHOULD_EMIT compares and records, and how long a recorded datetime counts. -/

namespace Sys2Proof.Proofs

open Machine

/-! ### The two outcomes of SHOULD_EMIT (R150, R151) -/

theorem exec_shouldEmit_of_seen {stream : Stream} {dt : Dt12} {s : State} (hseen : s.lastSeen stream = some dt) :
    exec (.shouldEmit stream dt) s = .next (s.respondOk [0x00]) := by
  obtain ⟨-, hexec⟩ | ⟨hnew, -⟩ := execShouldEmit_cases stream dt s
  · exact hexec
  · exact absurd hseen hnew

theorem exec_shouldEmit_of_new {stream : Stream} {dt : Dt12} {s : State} (hnew : s.lastSeen stream ≠ some dt) :
    exec (.shouldEmit stream dt) s = .next ((s.setLastSeen stream (some dt)).respondOk [0x01]) := by
  obtain ⟨hseen, -⟩ | ⟨-, hexec⟩ := execShouldEmit_cases stream dt s
  · exact absurd hseen hnew
  · exact hexec

/-! ### What each outcome leaves in the Last-Seen Table (R152) -/

/-- A duplicate is answered with false, and both entries stay. -/
theorem exists_shouldEmit_of_seen {stream : Stream} {dt : Dt12} {s : State} (hseen : s.lastSeen stream = some dt) :
    ∃ t, exec (.shouldEmit stream dt) s = .next t ∧ t.response = some [0x00, 0x00] ∧
      ∀ st, t.lastSeen st = s.lastSeen st :=
  ⟨_, exec_shouldEmit_of_seen hseen, rfl, fun _ => rfl⟩

/-- Any other datetime is answered with true and recorded, and the other stream's entry stays. -/
theorem exists_shouldEmit_of_new {stream : Stream} {dt : Dt12} {s : State} (hnew : s.lastSeen stream ≠ some dt) :
    ∃ t, exec (.shouldEmit stream dt) s = .next t ∧ t.response = some [0x00, 0x01] ∧
      t.lastSeen stream = some dt ∧ ∀ other, other ≠ stream → t.lastSeen other = s.lastSeen other :=
  ⟨_, exec_shouldEmit_of_new hnew, rfl, s.setLastSeen_lastSeen .., fun _ h => s.setLastSeen_lastSeen_ne _ h⟩

theorem exists_reset (s : State) : ∃ t, exec .reset s = .next t ∧ ∀ stream, t.lastSeen stream = none :=
  ⟨_, rfl, fun stream => s.clear_lastSeen stream⟩

/-! ### The obligations -/

/-- Settles O36: the two outcomes of SHOULD_EMIT, on each stream. -/
theorem shouldEmitChecksAndRecords : Obligations.ShouldEmitChecksAndRecords :=
  fun s _ => ⟨exec_shouldEmit_of_seen (stream := .power) (s := s), exec_shouldEmit_of_new (stream := .power) (s := s),
    exec_shouldEmit_of_seen (stream := .energy) (s := s), exec_shouldEmit_of_new (stream := .energy) (s := s)⟩

/-- Settles O37: the stream's entry goes through none, A, A, B, A while the other stream's stays none, and each answer compares with
the entry that the command before it left. -/
theorem onlyTheLastValueIsKept : Obligations.OnlyTheLastValueIsKept := by
  intro s stream other a b hother hab
  obtain ⟨s0, hexec0, hempty⟩ := exists_reset s
  obtain ⟨s1, hexec1, hanswer1, hentry1, hrest1⟩ :=
    exists_shouldEmit_of_new (stream := stream) (dt := a) (s := s0) (by simp [hempty])
  obtain ⟨s2, hexec2, hanswer2, hsame2⟩ := exists_shouldEmit_of_seen hentry1
  obtain ⟨s3, hexec3, hanswer3, hentry3, hrest3⟩ :=
    exists_shouldEmit_of_new (stream := stream) (dt := b) (s := s2) (by simp [hsame2, hentry1, hab])
  obtain ⟨s4, hexec4, hanswer4, -, hrest4⟩ :=
    exists_shouldEmit_of_new (stream := stream) (dt := a) (s := s3) (by simp [hentry3, hab.symm])
  have hother4 : s4.lastSeen other = none := by
    rw [hrest4 _ hother, hrest3 _ hother, hsame2, hrest1 _ hother, hempty]
  obtain ⟨s5, hexec5, hanswer5, -⟩ :=
    exists_shouldEmit_of_new (stream := other) (dt := a) (s := s4) (by simp [hother4])
  exact ⟨s0, s1, s2, s3, s4, s5, hexec0, hexec1, hanswer1, hexec2, hanswer2, hexec3, hanswer3, hexec4, hanswer4, hother4,
    hexec5, hanswer5⟩

end Sys2Proof.Proofs
end

section
/-! The family of 45_frame_builder.md: the frame of the layout table, BUILD_FRAME's faults in their order, and what every frame says of
itself. -/

namespace Sys2Proof.Proofs

open Machine Safety

/-! ### The frame of the layout table (R160) -/

/-- Bytes 1 to 5 of a frame of `len` bytes, the range of the header CRC: the length field, the address and the control byte. -/
def frameHead (cfg : Cfg) (len : Nat) : Bytes :=
  be 2 (0xA000 + len - 2) ++ [BitVec.ofNat 8 (2 * cfg.target.toNat + 1), BitVec.ofNat 8 (2 * cfg.source.toNat + 1), 0x13]

/-- The bytes between the two CRCs: the marker, the invoke-ID, the count and the datetime, the structure header and the entries. -/
def frameInfo (p : Par) (dt : Dt12) (n : Nat) (fields : Bytes) : Bytes :=
  be 4 p.protoMarker.toNat ++ [0x00, 0x00, 0x00, 0x00, 0x0C] ++ dtBytes dt ++ [0x02, BitVec.ofNat 8 n] ++ fields

/-- The range of the frame CRC: the head, its CRC, and what follows. -/
def frameBody (cfg : Cfg) (p : Par) (dt : Dt12) (n : Nat) (fields : Bytes) : Bytes :=
  let head := frameHead cfg (34 + fields.length)
  head ++ be 2 (crc16 head).toNat ++ frameInfo p dt n fields

/-- The whole frame of R160. -/
def layoutFrame (cfg : Cfg) (p : Par) (dt : Dt12) (n : Nat) (fields : Bytes) : Bytes :=
  let body := frameBody cfg p dt n fields
  [p.hdlcFlag] ++ body ++ be 2 (crc16 body).toNat ++ [p.hdlcFlag]

theorem frameHead_length (cfg : Cfg) (len : Nat) : (frameHead cfg len).length = 5 := by
  simp [frameHead, be_length]

theorem frameInfo_length (p : Par) (dt : Dt12) (n : Nat) (fields : Bytes) :
    (frameInfo p dt n fields).length = 23 + fields.length := by
  simp [frameInfo, be_length, dtBytes_length]; omega

theorem frameBody_length (cfg : Cfg) (p : Par) (dt : Dt12) (n : Nat) (fields : Bytes) :
    (frameBody cfg p dt n fields).length = 30 + fields.length := by
  simp only [frameBody, List.length_append, frameHead_length, be_length, frameInfo_length]; omega

theorem layoutFrame_length (cfg : Cfg) (p : Par) (dt : Dt12) (n : Nat) (fields : Bytes) :
    (layoutFrame cfg p dt n fields).length = 34 + fields.length := by
  simp only [layoutFrame, List.length_append, frameBody_length, be_length, List.length_singleton]; omega

/-! ### The four patch steps write it (R162 to R166) -/

theorem be_addr (c : Cfg) :
    be 2 c.addr.toNat = [BitVec.ofNat 8 (2 * c.target.toNat + 1), BitVec.ofNat 8 (2 * c.source.toNat + 1)] := by
  have hs := c.source.isLt
  have haddr := (addr_toNat c).trans (addressWord_eq _ hs)
  have hhigh : c.addr.toNat / 256 = 2 * c.target.toNat + 1 := by omega
  have hlow : c.addr.toNat % 256 = 2 * c.source.toNat + 1 := by omega
  rw [be_two, hhigh, hlow]

/-- A memory write over a part of its own length replaces that part. -/
theorem memWrite_part {a old rest : Bytes} {addr n : Nat} (ha : a.length = addr) (hold : old.length = n) (v : Nat) :
    memWrite (a ++ (old ++ rest)) addr n v = a ++ (be n v ++ rest) := by
  have hrest : (a ++ (old ++ rest)).drop (addr + n) = rest := by
    rw [← List.append_assoc]; exact List.drop_left' (by rw [List.length_append, ha, hold])
  rw [memWrite, List.take_left' ha, hrest, List.append_assoc]

theorem slice_part {a b rest : Bytes} {i j : Nat} (ha : a.length = i) (hb : i + b.length = j) :
    slice (a ++ (b ++ rest)) i j = b := by
  rw [slice, List.drop_left' ha, List.take_left' (by omega)]

/-- Steps 1 and 2: the head is written, and both CRCs are still zero. -/
theorem patchLength_assembleFrame (cfg : Cfg) (p : Par) (dt : Dt12) (n : Nat) (fields : Bytes) :
    patchLength (assembleFrame cfg p dt n fields) =
      [p.hdlcFlag] ++ (frameHead cfg (34 + fields.length) ++
        ([0x00, 0x00] ++ (frameInfo p dt n fields ++ ([0x00, 0x00] ++ [p.hdlcFlag])))) := by
  have hparts : assembleFrame cfg p dt n fields = [p.hdlcFlag] ++ ([0x00, 0x00] ++
      (be 2 cfg.addr.toNat ++ ([Config.control] ++ ([0x00, 0x00] ++ (frameInfo p dt n fields ++ ([0x00, 0x00] ++ [p.hdlcFlag])))))) := by
    simp [assembleFrame, frameInfo, Config.dtCount, Config.structTag]
  rw [patchLength, assembleFrame_length, hparts, memWrite_part (by rfl) (by rfl), be_addr]
  simp [frameHead, Config.lenBase, Config.control]

/-- Step 3: everything up to the frame CRC is written. -/
theorem patchHcs_patchLength (cfg : Cfg) (p : Par) (dt : Dt12) (n : Nat) (fields : Bytes) :
    patchHcs (patchLength (assembleFrame cfg p dt n fields)) =
      [p.hdlcFlag] ++ (frameBody cfg p dt n fields ++ ([0x00, 0x00] ++ [p.hdlcFlag])) := by
  have hhead := frameHead_length cfg (34 + fields.length)
  rw [patchHcs, patchLength_assembleFrame, slice_part (by rfl) (by rw [hhead]), ← List.append_assoc [p.hdlcFlag] (frameHead ..),
    memWrite_part (by rw [List.length_append, hhead]; rfl) (by rfl)]
  simp only [frameBody, List.append_assoc]

/-- R166: the four steps leave the frame of the table. -/
theorem patched_eq_layoutFrame (cfg : Cfg) (p : Par) (dt : Dt12) (n : Nat) (fields : Bytes) :
    patchFcs (patchHcs (patchLength (assembleFrame cfg p dt n fields))) = layoutFrame cfg p dt n fields := by
  have hfcs : ([p.hdlcFlag] ++ (frameBody cfg p dt n fields ++ ([0x00, 0x00] ++ [p.hdlcFlag]))).length - 3 =
      1 + (frameBody cfg p dt n fields).length := by
    simp only [List.length_append, List.length_cons, List.length_nil]; omega
  rw [patchHcs_patchLength, patchFcs, hfcs, slice_part (by rfl) (by rfl), ← List.append_assoc [p.hdlcFlag],
    memWrite_part (by rw [List.length_append]; rfl) (by rfl)]
  simp only [layoutFrame, List.append_assoc]

/-! ### BUILD_FRAME over entries that encode (R167, R168) -/

/-- Entries that encode are interpreted, and their snapshot encodes to the same fields. -/
theorem exists_snapshot_of_fields {p : Par} {ents : List RawEntry} {fields : List Bytes}
    (h : List.Forall₂ (fun e b => encFieldBytes p e = .ok b) ents fields) :
    ∃ snap, interpAll p ents = .ok snap ∧ encodeFields p snap = .ok fields := by
  simp only [interpAll_ok_iff, encodeFields_ok_iff]
  induction h with
  | nil => exact ⟨[], .nil, .nil⟩
  | cons hfield _ ih =>
    obtain ⟨v, hv, hb⟩ := encFieldBytes_ok_iff.mp hfield
    obtain ⟨snap, hsnap, hfields⟩ := ih
    exact ⟨v :: snap, .cons hv hsnap, .cons hb hfields⟩

/-- R167: once every entry has encoded, the count and then the length decide. -/
theorem buildRaw_of_fields {p : Par} {ents : List RawEntry} {fields : List Bytes}
    (h : List.Forall₂ (fun e b => encFieldBytes p e = .ok b) ents fields) (cfg : Cfg) (dt : Dt12) :
    buildRaw cfg p ents dt =
      if 255 < ents.length then .error .invalidEntry
      else if 24577 < fields.flatten.length + 34 then .error .frameTooLong
      else .ok (layoutFrame cfg p dt ents.length fields.flatten) := by
  obtain ⟨snap, hinterp, hencode⟩ := exists_snapshot_of_fields h
  have hcount : snap.length = ents.length := (interpAll_ok_iff.mp hinterp).length_eq.symm
  have hlimit : 0xFFFF < Config.lenBase + (34 + fields.flatten.length) - 2 ↔ 24577 < fields.flatten.length + 34 := by
    rw [Config.lenBase]; omega
  simp only [buildRaw, hinterp, buildFrame, hencode, hcount, hlimit, patched_eq_layoutFrame]

theorem exec_buildFrame_of_ok {s : State} {dt : Dt12} {ents : List RawEntry} {frame : Bytes}
    (h : buildRaw s.cfg s.par ents dt = .ok frame) :
    exec (.buildFrame dt ents) s = .next { s with response := some (0x00 :: be 2 frame.length ++ frame) } := by
  rw [exec, execBuildFrame, h]
  rfl

theorem exec_buildFrame_of_fault {s : State} {dt : Dt12} {ents : List RawEntry} {f : FaultCode}
    (h : buildRaw s.cfg s.par ents dt = .error f) :
    exec (.buildFrame dt ents) s = .next { s with response := some [f.code] } := by
  rw [exec, execBuildFrame, h]
  rfl

/-! ### Where the parts of the layout stand (R160) -/

section Parts

variable (cfg : Cfg) (p : Par) (dt : Dt12) (n : Nat) (fields : Bytes)

theorem slice_layoutFrame_length : slice (layoutFrame cfg p dt n fields) 1 3 = be 2 (0xA000 + (34 + fields.length) - 2) := by
  simp only [layoutFrame, frameBody, frameHead, List.append_assoc]
  exact slice_part rfl rfl

theorem slice_layoutFrame_head : slice (layoutFrame cfg p dt n fields) 1 6 = frameHead cfg (34 + fields.length) := by
  simp only [layoutFrame, frameBody, List.append_assoc]
  exact slice_part rfl rfl

theorem slice_layoutFrame_hcs :
    slice (layoutFrame cfg p dt n fields) 6 8 = be 2 (crc16 (frameHead cfg (34 + fields.length))).toNat := by
  have hfront : ([p.hdlcFlag] ++ frameHead cfg (34 + fields.length)).length = 6 := rfl
  simp only [layoutFrame, frameBody, List.append_assoc]
  rw [← List.append_assoc]
  exact slice_part hfront rfl

theorem slice_layoutFrame_body :
    slice (layoutFrame cfg p dt n fields) 1 (34 + fields.length - 3) = frameBody cfg p dt n fields := by
  have hbody := frameBody_length cfg p dt n fields
  simp only [layoutFrame, List.append_assoc]
  exact slice_part rfl (by omega)

theorem slice_layoutFrame_fcs :
    slice (layoutFrame cfg p dt n fields) (34 + fields.length - 3) (34 + fields.length - 1) =
      be 2 (crc16 (frameBody cfg p dt n fields)).toNat := by
  have hfront : ([p.hdlcFlag] ++ frameBody cfg p dt n fields).length = 34 + fields.length - 3 := by
    rw [List.length_append, frameBody_length, List.length_singleton]; omega
  rw [layoutFrame, List.append_assoc]
  exact slice_part hfront (by rw [be_length]; omega)

theorem slice_layoutFrame_last :
    slice (layoutFrame cfg p dt n fields) (34 + fields.length - 1) (34 + fields.length) = [p.hdlcFlag] := by
  have hlen := layoutFrame_length cfg p dt n fields
  rw [layoutFrame, List.length_append, List.length_singleton] at hlen
  rw [layoutFrame, slice, List.drop_left' (by omega), List.take_of_length_le (by rw [List.length_singleton]; omega)]

end Parts

/-! ### What a frame says of itself (R169) -/

/-- The four properties of R169: the limits of its length, the flag at both ends, the length field, and both CRCs. -/
structure DescribesItself (flag : Byte) (frame : Bytes) : Prop where
  atLeast : 34 ≤ frame.length
  atMost : frame.length ≤ 24577
  opens : slice frame 0 1 = [flag]
  closes : slice frame (frame.length - 1) frame.length = [flag]
  lengthField : memRead frame 1 2 = 0xA000 + frame.length - 2
  hcs : slice frame 6 8 = be 2 (crc16 (slice frame 1 6)).toNat
  fcs : slice frame (frame.length - 3) (frame.length - 1) = be 2 (crc16 (slice frame 1 (frame.length - 3))).toNat

theorem layoutFrame_describesItself (cfg : Cfg) (p : Par) (dt : Dt12) (n : Nat) {fields : Bytes} (h : 34 + fields.length ≤ 24577) :
    DescribesItself p.hdlcFlag (layoutFrame cfg p dt n fields) where
  atLeast := by rw [layoutFrame_length]; omega
  atMost := by rwa [layoutFrame_length]
  opens := rfl
  closes := by rw [layoutFrame_length, slice_layoutFrame_last]
  lengthField := by rw [layoutFrame_length, memRead, slice_layoutFrame_length, beVal_be_of_lt (by omega)]
  hcs := by rw [slice_layoutFrame_hcs, slice_layoutFrame_head]
  fcs := by rw [layoutFrame_length, slice_layoutFrame_fcs, slice_layoutFrame_body]

theorem buildFrame_describesItself {cfg : Cfg} {p : Par} {snap : Snapshot} {dt : Dt12} {frame : Bytes}
    (h : buildFrame cfg p snap dt = .ok frame) : DescribesItself p.hdlcFlag frame := by
  obtain ⟨fields, -, -, hlimit, hframe⟩ := buildFrame_ok_iff.mp h
  rw [hframe, patched_eq_layoutFrame]
  exact layoutFrame_describesItself cfg p dt snap.length hlimit

theorem finish_answersOk {s : State} {r : Result Bytes} {payload : Bytes} (h : answersOk (s.finish r) payload) :
    r = .ok payload := by
  obtain ⟨b, hr, hnext⟩ | ⟨f, -, hnext⟩ := s.finish_cases r <;> rw [hnext] at h <;>
    obtain ⟨hstatus, hpayload⟩ := answersOk_respond.mp h
  · rw [hr, hpayload]
  · cases hstatus

/-- Each of the three commands that answers OK has built the frame of its payload. -/
theorem exists_buildFrame_of_answersOk {i : Instr} {s t : State} {payload : Bytes}
    (hi : isEncode .power i ∨ isEncode .energy i ∨ ∃ dt ents, i = .buildFrame dt ents) (hexec : exec i s = .next t)
    (hok : answersOk t payload) : ∃ snap dt frame, buildFrame s.cfg s.par snap dt = .ok frame ∧ payload = blob frame := by
  have ofEncode {stream : Stream} (henc : isEncode stream i) :
      ∃ snap dt frame, buildFrame s.cfg s.par snap dt = .ok frame ∧ payload = blob frame := by
    obtain ⟨_, dt, snap, frame, hemit, hpayload⟩ := encode_emits henc hexec hok
    exact ⟨snap, dt, frame, hemit.built, hpayload⟩
  obtain henc | henc | ⟨dt, ents, rfl⟩ := hi
  · exact ofEncode henc
  · exact ofEncode henc
  · rw [exec, execBuildFrame] at hexec
    cases hexec
    obtain ⟨frame, hraw, hpayload⟩ := map_ok (finish_answersOk hok)
    obtain ⟨snap, -, hbuild⟩ := buildRaw_ok_iff.mp hraw
    exact ⟨snap, dt, frame, hbuild, hpayload⟩

/-! ### The obligations -/

/-- Settles O38: the patched frame is the layout's. -/
theorem buildFrameAnswersTheLayout : Obligations.BuildFrameAnswersTheLayout := by
  intro s dt ents fields hfields hcount hlimit
  have hraw := buildRaw_of_fields hfields s.cfg dt
  rw [if_neg (by omega), if_neg (by omega)] at hraw
  have hexec := exec_buildFrame_of_ok hraw
  have hlen := layoutFrame_length s.cfg s.par dt ents.length fields.flatten
  rw [hlen] at hexec
  simp only [layoutFrame, frameBody, frameInfo, frameHead, List.append_assoc] at hlen hexec ⊢
  exact ⟨hlen, hexec⟩

/-- Settles O39: one entry that does not encode decides, and over fields the two limits do, the count before the length. -/
theorem buildFrameFaultsInOrder : Obligations.BuildFrameFaultsInOrder := by
  intro s dt ents
  refine ⟨fun ⟨e, he, hrefused⟩ => exec_buildFrame_of_mem_refused he hrefused dt, fun fields hfields => ?_⟩
  have hraw := buildRaw_of_fields hfields s.cfg dt
  constructor
  · intro hcount
    rw [if_pos hcount] at hraw
    exact exec_buildFrame_of_fault hraw
  · intro hcount hlong
    rw [if_neg (by omega), if_pos hlong] at hraw
    exact exec_buildFrame_of_fault hraw

/-- Settles O40: the payload is a frame that `buildFrame` made, and so one of the layout. -/
theorem framesDescribeThemselves : Obligations.FramesDescribeThemselves := by
  intro i s t payload hi hexec hok
  obtain ⟨snap, dt, frame, hbuild, rfl⟩ := exists_buildFrame_of_answersOk hi hexec hok
  obtain ⟨hatLeast, hatMost, hopens, hcloses, hlength, hhcs, hfcs⟩ := buildFrame_describesItself hbuild
  exact ⟨frame, rfl, hatLeast, hatMost, hopens, hcloses, hlength, hhcs, hfcs⟩

end Sys2Proof.Proofs
end

section
/-! The family of 46_snapshot.md: the conversion of the readings, what COMPOSE answers and in which order it faults, the frames that an
encode builds of a composed snapshot, and the faults of an encode. -/

namespace Sys2Proof.Proofs

open Machine Safety

/-! ### The conversions (R182) -/

theorem trunc_eq_floor {q : Rat} (h : 0 ≤ q) : trunc q = q.floor := by
  rw [trunc, Int.tdiv_eq_ediv_of_nonneg (Rat.num_nonneg.mpr h), Rat.floor_def]

theorem trunc_neg (q : Rat) : trunc (-q) = -trunc q := by
  simp [trunc]

/-- R9: below zero, the integer in the direction of zero is the next one above. -/
theorem trunc_eq_ceil {q : Rat} (h : q < 0) : trunc q = q.ceil := by
  have hneg : trunc (-q) = (-q).floor := trunc_eq_floor (by linarith)
  rw [← neg_neg (trunc q), ← trunc_neg, hneg, Rat.ceil_eq_neg_floor_neg]

theorem trunc_eq (q : Rat) : trunc q = if 0 ≤ q then q.floor else q.ceil := by
  split
  · rename_i h; exact trunc_eq_floor h
  · rename_i h; exact trunc_eq_ceil (not_le.mp h)

theorem convInt_intCast (v : Int) : convInt v = .ok v := by
  simp [convInt]

/-- R182: `conv_int` takes the integers and no other rational. -/
theorem convInt_of_fraction {q : Rat} (h : ∀ v : Int, q ≠ v) : convInt q = .error .invalidEntry := by
  have hden : q.den ≠ 1 := fun hd => h q.num (Rat.coe_int_num_of_den_eq_one hd).symm
  rw [convInt, if_neg hden]

/-- R182: the one conversion that fails is that of a fraction under one of the four integer keys. -/
theorem convert_fault_iff {p : Par} {k : Key} {q : Rat} {f : FaultCode} :
    convert p k q = .error f ↔ f = .invalidEntry ∧ k ∈ [Key.P, .PO, .Q, .QO] ∧ ∀ v : Int, q ≠ v := by
  have hint : convInt q = .error f ↔ f = .invalidEntry ∧ ∀ v : Int, q ≠ v := by
    by_cases hq : ∃ v : Int, q = v
    · obtain ⟨v, rfl⟩ := hq
      rw [convInt_intCast]
      simp
    · push Not at hq
      rw [convInt_of_fraction hq]
      simp [hq, eq_comm]
  cases k <;> simp [convert, hint]

/-! ### The required readings (R66, R180, R181) -/

theorem hasDuplicateKey_eq_false_iff {rd : List Reading} : hasDuplicateKey rd = false ↔ (rd.map Reading.key).Nodup := by
  induction rd with
  | nil => simp [hasDuplicateKey]
  | cons r rs ih => simp [hasDuplicateKey, ih]

theorem lookup_eq_none_iff {rd : List Reading} {k : Key} : lookup rd k = none ↔ ∀ r ∈ rd, r.key ≠ k.bytes := by
  simp [lookup]

/-- What `lookup` finds is the value of a reading with that key. -/
theorem mem_of_lookup {rd : List Reading} {k : Key} {raw : Bytes} (h : lookup rd k = some raw) :
    ∃ r ∈ rd, r.key = k.bytes ∧ r.value = raw := by
  obtain ⟨r, hfind, hvalue⟩ := Option.map_eq_some_iff.mp h
  exact ⟨r, List.mem_of_find?_eq_some hfind, by simpa using List.find?_some hfind, hvalue⟩

/-- Where no key occurs twice, `lookup` finds each reading. -/
theorem lookup_of_mem {rd : List Reading} (hnodup : (rd.map Reading.key).Nodup) {r : Reading} (hr : r ∈ rd) {k : Key}
    (hkey : r.key = k.bytes) : lookup rd k = some r.value := by
  cases hlookup : lookup rd k with
  | none => exact absurd hkey (lookup_eq_none_iff.mp hlookup r hr)
  | some raw =>
    obtain ⟨r', hr', hkey', rfl⟩ := mem_of_lookup hlookup
    rw [List.inj_on_of_nodup_map hnodup hr' hr (hkey'.trans hkey.symm)]

/-- R181: a required key is absent. -/
def Missing (p : Par) (stream : Stream) (rd : List Reading) : Prop :=
  ∃ k ∈ requiredKeys p stream, ∀ r ∈ rd, r.key ≠ k.bytes

/-- R180: a required reading is no numeral. -/
def Malformed (p : Par) (stream : Stream) (rd : List Reading) : Prop :=
  ∃ k ∈ requiredKeys p stream, ∃ r ∈ rd, r.key = k.bytes ∧ numeral r.value = none

/-- R182: a required reading that `conv_int` converts is no integer. -/
def Fractional (p : Par) (stream : Stream) (rd : List Reading) : Prop :=
  ∃ k ∈ requiredKeys p stream, k ∈ [Key.P, .PO, .Q, .QO] ∧
    ∃ r ∈ rd, r.key = k.bytes ∧ ∀ v : Int, numeral r.value ≠ some (v : Rat)

/-- R186: an energy snapshot of a LAST_POWER build has no power part. -/
abbrev NoPowerPart (p : Par) (lastPower : Option Snapshot) (stream : Stream) : Prop :=
  stream = .energy ∧ p.energyPrefix = .lastPower ∧ lastPower = none

theorem missing_iff {p : Par} {stream : Stream} {rd : List Reading} :
    Missing p stream rd ↔ ∃ k ∈ requiredKeys p stream, lookup rd k = none := by
  simp only [Missing, lookup_eq_none_iff]

section Present

variable {p : Par} {stream : Stream} {rd : List Reading} {k : Key}

theorem exists_lookup_of_not_missing (h : ¬ Missing p stream rd) (hk : k ∈ requiredKeys p stream) :
    ∃ raw, lookup rd k = some raw :=
  Option.ne_none_iff_exists'.mp fun hnone => h (missing_iff.mpr ⟨k, hk, hnone⟩)

theorem exists_numeral_of_not_malformed (h : ¬ Malformed p stream rd) (hk : k ∈ requiredKeys p stream) {raw : Bytes}
    (hraw : lookup rd k = some raw) : ∃ q, numeral raw = some q := by
  obtain ⟨r, hr, hkey, rfl⟩ := mem_of_lookup hraw
  exact Option.ne_none_iff_exists'.mp fun hnone => h ⟨k, hk, r, hr, hkey, hnone⟩

theorem converted_of_numeral {raw : Bytes} {q : Rat} (hraw : lookup rd k = some raw) (hq : numeral raw = some q) :
    converted p rd k = convert p k q := by
  simp only [converted, hraw, hq]

theorem readingValue_of_numeral {raw : Bytes} {q : Rat} (hraw : lookup rd k = some raw) (hq : numeral raw = some q) :
    readingValue rd k = some q := by
  simp only [readingValue, hraw, Option.bind_some, hq]

/-- A converted reading is there and is a numeral. -/
theorem present_of_converted {v : Int} (h : converted p rd k = .ok v) :
    ∃ raw q, lookup rd k = some raw ∧ numeral raw = some q ∧ convert p k q = .ok v := by
  unfold converted at h
  split at h
  · cases h
  · rename_i raw hraw
    split at h
    · cases h
    · rename_i q hq
      exact ⟨raw, q, hraw, hq, h⟩

/-- A required reading that is there and is a numeral fails to convert only as R182 says. -/
theorem converted_fault_of_present (hpresent : ¬ Missing p stream rd) (hshape : ¬ Malformed p stream rd)
    (hk : k ∈ requiredKeys p stream) {f : FaultCode} (h : converted p rd k = .error f) :
    f = .invalidEntry ∧ Fractional p stream rd := by
  obtain ⟨raw, hraw⟩ := exists_lookup_of_not_missing hpresent hk
  obtain ⟨q, hq⟩ := exists_numeral_of_not_malformed hshape hk hraw
  rw [converted_of_numeral hraw hq] at h
  obtain ⟨hf, hkey, hfraction⟩ := convert_fault_iff.mp h
  obtain ⟨r, hr, hbytes, rfl⟩ := mem_of_lookup hraw
  exact ⟨hf, k, hk, hkey, r, hr, hbytes, fun v hv => hfraction v (Option.some.inj (hq.symm.trans hv))⟩

/-- A fraction under an integer key does not convert. -/
theorem exists_not_converted_of_fractional (hnodup : (rd.map Reading.key).Nodup) (h : Fractional p stream rd) :
    ∃ k ∈ requiredKeys p stream, ∀ v, converted p rd k ≠ .ok v := by
  obtain ⟨k, hk, hkey, r, hr, hbytes, hfraction⟩ := h
  refine ⟨k, hk, fun v hv => ?_⟩
  obtain ⟨raw, q, hraw, hq, hconvert⟩ := present_of_converted hv
  rw [lookup_of_mem hnodup hr hbytes, Option.some.injEq] at hraw
  subst hraw
  have hfault : convert p k q = .error .invalidEntry :=
    convert_fault_iff.mpr ⟨rfl, hkey, fun w hw => hfraction w (by rw [hq, hw])⟩
  cases hfault.symm.trans hconvert

end Present

/-! ### The converted values, key by key (R182) -/

/-- The converted power reading of a key. -/
def powerValueAt (v : PowerValues) : Key → Int
  | .P => v.P
  | .PO => v.PO
  | .Q => v.Q
  | .QO => v.QO
  | .I1 => v.I1
  | .I2 => v.I2
  | .I3 => v.I3
  | .U1 => v.U1
  | .U2 => v.U2
  | .U3 => v.U3
  | _ => 0

/-- The converted energy reading of a key. -/
def energyValueAt (w : EnergyValues) : Key → Int
  | .tPI => w.tPI
  | .tPO => w.tPO
  | .tQI => w.tQI
  | .tQO => w.tQO
  | _ => 0

/-- The four converted energy readings, from a value for each key. -/
def energyValuesOf (v : Key → Int) : EnergyValues where
  tPI := v .tPI
  tPO := v .tPO
  tQI := v .tQI
  tQO := v .tQO

theorem powerValues_ok_iff {p : Par} {rd : List Reading} {v : PowerValues} :
    powerValues p rd = .ok v ↔ ∀ k ∈ powerKeys, converted p rd k = .ok (powerValueAt v k) := by
  simp only [powerKeys, List.forall_mem_cons, List.not_mem_nil, false_imp_iff, implies_true, and_true, powerValueAt]
  refine ⟨powerValues_ok, fun ⟨hP, hPO, hQ, hQO, hI1, hI2, hI3, hU1, hU2, hU3⟩ => ?_⟩
  rw [powerValues, hP, hPO, hQ, hQO, hI1, hI2, hI3, hU1, hU2, hU3]
  rfl

theorem energyValues_ok_iff {p : Par} {rd : List Reading} {w : EnergyValues} :
    energyValues p rd = .ok w ↔ ∀ k ∈ energyKeys, converted p rd k = .ok (energyValueAt w k) := by
  simp only [energyKeys, List.forall_mem_cons, List.not_mem_nil, false_imp_iff, implies_true, and_true, energyValueAt]
  refine ⟨energyValues_ok, fun ⟨htPI, htPO, htQI, htQO⟩ => ?_⟩
  rw [energyValues, htPI, htPO, htQI, htQO]
  rfl

theorem powerValueAt_powerValuesOf (v : Key → Int) : ∀ k ∈ powerKeys, powerValueAt (powerValuesOf v) k = v k := by
  simp [powerKeys, powerValueAt, powerValuesOf]

theorem energyValueAt_energyValuesOf (v : Key → Int) : ∀ k ∈ energyKeys, energyValueAt (energyValuesOf v) k = v k := by
  simp [energyKeys, energyValueAt, energyValuesOf]

theorem powerValues_of_converted {p : Par} {rd : List Reading} {v : Key → Int}
    (h : ∀ k ∈ powerKeys, converted p rd k = .ok (v k)) : powerValues p rd = .ok (powerValuesOf v) :=
  powerValues_ok_iff.mpr fun k hk => by rw [powerValueAt_powerValuesOf v k hk, h k hk]

theorem energyValues_of_converted {p : Par} {rd : List Reading} {v : Key → Int}
    (h : ∀ k ∈ energyKeys, converted p rd k = .ok (v k)) : energyValues p rd = .ok (energyValuesOf v) :=
  energyValues_ok_iff.mpr fun k hk => by rw [energyValueAt_energyValuesOf v k hk, h k hk]

/-! ### The composer's checks in their order (R187) -/

section Checks

variable {cfg : Cfg} {p : Par} {lp : Option Snapshot} {stream : Stream} {rd : List Reading} {dt : Dt12}

theorem composeSnapshot_of_duplicate (h : ¬ (rd.map Reading.key).Nodup) :
    composeSnapshot cfg p lp stream rd dt = .error .invalidEntry := by
  rw [← hasDuplicateKey_eq_false_iff, Bool.not_eq_false] at h
  rw [composeSnapshot, if_pos h]

/-- Where no key occurs twice, the other checks follow. -/
theorem composeSnapshot_of_nodup (hnodup : (rd.map Reading.key).Nodup) :
    composeSnapshot cfg p lp stream rd dt =
      if NoPowerPart p lp stream then .error .missingField
      else if (requiredKeys p stream).any (fun k => (lookup rd k).isNone) then .error .missingField
      else if (requiredKeys p stream).any (fun k => (readingValue rd k).isNone) then .error .invalidEntry
      else composeValues cfg p lp stream rd dt := by
  rw [composeSnapshot, hasDuplicateKey_eq_false_iff.mpr hnodup, if_neg Bool.false_ne_true]

theorem composeSnapshot_of_noPowerPart (hnodup : (rd.map Reading.key).Nodup) (h : NoPowerPart p lp stream) :
    composeSnapshot cfg p lp stream rd dt = .error .missingField := by
  rw [composeSnapshot_of_nodup hnodup, if_pos h]

theorem any_lookup_isNone_iff : (requiredKeys p stream).any (fun k => (lookup rd k).isNone) = true ↔ Missing p stream rd := by
  simp [missing_iff]

theorem composeSnapshot_of_missing (hnodup : (rd.map Reading.key).Nodup) (hpart : ¬ NoPowerPart p lp stream)
    (h : Missing p stream rd) : composeSnapshot cfg p lp stream rd dt = .error .missingField := by
  rw [composeSnapshot_of_nodup hnodup, if_neg hpart, if_pos (any_lookup_isNone_iff.mpr h)]

/-- Where every required reading is there, the last check is on their values alone. -/
theorem composeSnapshot_of_present (hnodup : (rd.map Reading.key).Nodup) (hpart : ¬ NoPowerPart p lp stream)
    (hpresent : ¬ Missing p stream rd) :
    composeSnapshot cfg p lp stream rd dt =
      if (requiredKeys p stream).any (fun k => (readingValue rd k).isNone) then .error .invalidEntry
      else composeValues cfg p lp stream rd dt := by
  rw [composeSnapshot_of_nodup hnodup, if_neg hpart, if_neg (any_lookup_isNone_iff.not.mpr hpresent)]

theorem composeSnapshot_of_malformed (hnodup : (rd.map Reading.key).Nodup) (hpart : ¬ NoPowerPart p lp stream)
    (hpresent : ¬ Missing p stream rd) (h : Malformed p stream rd) :
    composeSnapshot cfg p lp stream rd dt = .error .invalidEntry := by
  obtain ⟨k, hk, r, hr, hkey, hnone⟩ := h
  have hvalue : readingValue rd k = none := by rw [readingValue, lookup_of_mem hnodup hr hkey, Option.bind_some, hnone]
  rw [composeSnapshot_of_present hnodup hpart hpresent, if_pos (List.any_eq_true.mpr ⟨k, hk, by rw [hvalue]; rfl⟩)]

theorem composeSnapshot_of_numerals (hnodup : (rd.map Reading.key).Nodup) (hpart : ¬ NoPowerPart p lp stream)
    (hpresent : ¬ Missing p stream rd) (hshape : ¬ Malformed p stream rd) :
    composeSnapshot cfg p lp stream rd dt = composeValues cfg p lp stream rd dt := by
  rw [composeSnapshot_of_present hnodup hpart hpresent, if_neg]
  rw [List.any_eq_true]
  rintro ⟨k, hk, hnone⟩
  obtain ⟨raw, hraw⟩ := exists_lookup_of_not_missing hpresent hk
  obtain ⟨q, hq⟩ := exists_numeral_of_not_malformed hshape hk hraw
  rw [readingValue_of_numeral hraw hq] at hnone
  cases hnone

/-- A composition has converted every required reading. -/
theorem converted_of_composeValues {snap : Snapshot} (h : composeValues cfg p lp stream rd dt = .ok snap) :
    ∀ k ∈ requiredKeys p stream, ∃ v, converted p rd k = .ok v := by
  intro k hk
  obtain ⟨rfl, v, hv, -⟩ | ⟨rfl, hbuild, v, w, hv, hw, -⟩ | ⟨rfl, hbuild, pre, w, -, hw, -⟩ := composeValues_ok h
  · exact ⟨_, powerValues_ok_iff.mp hv k hk⟩
  · simp only [requiredKeys, hbuild, List.mem_append] at hk
    exact hk.elim (fun hk => ⟨_, powerValues_ok_iff.mp hv k hk⟩) fun hk => ⟨_, energyValues_ok_iff.mp hw k hk⟩
  · simp only [requiredKeys, hbuild] at hk
    exact ⟨_, energyValues_ok_iff.mp hw k hk⟩

theorem composeSnapshot_of_fractional (hnodup : (rd.map Reading.key).Nodup) (hpart : ¬ NoPowerPart p lp stream)
    (hpresent : ¬ Missing p stream rd) (hshape : ¬ Malformed p stream rd) (h : Fractional p stream rd) :
    composeSnapshot cfg p lp stream rd dt = .error .invalidEntry := by
  rw [composeSnapshot_of_numerals hnodup hpart hpresent hshape]
  cases hvalues : composeValues cfg p lp stream rd dt with
  | ok snap =>
    obtain ⟨k, hk, hfails⟩ := exists_not_converted_of_fractional hnodup h
    obtain ⟨v, hv⟩ := converted_of_composeValues hvalues k hk
    exact absurd hv (hfails v)
  | error f =>
    obtain ⟨-, hempty⟩ | ⟨k, hk, hfault⟩ := composeValues_fault hvalues
    · exact absurd hempty hpart
    · rw [(converted_fault_of_present hpresent hshape hk hfault).1]

/-- Where none of the five causes holds, COMPOSE has a snapshot. -/
theorem exists_composeSnapshot (hnodup : (rd.map Reading.key).Nodup) (hpart : ¬ NoPowerPart p lp stream)
    (hpresent : ¬ Missing p stream rd) (hshape : ¬ Malformed p stream rd) (hinteger : ¬ Fractional p stream rd) :
    ∃ snap, composeSnapshot cfg p lp stream rd dt = .ok snap := by
  rw [composeSnapshot_of_numerals hnodup hpart hpresent hshape]
  cases hvalues : composeValues cfg p lp stream rd dt with
  | ok snap => exact ⟨snap, rfl⟩
  | error f =>
    obtain ⟨-, hempty⟩ | ⟨k, hk, hfault⟩ := composeValues_fault hvalues
    · exact absurd hempty hpart
    · exact absurd (converted_fault_of_present hpresent hshape hk hfault).2 hinteger

/-- Required readings that convert pass the checks. -/
theorem composeSnapshot_of_converted (hdup : hasDuplicateKey rd = false) (hpart : ¬ NoPowerPart p lp stream)
    (h : ∀ k ∈ requiredKeys p stream, ∃ v, converted p rd k = .ok v) :
    composeSnapshot cfg p lp stream rd dt = composeValues cfg p lp stream rd dt := by
  have hnodup := hasDuplicateKey_eq_false_iff.mp hdup
  refine composeSnapshot_of_numerals hnodup hpart ?_ ?_
  · rintro ⟨k, hk, habsent⟩
    obtain ⟨v, hv⟩ := h k hk
    obtain ⟨raw, q, hraw, -⟩ := present_of_converted hv
    cases (lookup_eq_none_iff.mpr habsent).symm.trans hraw
  · rintro ⟨k, hk, r, hr, hkey, hnone⟩
    obtain ⟨v, hv⟩ := h k hk
    obtain ⟨raw, q, hraw, hq, -⟩ := present_of_converted hv
    obtain rfl := Option.some.inj ((lookup_of_mem hnodup hr hkey).symm.trans hraw)
    cases hnone.symm.trans hq

end Checks

theorem exec_compose_of_fault {s : State} {stream : Stream} {rd : List Reading} {dt : Dt12} {f : FaultCode}
    (h : composeSnapshot s.cfg s.par s.lastPower stream rd dt = .error f) :
    exec (.compose stream dt rd) s = .next { s with response := some [f.code] } := by
  rw [exec, execCompose, composePayload, h]
  rfl

/-! ### The `entries` form of a snapshot (R62, R188) -/

/-- An entry as a COMPOSE response carries it, if its value has bytes there. -/
def rawForm (e : Entry) : Option RawEntry :=
  (valueBytes e.value).map (RawEntry.mk e.tag)

theorem rawEntries_cons_eq_some_iff {e : Entry} {es : Snapshot} {r : RawEntry} {rs : List RawEntry} :
    rawEntries (e :: es) = some (r :: rs) ↔ rawForm e = some r ∧ r.value.length ≤ 65535 ∧ rawEntries es = some rs := by
  rw [rawEntries, rawForm]
  cases valueBytes e.value with
  | none => simp
  | some v =>
    cases rawEntries es with
    | none => simp
    | some rest =>
      simp only [Option.ite_none_right_eq_some, Option.some.injEq, List.cons.injEq, Option.map_some]
      constructor
      · rintro ⟨hfits, rfl, rfl⟩; exact ⟨rfl, hfits, rfl⟩
      · rintro ⟨rfl, hfits, rfl⟩; exact ⟨hfits, rfl, rfl⟩

theorem rawEntries_cons_ne_nil (e : Entry) (es : Snapshot) : rawEntries (e :: es) ≠ some [] := by
  rw [rawEntries]
  split
  · split <;> simp
  · simp

/-- `rawEntries` takes each entry to its form, and asks of each that its value fits a blob. -/
theorem rawEntries_eq_some_iff {snap : Snapshot} {rs : List RawEntry} :
    rawEntries snap = some rs ↔ snap.map rawForm = rs.map some ∧ ∀ r ∈ rs, r.value.length ≤ 65535 := by
  induction snap generalizing rs with
  | nil => cases rs <;> simp [rawEntries]
  | cons e es ih =>
    cases rs with
    | nil => simp [rawEntries_cons_ne_nil]
    | cons r rs =>
      rw [rawEntries_cons_eq_some_iff, ih]
      simp only [List.map_cons, List.cons.injEq, List.forall_mem_cons, and_assoc, and_left_comm]

theorem hexU_length (b : Bytes) : (hexU b).length = 2 * b.length := by
  induction b with
  | nil => rfl
  | cons x r ih => simp only [hexU, List.length_cons, ih]; omega

theorem rawForm_entryU32 (p : Par) (v : Int) : rawForm (entryU32 p v) = some ⟨p.tagU32, canonicalNumeral v⟩ := by
  simp [rawForm, entryU32, valueBytes]

theorem rawForm_entryU16 (p : Par) (v : Int) : rawForm (entryU16 p v) = some ⟨p.tagU16, canonicalNumeral v⟩ := by
  simp [rawForm, entryU16, valueBytes]

/-- R183, R184: the forms of the composed power entries are the table's. -/
theorem map_rawForm_powerSnap (cfg : Cfg) (p : Par) (v : Key → Int) :
    (powerSnap cfg p (powerValuesOf v)).map rawForm = (powerTable cfg p v).map some := by
  simp only [powerSnap, List.map_cons, List.map_nil, rawForm_entryU32, rawForm_entryU16]
  rfl

/-- R183, R185: the same of the energy entries. -/
theorem map_rawForm_energyTail (p : Par) (v : Key → Int) (dt : Dt12) :
    (energyTail p (energyValuesOf v) dt).map rawForm = (energyTable p v dt).map some := by
  simp only [energyTail, List.map_cons, List.map_nil, rawForm_entryU32]
  rfl

/-- The identity strings and the codes fit a blob, so the numerals decide. -/
theorem powerTable_fits {cfg : Cfg} (hcfg : cfg.ok = true) (p : Par) {v : Key → Int}
    (h : ∀ k ∈ powerKeys, (canonicalNumeral (v k)).length ≤ 65535) : ∀ r ∈ powerTable cfg p v, r.value.length ≤ 65535 := by
  have hstrings : ∀ b ∈ [cfg.listLabel, cfg.meterId, cfg.meterType], b.length ≤ 65535 :=
    fun b hb => ((cfg_ok_iff.mp hcfg) b hb).1.trans (by decide)
  simp only [powerKeys, List.forall_mem_cons] at h hstrings
  simp [powerTable, hexU_length, h, hstrings]

theorem energyTable_fits (p : Par) (dt : Dt12) {v : Key → Int}
    (h : ∀ k ∈ energyKeys, (canonicalNumeral (v k)).length ≤ 65535) : ∀ r ∈ energyTable p v dt, r.value.length ≤ 65535 := by
  simp only [energyKeys, List.forall_mem_cons] at h
  simp [energyTable, hexU_length, dtBytes_length, h]

/-! ### COMPOSE's answer (R184, R185, R188) -/

/-- R188: COMPOSE answers the forms of its snapshot's entries. -/
theorem exec_compose_of_rawEntries {s : State} {stream : Stream} {rd : List Reading} {dt : Dt12} {snap : Snapshot}
    {rs : List RawEntry} (hsnap : composeSnapshot s.cfg s.par s.lastPower stream rd dt = .ok snap)
    (hraw : rawEntries snap = some rs) (hcount : rs.length ≤ 65535) :
    exec (.compose stream dt rd) s = .next { s with response := some (0x00 :: entriesBytes rs) } := by
  rw [exec, execCompose, composePayload, hsnap]
  simp only [snapshotPayload, hraw, if_pos hcount]
  rfl

/-- A COMPOSE that answers OK has composed a snapshot and answers its forms. -/
theorem compose_ok {s t : State} {stream : Stream} {rd : List Reading} {dt : Dt12} {payload : Bytes}
    (hexec : exec (.compose stream dt rd) s = .next t) (hok : answersOk t payload) :
    ∃ snap rs, composeSnapshot s.cfg s.par s.lastPower stream rd dt = .ok snap ∧ rawEntries snap = some rs ∧
      payload = entriesBytes rs := by
  cases hexec
  have hpayload := finish_answersOk hok
  obtain ⟨f, -, h⟩ | ⟨snap, hsnap, ⟨rs, hraw, -, h⟩ | ⟨-, h⟩⟩ := composePayload_cases s stream dt rd <;> cases h.symm.trans hpayload
  exact ⟨snap, rs, hsnap, hraw, rfl⟩

section Composed

variable {cfg : Cfg} {p : Par} {lp : Option Snapshot} {rd : List Reading} {dt : Dt12}

/-- R184: the power snapshot of readings that convert. -/
theorem composeSnapshot_power {v : PowerValues} (hdup : hasDuplicateKey rd = false) (hv : powerValues p rd = .ok v) :
    composeSnapshot cfg p lp .power rd dt = .ok (powerSnap cfg p v) := by
  have hkeys : ∀ k ∈ requiredKeys p .power, ∃ x, converted p rd k = .ok x := fun k hk => ⟨_, powerValues_ok_iff.mp hv k hk⟩
  rw [composeSnapshot_of_converted hdup (fun h => by cases h.1) hkeys]
  simp only [composeValues, hv]
  rfl

/-- R185, R186: the power entries that stand before an energy snapshot's own, which an OWN_INPUT build composes from its readings
and a LAST_POWER build has held. -/
def IsPowerPart (cfg : Cfg) (p : Par) (lp : Option Snapshot) (rd : List Reading) (pre : Snapshot) : Prop :=
  (p.energyPrefix = .ownInput ∧ ∃ v, powerValues p rd = .ok v ∧ pre = powerSnap cfg p v) ∨
    (p.energyPrefix = .lastPower ∧ lp = some pre)

theorem composeSnapshot_energy {w : EnergyValues} {pre : Snapshot} (hdup : hasDuplicateKey rd = false)
    (hpre : IsPowerPart cfg p lp rd pre) (hw : energyValues p rd = .ok w) :
    composeSnapshot cfg p lp .energy rd dt = .ok (pre ++ energyTail p w dt) := by
  obtain ⟨hbuild, v, hv, rfl⟩ | ⟨hbuild, rfl⟩ := hpre
  · rw [composeSnapshot_of_converted hdup (fun h => by cases hbuild.symm.trans h.2.1)]
    · simp only [composeValues, hbuild, hv, hw]
      rfl
    · simp only [requiredKeys, hbuild, List.mem_append]
      exact fun k hk => hk.elim (fun hk => ⟨_, powerValues_ok_iff.mp hv k hk⟩) fun hk => ⟨_, energyValues_ok_iff.mp hw k hk⟩
  · rw [composeSnapshot_of_converted hdup (fun h => by cases h.2.2)]
    · simp only [composeValues, hbuild, hw]
      rfl
    · simp only [requiredKeys, hbuild]
      exact fun k hk => ⟨_, energyValues_ok_iff.mp hw k hk⟩

theorem composeSnapshot_energy_ok {snap : Snapshot} (h : composeSnapshot cfg p lp .energy rd dt = .ok snap) :
    hasDuplicateKey rd = false ∧
      ∃ pre w, IsPowerPart cfg p lp rd pre ∧ energyValues p rd = .ok w ∧ snap = pre ++ energyTail p w dt := by
  obtain ⟨hdup, -, -, -, hvalues⟩ := composeSnapshot_ok h
  obtain ⟨hstream, -⟩ | ⟨-, hbuild, v, w, hv, hw, rfl⟩ | ⟨-, hbuild, pre, w, rfl, hw, rfl⟩ := composeValues_ok hvalues
  · cases hstream
  · exact ⟨hdup, _, w, .inl ⟨hbuild, v, hv, rfl⟩, hw, rfl⟩
  · exact ⟨hdup, pre, w, .inr ⟨hbuild, rfl⟩, hw, rfl⟩

end Composed

/-! ### The fields of a snapshot (R102 to R105, R107) -/

/-- The entry has a field (R107). -/
def Encodes (p : Par) (e : Entry) : Prop :=
  ∃ b, encodeField p e = .ok b

/-- What R189 reads from an entry's field: the tag, and the payload without the length byte of a string. -/
def fieldContent (p : Par) (e : Entry) : Byte × Bytes :=
  (e.tag, match e.value with
    | .num q => be (if e.tag = p.tagU32 then 4 else 2) q.num.toNat
    | .str b => b
    | .hex h => (hexDecode h).getD [])

/-- The bytes of an entry's field: the tag, the length byte of a string, and the payload. -/
def fieldSize (p : Par) (e : Entry) : Nat :=
  match e.value with
  | .num _ => 1 + (fieldContent p e).2.length
  | _ => 2 + (fieldContent p e).2.length

/-- R189: a field is read back as the content of its entry, whatever follows it. -/
theorem readField_encodeField {p : Par} {e : Entry} {b : Bytes} (h : encodeField p e = .ok b) (r : Bytes) :
    readField p (b ++ r) = some (fieldContent p e, r) := by
  obtain ⟨v, rfl, -, rfl⟩ | ⟨v, rfl, hU32, -, rfl⟩ | ⟨s, rfl, hU32, hU16, -, hlen, rfl⟩ |
    ⟨x, d, rfl, hU32, hU16, -, hdecode, hlen, rfl⟩ := encodeField_ok h
  · simp [readField, fieldContent, be_length]
  · simp [readField, fieldContent, be_length, hU32]
  · simp [readField, fieldContent, hU32, hU16, Nat.mod_eq_of_lt (Nat.lt_succ_of_le hlen)]
  · simp [readField, fieldContent, hU32, hU16, hdecode, Nat.mod_eq_of_lt (Nat.lt_succ_of_le hlen)]

theorem encodeField_length {p : Par} {e : Entry} {b : Bytes} (h : encodeField p e = .ok b) : b.length = fieldSize p e := by
  obtain ⟨v, rfl, -, rfl⟩ | ⟨v, rfl, hU32, -, rfl⟩ | ⟨s, rfl, -, -, -, -, rfl⟩ | ⟨x, d, rfl, -, -, -, hdecode, -, rfl⟩ :=
    encodeField_ok h
  · simp [fieldSize, fieldContent, be_length]
  · simp [fieldSize, fieldContent, be_length, hU32]
  · simp [fieldSize, fieldContent]; omega
  · simp [fieldSize, fieldContent, hdecode]; omega

/-- R189: the fields of a snapshot are read back entry by entry. -/
theorem readFields_encodeFields {p : Par} {snap : Snapshot} {fields : List Bytes} (h : encodeFields p snap = .ok fields)
    (r : Bytes) : readFields p snap.length (fields.flatten ++ r) = some (snap.map (fieldContent p), r) := by
  have hfields := encodeFields_ok_iff.mp h
  clear h
  induction hfields with
  | nil => rfl
  | cons hb _ ih =>
    simp only [List.length_cons, readFields, List.flatten_cons, List.append_assoc, readField_encodeField hb, ih, List.map_cons]

theorem encodeFields_length {p : Par} {snap : Snapshot} {fields : List Bytes} (h : encodeFields p snap = .ok fields) :
    fields.flatten.length = (snap.map (fieldSize p)).sum := by
  have hfields := encodeFields_ok_iff.mp h
  clear h
  induction hfields with
  | nil => rfl
  | cons hb _ ih => rw [List.flatten_cons, List.length_append, encodeField_length hb, ih, List.map_cons, List.sum_cons]

/-- R167: a snapshot encodes when each of its entries does. -/
theorem exists_encodeFields_iff {p : Par} {snap : Snapshot} :
    (∃ fields, encodeFields p snap = .ok fields) ↔ ∀ e ∈ snap, Encodes p e := by
  simp only [encodeFields_ok_iff]
  induction snap with
  | nil => simp
  | cons e es ih =>
    rw [List.forall_mem_cons, ← ih]
    constructor
    · rintro ⟨_, hfields⟩
      obtain ⟨b, bs, hb, hbs, -⟩ := List.forall₂_cons_left_iff.mp hfields
      exact ⟨⟨b, hb⟩, bs, hbs⟩
    · rintro ⟨⟨b, hb⟩, bs, hbs⟩
      exact ⟨b :: bs, .cons hb hbs⟩

/-! ### The fields of the composed entries (R102 to R105, R183) -/

theorem isHexDigit_hexDigitU {n : Nat} (h : n < 16) : isHexDigit (hexDigitU n) n := by
  unfold hexDigitU isHexDigit
  split <;> rw [BitVec.toNat_ofNat] <;> omega

/-- `hexU` writes the hex string that the octet field reads (R105, R185). -/
theorem hexDecode_hexU (b : Bytes) : hexDecode (hexU b) = some b := by
  induction b with
  | nil => rfl
  | cons x r ih =>
    have hx := x.isLt
    exact hexDecode_eq_cons_iff.mpr
      ⟨_, _, _, rfl, isHexDigit_hexDigitU (by omega), isHexDigit_hexDigitU (by omega), ih⟩

section ComposedEntries

variable {p : Par}

/-- R102, R103: a composed integer has a field when that holds it. -/
theorem encodes_integer_iff (hok : p.ok = true) {tag : Byte} {n : Nat} (htag : integerTag p tag n) (v : Int) :
    Encodes p ⟨tag, .num v⟩ ↔ 0 ≤ v ∧ v < 2 ^ (8 * n) := by
  simp only [Encodes, encodeField_integer hok htag, encodeInt_ok_iff]
  constructor
  · rintro ⟨-, m, hm, hfits, -⟩
    obtain rfl : v = m := by exact_mod_cast hm
    exact ⟨Int.natCast_nonneg m, by exact_mod_cast hfits⟩
  · rintro ⟨hnonneg, hfits⟩
    obtain ⟨m, rfl⟩ := Int.eq_ofNat_of_zero_le hnonneg
    exact ⟨_, m, rfl, by exact_mod_cast hfits, rfl⟩

theorem encodes_entryU32_iff (hok : p.ok = true) {v : Int} : Encodes p (entryU32 p v) ↔ 0 ≤ v ∧ v ≤ 4294967295 := by
  rw [entryU32, encodes_integer_iff hok (.inl ⟨rfl, rfl⟩)]
  norm_num; omega

theorem encodes_entryU16_iff (hok : p.ok = true) {v : Int} : Encodes p (entryU16 p v) ↔ 0 ≤ v ∧ v ≤ 65535 := by
  rw [entryU16, encodes_integer_iff hok (.inr ⟨rfl, rfl⟩)]
  norm_num; omega

theorem encodes_entryAscii (hok : p.ok = true) {b : Bytes} (h : b.length ≤ 255 ∧ ∀ x ∈ b, x.toNat ≤ 0x7F) :
    Encodes p (entryAscii p b) := by
  obtain ⟨-, hU32, -, hU16, -, -⟩ := of_decide_eq_true hok
  have hfield : encodeField p (entryAscii p b) = encodeAscii p.tagAscii b := by
    simp [encodeField, entryAscii, hU32.symm, hU16.symm]
  exact ⟨_, hfield.trans (encodeAscii_ok_iff.mpr ⟨h.2, h.1, rfl⟩)⟩

theorem encodes_octet (hok : p.ok = true) {b : Bytes} (h : b.length ≤ 255) : Encodes p ⟨p.tagOctet, .hex (hexU b)⟩ := by
  obtain ⟨-, -, hU32, -, hU16, hAscii⟩ := of_decide_eq_true hok
  have hfield : encodeField p ⟨p.tagOctet, .hex (hexU b)⟩ = encodeOctet p.tagOctet (hexU b) := by
    simp [encodeField, hU32.symm, hU16.symm, hAscii.symm]
  exact ⟨_, hfield.trans (encodeOctet_ok_iff.mpr ⟨b, hexDecode_hexU b, h, rfl⟩)⟩

theorem encodes_obis (hok : p.ok = true) (code : BitVec 48) : Encodes p (obis p code) :=
  encodes_octet hok (by simp [be_length])

theorem fieldContent_entryU32 (v : Int) : fieldContent p (entryU32 p v) = (p.tagU32, be 4 v.toNat) := by
  simp [fieldContent, entryU32]

theorem fieldContent_entryU16 (hok : p.ok = true) (v : Int) : fieldContent p (entryU16 p v) = (p.tagU16, be 2 v.toNat) := by
  obtain ⟨hdistinct, -⟩ : p.tagU32 ≠ p.tagU16 ∧ _ := of_decide_eq_true hok
  simp [fieldContent, entryU16, hdistinct.symm]

theorem fieldContent_entryAscii (b : Bytes) : fieldContent p (entryAscii p b) = (p.tagAscii, b) := rfl

theorem fieldContent_octet (b : Bytes) : fieldContent p ⟨p.tagOctet, .hex (hexU b)⟩ = (p.tagOctet, b) := by
  simp [fieldContent, hexDecode_hexU]

theorem fieldContent_obis (code : BitVec 48) : fieldContent p (obis p code) = (p.tagOctet, be 6 code.toNat) :=
  fieldContent_octet _

theorem fieldSize_entryU32 (v : Int) : fieldSize p (entryU32 p v) = 5 := by
  rw [fieldSize, fieldContent_entryU32, be_length]
  rfl

theorem fieldSize_entryU16 (hok : p.ok = true) (v : Int) : fieldSize p (entryU16 p v) = 3 := by
  rw [fieldSize, fieldContent_entryU16 hok, be_length]
  rfl

theorem fieldSize_entryAscii (b : Bytes) : fieldSize p (entryAscii p b) = 2 + b.length := rfl

theorem fieldSize_octet (b : Bytes) : fieldSize p ⟨p.tagOctet, .hex (hexU b)⟩ = 2 + b.length := by
  rw [fieldSize, fieldContent_octet]

theorem fieldSize_obis (code : BitVec 48) : fieldSize p (obis p code) = 8 := by
  rw [obis, fieldSize_octet, be_length]

end ComposedEntries

/-! ### The composed snapshots encode (R184, R185) -/

/-- R102, R103, R184: the seven values of u32 entries and the three of u16 entries are in range. -/
def PowerFits (v : PowerValues) : Prop :=
  (∀ x ∈ [v.P, v.PO, v.Q, v.QO, v.I1, v.I2, v.I3], 0 ≤ x ∧ x ≤ 4294967295) ∧ ∀ x ∈ [v.U1, v.U2, v.U3], 0 ≤ x ∧ x ≤ 65535

/-- R102, R185: the four values of u32 entries are in range. -/
def EnergyFits (w : EnergyValues) : Prop :=
  ∀ x ∈ [w.tPI, w.tPO, w.tQI, w.tQO], 0 ≤ x ∧ x ≤ 4294967295

section Snapshots

variable {cfg : Cfg} {p : Par}

theorem forall_encodes_powerSnap_iff (hcfg : cfg.ok = true) (hok : p.ok = true) {v : PowerValues} :
    (∀ e ∈ powerSnap cfg p v, Encodes p e) ↔ PowerFits v := by
  have hstrings : ∀ b ∈ [cfg.listLabel, cfg.meterId, cfg.meterType], Encodes p (entryAscii p b) :=
    fun b hb => encodes_entryAscii hok (cfg_ok_iff.mp hcfg b hb)
  simp only [List.forall_mem_cons] at hstrings
  simp [PowerFits, powerSnap, hstrings, encodes_obis hok, encodes_entryU32_iff hok, encodes_entryU16_iff hok, and_assoc]

theorem forall_encodes_energyTail_iff (hok : p.ok = true) {w : EnergyValues} (dt : Dt12) :
    (∀ e ∈ energyTail p w dt, Encodes p e) ↔ EnergyFits w := by
  have hdt : Encodes p ⟨p.tagOctet, .hex (hexU (dtBytes dt))⟩ := encodes_octet hok (by simp [dtBytes_length])
  simp [EnergyFits, energyTail, hdt, encodes_obis hok, encodes_entryU32_iff hok]

theorem sum_fieldSize_powerSnap (cfg : Cfg) (hok : p.ok = true) (v : PowerValues) :
    ((powerSnap cfg p v).map (fieldSize p)).sum = 146 + cfg.listLabel.length + cfg.meterId.length + cfg.meterType.length := by
  simp only [powerSnap, List.map_cons, List.map_nil, List.sum_cons, List.sum_nil, fieldSize_entryAscii, fieldSize_obis,
    fieldSize_entryU32, fieldSize_entryU16 hok]
  omega

theorem sum_fieldSize_energyTail (p : Par) (w : EnergyValues) (dt : Dt12) : ((energyTail p w dt).map (fieldSize p)).sum = 74 := by
  simp only [energyTail, List.map_cons, List.map_nil, List.sum_cons, List.sum_nil, fieldSize_octet, fieldSize_obis,
    fieldSize_entryU32, dtBytes_length, Nat.reduceAdd]

end Snapshots

/-! ### Frames of snapshots (R160, R167) -/

section Frames

variable {cfg : Cfg} {p : Par} {snap : Snapshot} {dt : Dt12}

/-- R167: a snapshot whose entries encode, within the limits, has a frame with 34 bytes besides the fields. -/
theorem exists_buildFrame (hencodes : ∀ e ∈ snap, Encodes p e) (hcount : snap.length ≤ 255)
    (hlimit : 34 + (snap.map (fieldSize p)).sum ≤ 24577) :
    ∃ frame, buildFrame cfg p snap dt = .ok frame ∧ frame.length = 34 + (snap.map (fieldSize p)).sum := by
  obtain ⟨fields, hfields⟩ := exists_encodeFields_iff.mpr hencodes
  rw [← encodeFields_length hfields] at hlimit ⊢
  exact ⟨_, buildFrame_ok_iff.mpr ⟨fields, hfields, hcount, hlimit, rfl⟩, by rw [patched_eq_layoutFrame, layoutFrame_length]⟩

/-- R167: one entry that does not encode decides the build. -/
theorem buildFrame_of_mem_not_encodes {e : Entry} (he : e ∈ snap) (h : ¬ Encodes p e) :
    buildFrame cfg p snap dt = .error .invalidEntry := by
  unfold buildFrame
  cases hfields : encodeFields p snap with
  | ok fields => exact absurd (exists_encodeFields_iff.mp ⟨fields, hfields⟩ e he) h
  | error f => simp only [encodeFields_fault hfields]

/-- A snapshot with no `entries` form has no frame either (log entry 9): what encodes has a form, and more than 65535 entries are more
than 255. -/
theorem buildFrame_of_no_form (h : ∀ rs, rawEntries snap = some rs → 65535 < rs.length) :
    buildFrame cfg p snap dt = .error .invalidEntry := by
  unfold buildFrame
  cases hfields : encodeFields p snap with
  | error f => simp only [encodeFields_fault hfields]
  | ok fields =>
    obtain ⟨rs, hraw, hrs⟩ := exists_rawEntries_of_encodeFields (encodeFields_ok_iff.mp hfields)
    have hlong := h rs hraw
    have hcount : 255 < snap.length := by have := hrs.length_eq; omega
    simp only [if_pos hcount]

/-- R160, R189: the entries stand at offset 31, before the three trailer bytes. -/
theorem drop_layoutFrame (cfg : Cfg) (p : Par) (dt : Dt12) (n : Nat) (fields : Bytes) :
    ∃ trailer, trailer.length = 3 ∧ (layoutFrame cfg p dt n fields).drop 31 = fields ++ trailer := by
  refine ⟨be 2 (crc16 (frameBody cfg p dt n fields)).toNat ++ [p.hdlcFlag], by simp [be_length], ?_⟩
  simp only [layoutFrame]
  generalize crc16 (frameBody cfg p dt n fields) = fcs
  simp [frameBody, frameHead, frameInfo, be, dtBytes]

/-- R189: the entries of a frame are read back from offset 31. -/
theorem readFields_buildFrame {frame : Bytes} (h : buildFrame cfg p snap dt = .ok frame) :
    ∃ trailer, trailer.length = 3 ∧ readFields p snap.length (frame.drop 31) = some (snap.map (fieldContent p), trailer) := by
  obtain ⟨fields, hfields, -, -, hframe⟩ := buildFrame_ok_iff.mp h
  obtain ⟨trailer, hlen, hdrop⟩ := drop_layoutFrame cfg p dt snap.length fields.flatten
  refine ⟨trailer, hlen, ?_⟩
  rw [hframe, patched_eq_layoutFrame, hdrop]
  exact readFields_encodeFields hfields trailer

end Frames

/-! ### The ends of an encode (R200, R201, R202) -/

theorem explicitTime_of_parseTs {p : Par} {ts : Bytes} {c : Components} (h : p.parseTs ts = some c) : p.explicitTime ts = .ok c := by
  rw [Par.explicitTime, h]

/-- R201, R202: both encodes of a time are R200 of it. -/
theorem exec_encodes {s t : State} {stream : Stream} {c : Components} {rd : List Reading} (h : encodeAt stream (.ok c) rd s = t)
    (ts : Bytes) :
    (s.clock = c → exec (.encodeClock stream rd) s = .next t) ∧
      (s.par.parseTs ts = some c → exec (.encodeExplicit stream ts rd) s = .next t) := by
  refine ⟨?_, fun hparse => ?_⟩
  · rintro rfl
    rw [exec, execEncodeClock, h]
  · rw [exec, execEncodeExplicit, explicitTime_of_parseTs hparse, h]

section EncodeEnds

variable {s : State} {stream : Stream} {time : Result Components} {rd : List Reading} {dt : Dt12}

theorem encodeAt_of_built (hpack : packTime s.par (streamPolicy stream) time = .ok dt) (hnew : s.lastSeen stream ≠ some dt)
    {snap : Snapshot} (hsnap : composeSnapshot s.cfg s.par s.lastPower stream rd dt = .ok snap) {frame : Bytes}
    (hbuild : buildFrame s.cfg s.par snap dt = .ok frame) :
    encodeAt stream time rd s = (s.commit stream dt snap).respondOk (blob frame) := by
  simp only [encodeAt, hpack, if_neg hnew, composeFrame, hsnap, hbuild]

theorem encodeAt_of_compose_fault (hpack : packTime s.par (streamPolicy stream) time = .ok dt) (hnew : s.lastSeen stream ≠ some dt)
    {f : FaultCode} (hsnap : composeSnapshot s.cfg s.par s.lastPower stream rd dt = .error f) :
    encodeAt stream time rd s = s.raise f := by
  simp only [encodeAt, hpack, if_neg hnew, composeFrame, hsnap]

theorem encodeAt_of_build_fault (hpack : packTime s.par (streamPolicy stream) time = .ok dt) (hnew : s.lastSeen stream ≠ some dt)
    {snap : Snapshot} (hsnap : composeSnapshot s.cfg s.par s.lastPower stream rd dt = .ok snap) {f : FaultCode}
    (hbuild : buildFrame s.cfg s.par snap dt = .error f) : encodeAt stream time rd s = s.raise f := by
  simp only [encodeAt, hpack, if_neg hnew, composeFrame, hsnap, hbuild]

/-- An encode that answers OK has packed its time and emitted the frame of its payload. -/
theorem emits_of_answersOk {t : State} {payload : Bytes} (ht : encodeAt stream time rd s = t) (h : answersOk t payload) :
    ∃ dt snap frame, packTime s.par (streamPolicy stream) time = .ok dt ∧ Emits stream s t rd dt snap frame ∧
      payload = blob frame := by
  obtain ⟨g, -, he⟩ | ⟨dt, hpack, ⟨-, he⟩ | ⟨hnew, ⟨g, -, he⟩ | ⟨snap, hsnap, ⟨g, -, he⟩ | ⟨frame, hbuild, he⟩⟩⟩⟩ :=
    encodeAt_cases stream time rd s <;> obtain rfl := he.symm.trans ht <;> obtain ⟨hstatus, hpayload⟩ := answersOk_respond.mp h
  case inr.inr.inr.inr => exact ⟨dt, snap, frame, hpack, ⟨hnew, hsnap, hbuild, rfl⟩, hpayload.symm⟩
  all_goals cases hstatus

end EncodeEnds

/-- R201, R202: an encode reads its time from the clock and the parser alone. -/
theorem exists_encode_time {j : Instr} {stream : Stream} {rd : List Reading}
    (hj : j = .encodeClock stream rd ∨ ∃ ts, j = .encodeExplicit stream ts rd) {a b : State} (hclock : a.clock = b.clock)
    (hparse : a.par.parseTs = b.par.parseTs) :
    ∃ time, exec j a = .next (encodeAt stream time rd a) ∧ exec j b = .next (encodeAt stream time rd b) := by
  obtain rfl | ⟨ts, rfl⟩ := hj
  · exact ⟨.ok a.clock, rfl, by rw [hclock]; rfl⟩
  · exact ⟨a.par.explicitTime ts, rfl, by simp only [Par.explicitTime, hparse]; rfl⟩

/-! ### Power and energy frames (R184 to R186, R189) -/

section Emitted

variable {cfg : Cfg} {p : Par} {lp : Option Snapshot} {rd : List Reading} {dt : Dt12}

theorem composeSnapshot_power_ok {snap : Snapshot} (h : composeSnapshot cfg p lp .power rd dt = .ok snap) :
    hasDuplicateKey rd = false ∧ ∃ v, powerValues p rd = .ok v ∧ snap = powerSnap cfg p v := by
  obtain ⟨hdup, -, -, -, hvalues⟩ := composeSnapshot_ok h
  obtain ⟨-, v, hv, hsnap⟩ | ⟨hstream, -⟩ | ⟨hstream, -⟩ := composeValues_ok hvalues
  · exact ⟨hdup, v, hv, hsnap⟩
  all_goals cases hstream

/-- R184, R189: what the fields of a power snapshot hold. The codes are R183's, byte by byte. -/
theorem map_fieldContent_powerSnap (hok : p.ok = true) (v : PowerValues) :
    (powerSnap cfg p v).map (fieldContent p) =
      [(p.tagAscii, cfg.listLabel),
       (p.tagOctet, [0x01, 0x01, 0x00, 0x00, 0x05, 0xFF]), (p.tagAscii, cfg.meterId),
       (p.tagOctet, [0x01, 0x01, 0x60, 0x01, 0x01, 0xFF]), (p.tagAscii, cfg.meterType),
       (p.tagOctet, [0x01, 0x01, 0x01, 0x07, 0x00, 0xFF]), (p.tagU32, be 4 v.P.toNat),
       (p.tagOctet, [0x01, 0x01, 0x02, 0x07, 0x00, 0xFF]), (p.tagU32, be 4 v.PO.toNat),
       (p.tagOctet, [0x01, 0x01, 0x03, 0x07, 0x00, 0xFF]), (p.tagU32, be 4 v.Q.toNat),
       (p.tagOctet, [0x01, 0x01, 0x04, 0x07, 0x00, 0xFF]), (p.tagU32, be 4 v.QO.toNat),
       (p.tagOctet, [0x01, 0x01, 0x1F, 0x07, 0x00, 0xFF]), (p.tagU32, be 4 v.I1.toNat),
       (p.tagOctet, [0x01, 0x01, 0x33, 0x07, 0x00, 0xFF]), (p.tagU32, be 4 v.I2.toNat),
       (p.tagOctet, [0x01, 0x01, 0x47, 0x07, 0x00, 0xFF]), (p.tagU32, be 4 v.I3.toNat),
       (p.tagOctet, [0x01, 0x01, 0x20, 0x07, 0x00, 0xFF]), (p.tagU16, be 2 v.U1.toNat),
       (p.tagOctet, [0x01, 0x01, 0x34, 0x07, 0x00, 0xFF]), (p.tagU16, be 2 v.U2.toNat),
       (p.tagOctet, [0x01, 0x01, 0x48, 0x07, 0x00, 0xFF]), (p.tagU16, be 2 v.U3.toNat)] := by
  simp only [powerSnap, List.map_cons, List.map_nil, fieldContent_entryAscii, fieldContent_obis, fieldContent_entryU32,
    fieldContent_entryU16 hok]
  rfl

/-- R186: with the invariant, both builds have a power part that encodes: the readings' own, or the one that LastPower holds. -/
theorem exists_powerPart {s : State} (hinv : Inv s)
    (hown : s.par.energyPrefix = .ownInput → ∃ v, powerValues s.par rd = .ok v ∧ PowerFits v)
    (hlast : s.par.energyPrefix = .lastPower → s.lastPower ≠ none) :
    ∃ v, IsPowerPart s.cfg s.par s.lastPower rd (powerSnap s.cfg s.par v) ∧ ∀ e ∈ powerSnap s.cfg s.par v, Encodes s.par e := by
  obtain ⟨hcfg, hpar⟩ := Bool.and_eq_true_iff.mp hinv.constructed
  cases hbuild : s.par.energyPrefix with
  | ownInput =>
    obtain ⟨v, hv, hfits⟩ := hown hbuild
    exact ⟨v, .inl ⟨hbuild, v, hv, rfl⟩, (forall_encodes_powerSnap_iff hcfg hpar).mpr hfits⟩
  | lastPower =>
    obtain ⟨snap, hsnap⟩ := Option.ne_none_iff_exists'.mp (hlast hbuild)
    obtain ⟨⟨v, rfl⟩, hfields⟩ := hinv.lastPower snap hsnap
    exact ⟨v, .inr ⟨hbuild, hsnap⟩, exists_encodeFields_iff.mp hfields⟩

/-- R160, R185: the frame of a power part that encodes and of energy values in range. The identity strings keep it within the length
limit. -/
theorem exists_energyFrame {v : PowerValues} {w : EnergyValues} (hcfg : cfg.ok = true) (hpar : p.ok = true)
    (hv : ∀ e ∈ powerSnap cfg p v, Encodes p e) (hw : EnergyFits w) :
    ∃ frame, buildFrame cfg p (powerSnap cfg p v ++ energyTail p w dt) dt = .ok frame ∧
      frame.length = 254 + cfg.listLabel.length + cfg.meterId.length + cfg.meterType.length := by
  have hsize : ((powerSnap cfg p v ++ energyTail p w dt).map (fieldSize p)).sum =
      220 + cfg.listLabel.length + cfg.meterId.length + cfg.meterType.length := by
    rw [List.map_append, List.sum_append, sum_fieldSize_powerSnap cfg hpar, sum_fieldSize_energyTail]
    omega
  have hstrings := cfg_ok_iff.mp hcfg
  simp only [List.forall_mem_cons] at hstrings
  obtain ⟨⟨hlabel, -⟩, ⟨hid, -⟩, ⟨htype, -⟩, -⟩ := hstrings
  obtain ⟨frame, hbuild, hlen⟩ := exists_buildFrame (cfg := cfg) (dt := dt)
    (List.forall_mem_append.mpr ⟨hv, (forall_encodes_energyTail_iff hpar dt).mpr hw⟩) (by simp [powerSnap, energyTail])
    (by rw [hsize]; omega)
  exact ⟨frame, hbuild, by rw [hlen, hsize]; omega⟩

end Emitted

/-! ### An encode's faults (R222, R229) -/

/-- The entry of a converted reading: u16 for the voltages, u32 for the others (R184, R185). -/
def readingEntry (p : Par) (k : Key) (v : Int) : Entry :=
  if k ∈ [Key.U1, .U2, .U3] then entryU16 p v else entryU32 p v

/-- R102, R103: a reading's entry encodes when its field holds the value. -/
theorem encodes_readingEntry_iff {p : Par} (hok : p.ok = true) {k : Key} {v : Int} :
    Encodes p (readingEntry p k v) ↔ 0 ≤ v ∧ v ≤ if k ∈ [Key.U1, .U2, .U3] then 65535 else 4294967295 := by
  unfold readingEntry
  split
  · exact encodes_entryU16_iff hok
  · exact encodes_entryU32_iff hok

theorem readingEntry_mem_powerSnap (cfg : Cfg) (p : Par) (v : PowerValues) :
    ∀ k ∈ powerKeys, readingEntry p k (powerValueAt v k) ∈ powerSnap cfg p v := by
  simp [powerKeys, readingEntry, powerValueAt, powerSnap]

theorem readingEntry_mem_energyTail (p : Par) (w : EnergyValues) (dt : Dt12) :
    ∀ k ∈ energyKeys, readingEntry p k (energyValueAt w k) ∈ energyTail p w dt := by
  simp [energyKeys, readingEntry, energyValueAt, energyTail]

/-- R184 to R186: a composed snapshot has an entry for each required reading. -/
theorem readingEntry_mem_of_composeValues {cfg : Cfg} {p : Par} {lp : Option Snapshot} {stream : Stream} {rd : List Reading}
    {dt : Dt12} {snap : Snapshot} (h : composeValues cfg p lp stream rd dt = .ok snap) {k : Key} (hk : k ∈ requiredKeys p stream)
    {x : Int} (hx : converted p rd k = .ok x) : readingEntry p k x ∈ snap := by
  have ofPower {v : PowerValues} (hv : powerValues p rd = .ok v) (hk : k ∈ powerKeys) :
      readingEntry p k x ∈ powerSnap cfg p v := by
    cases hx.symm.trans (powerValues_ok_iff.mp hv k hk)
    exact readingEntry_mem_powerSnap cfg p v k hk
  have ofEnergy {w : EnergyValues} (hw : energyValues p rd = .ok w) (hk : k ∈ energyKeys) :
      readingEntry p k x ∈ energyTail p w dt := by
    cases hx.symm.trans (energyValues_ok_iff.mp hw k hk)
    exact readingEntry_mem_energyTail p w dt k hk
  obtain ⟨rfl, v, hv, rfl⟩ | ⟨rfl, hbuild, v, w, hv, hw, rfl⟩ | ⟨rfl, hbuild, pre, w, -, hw, rfl⟩ := composeValues_ok h
  · exact ofPower hv hk
  · simp only [requiredKeys, hbuild, List.mem_append] at hk
    exact List.mem_append.mpr (hk.imp (ofPower hv) (ofEnergy hw))
  · simp only [requiredKeys, hbuild] at hk
    exact List.mem_append_right pre (ofEnergy hw hk)

section EncodeFaults

variable {s : State} {stream : Stream} {time : Result Components} {rd : List Reading} {dt : Dt12}

/-- R229: an encode answers the fault that COMPOSE answers with its datetime. A snapshot that COMPOSE refuses because it has no
`entries` form has no frame. -/
theorem encodeAt_of_exec_compose (hpack : packTime s.par (streamPolicy stream) time = .ok dt) (hnew : s.lastSeen stream ≠ some dt)
    {f : Byte} (h : exec (.compose stream dt rd) s = .next { s with response := some [f] }) :
    encodeAt stream time rd s = { s with response := some [f] } := by
  have hresponse {t : State} (ht : exec (.compose stream dt rd) s = .next t) : t.response = some [f] := by
    cases h.symm.trans ht
    rfl
  obtain ⟨g, hsnap, hpayload⟩ | ⟨snap, hsnap, ⟨rs, -, -, hpayload⟩ | ⟨hform, hpayload⟩⟩ := composePayload_cases s stream dt rd
  · have hf := hresponse (t := s.raise g) (by rw [exec, execCompose, hpayload]; rfl)
    rw [encodeAt_of_compose_fault hpack hnew hsnap, ← hf]
    rfl
  · have hf := hresponse (t := s.respondOk (entriesBytes rs)) (by rw [exec, execCompose, hpayload]; rfl)
    simp [State.respondOk, entriesBytes, be] at hf
  · have hf := hresponse (t := s.raise .invalidEntry) (by rw [exec, execCompose, hpayload]; rfl)
    rw [encodeAt_of_build_fault hpack hnew hsnap (buildFrame_of_no_form hform), ← hf]
    rfl

/-- R222: where COMPOSE's five causes do not hold, a converted value outside its field decides the build. -/
theorem encodeAt_of_unfit (hpack : packTime s.par (streamPolicy stream) time = .ok dt) (hnew : s.lastSeen stream ≠ some dt)
    (hnodup : (rd.map Reading.key).Nodup) (hpart : ¬ NoPowerPart s.par s.lastPower stream)
    (hpresent : ¬ Missing s.par stream rd) (hshape : ¬ Malformed s.par stream rd) (hinteger : ¬ Fractional s.par stream rd)
    {k : Key} (hk : k ∈ requiredKeys s.par stream) {v : Int} (hv : converted s.par rd k = .ok v)
    (hunfit : ¬ Encodes s.par (readingEntry s.par k v)) : encodeAt stream time rd s = s.raise .invalidEntry := by
  obtain ⟨snap, hsnap⟩ := exists_composeSnapshot (cfg := s.cfg) (dt := dt) hnodup hpart hpresent hshape hinteger
  obtain ⟨-, -, -, -, hvalues⟩ := composeSnapshot_ok hsnap
  exact encodeAt_of_build_fault hpack hnew hsnap
    (buildFrame_of_mem_not_encodes (readingEntry_mem_of_composeValues hvalues hk hv) hunfit)

end EncodeFaults

/-! ### The two ENERGY_PREFIX builds (R186, D25) -/

/-- R186: the field encoder does not read ENERGY_PREFIX. -/
theorem encodeFields_energyPrefix (p : Par) (b : EnergyPrefix) (snap : Snapshot) :
    encodeFields { p with energyPrefix := b } snap = encodeFields p snap := by
  induction snap with
  | nil => rfl
  | cons e es ih =>
    have hfield : encodeField { p with energyPrefix := b } e = encodeField p e := rfl
    rw [encodeFields, encodeFields, hfield, ih]

theorem buildFrame_energyPrefix (cfg : Cfg) (p : Par) (b : EnergyPrefix) (snap : Snapshot) (dt : Dt12) :
    buildFrame cfg { p with energyPrefix := b } snap dt = buildFrame cfg p snap dt := by
  rw [buildFrame, buildFrame, encodeFields_energyPrefix]
  rfl

theorem powerValues_congr {p : Par} {rd rd' : List Reading} (h : ∀ k ∈ powerKeys, lookup rd k = lookup rd' k) {v : PowerValues}
    (hv : powerValues p rd = .ok v) : powerValues p rd' = .ok v := by
  refine powerValues_ok_iff.mpr fun k hk => ?_
  rw [← powerValues_ok_iff.mp hv k hk, converted, converted, h k hk]

/-- An OWN_INPUT block and a LAST_POWER block that an energy encode cannot tell apart otherwise, but for LastPower. -/
structure OtherwiseEqual (own last : State) : Prop where
  cfg : last.cfg = own.cfg
  par : own.par = { last.par with energyPrefix := .ownInput }
  build : last.par.energyPrefix = .lastPower
  clock : last.clock = own.clock
  lastSeen : last.lastSeen .energy = own.lastSeen .energy

section Builds

variable {s t own last : State} {rd : List Reading} {dt : Dt12} {snap : Snapshot} {frame : Bytes}

theorem Emits.sameSetting {stream : Stream} (h : Emits stream s t rd dt snap frame) : SameSetting s t := by
  rw [h.next]
  exact (sameSetting_commit ..).trans (sameSetting_respond ..)

/-- R203: the commit of a power frame in a LAST_POWER build. -/
theorem Emits.lastPower (h : Emits .power s t rd dt snap frame) (hbuild : s.par.energyPrefix = .lastPower) :
    t.lastPower = some snap := by
  rw [h.next, State.respondOk, State.respond_lastPower, State.commit_lastPower, if_pos ⟨rfl, hbuild⟩]

/-- A power frame writes nothing that an energy encode reads, but LastPower. -/
theorem OtherwiseEqual.of_power (h : OtherwiseEqual own last) (hemit : Emits .power last t rd dt snap frame) :
    OtherwiseEqual own t := by
  obtain ⟨hcfg, hpar, -, hclock⟩ := hemit.sameSetting
  have hseen : t.lastSeen .energy = last.lastSeen .energy := by
    rw [hemit.next]; exact last.commit_lastSeen_ne (st := .power) (st' := .energy) (by decide) dt snap
  exact ⟨hcfg.trans h.cfg, by rw [hpar]; exact h.par, by rw [hpar]; exact h.build, hclock.trans h.clock, hseen.trans h.lastSeen⟩

/-- D25: the energy frame of the OWN_INPUT block is that of the LAST_POWER block once it holds the snapshot of the same values. -/
theorem Emits.of_otherwiseEqual {u : State} (h : OtherwiseEqual own last) (hemit : Emits .energy own u rd dt snap frame)
    {v : PowerValues} (hv : powerValues last.par rd = .ok v) (hheld : last.lastPower = some (powerSnap last.cfg last.par v)) :
    Emits .energy last ((last.commit .energy dt snap).respondOk (blob frame)) rd dt snap frame := by
  obtain ⟨hnew, hsnap, hframe, -⟩ := hemit
  rw [← h.lastSeen] at hnew
  rw [← h.cfg, h.par] at hsnap hframe
  rw [buildFrame_energyPrefix] at hframe
  obtain ⟨hdup, pre, w, ⟨-, v', hv', rfl⟩ | ⟨hlast, -⟩, hw, rfl⟩ := composeSnapshot_energy_ok hsnap
  case inr => cases hlast
  obtain rfl : v = v' := Except.ok.inj (hv.symm.trans hv')
  exact ⟨hnew, composeSnapshot_energy hdup (.inr ⟨h.build, hheld⟩) hw, hframe, rfl⟩

end Builds

/-! ### The obligations -/

/-- Settles O42: each key's conversion, and truncation as floor or ceiling. -/
theorem readingsConvertAsStated : Obligations.ReadingsConvertAsStated := by
  intro p rd k raw q hraw hq towardZero
  rw [converted_of_numeral hraw hq]
  refine ⟨fun hk => ⟨?_, fun hfraction => convert_fault_iff.mpr ⟨rfl, hk, hfraction⟩⟩, fun hk => ?_, fun hk => ?_,
    fun hk => ?_, ?_⟩
  · rintro v rfl
    fin_cases hk <;> exact convInt_intCast v
  · fin_cases hk <;> exact congrArg Except.ok (trunc_eq q)
  · fin_cases hk <;> rfl
  · fin_cases hk <;> rfl
  · intro hbuild m
    rw [Par.scale, hbuild]
    exact trunc_eq _

/-- Settles O46: each cause decides once those before it do not hold. -/
theorem composeFaultsInOrder : Obligations.ComposeFaultsInOrder := by
  intro s stream dt rd keys dup empty missing shape conv
  refine ⟨fun hdup => ?_, fun hdup hempty => ?_, fun hdup hempty hmissing => ?_, fun hdup hempty hmissing hshape => ?_,
    fun hdup hempty hmissing hshape hconv => ?_⟩
  · exact exec_compose_of_fault (composeSnapshot_of_duplicate hdup)
  · exact exec_compose_of_fault (composeSnapshot_of_noPowerPart (not_not.mp hdup) hempty)
  · exact exec_compose_of_fault (composeSnapshot_of_missing (not_not.mp hdup) hempty hmissing)
  · exact exec_compose_of_fault (composeSnapshot_of_malformed (not_not.mp hdup) hempty hmissing hshape)
  · exact exec_compose_of_fault (composeSnapshot_of_fractional (not_not.mp hdup) hempty hmissing hshape hconv)

/-- Settles O43: the converted readings compose to the power snapshot, whose forms are the table. -/
theorem composePowerAnswersTheTable : Obligations.ComposePowerAnswersTheTable := by
  intro s dt rd v hconstructed hdup hvalues
  obtain ⟨hcfg, -⟩ := Bool.and_eq_true_iff.mp hconstructed
  have hsnap := composeSnapshot_power (cfg := s.cfg) (lp := s.lastPower) (dt := dt) hdup
    (powerValues_of_converted fun k hk => (hvalues k hk).1)
  have hraw := rawEntries_eq_some_iff.mpr ⟨map_rawForm_powerSnap s.cfg s.par v,
    powerTable_fits hcfg s.par fun k hk => (hvalues k hk).2⟩
  exact exec_compose_of_rawEntries hsnap hraw (by simp [powerTable])

/-- Settles O44: in both builds the power part is the power snapshot of `u`. -/
theorem composeEnergyAnswersTheTable : Obligations.ComposeEnergyAnswersTheTable := by
  intro s dt rd u v hconstructed hdup hvalues hfits hbuild entries
  obtain ⟨hcfg, -⟩ := Bool.and_eq_true_iff.mp hconstructed
  have hpre : IsPowerPart s.cfg s.par s.lastPower rd (powerSnap s.cfg s.par (powerValuesOf u)) :=
    hbuild.imp_left fun ⟨hown, hu⟩ => ⟨hown, _, powerValues_of_converted hu, rfl⟩
  have hsnap := composeSnapshot_energy (dt := dt) hdup hpre (energyValues_of_converted fun k hk => (hvalues k hk).1)
  have hraw : rawEntries (powerSnap s.cfg s.par (powerValuesOf u) ++ energyTail s.par (energyValuesOf v) dt) =
      some (powerTable s.cfg s.par u ++ energyTable s.par v dt) := by
    refine rawEntries_eq_some_iff.mpr ⟨?_, List.forall_mem_append.mpr
      ⟨powerTable_fits hcfg s.par hfits, energyTable_fits s.par dt fun k hk => (hvalues k hk).2⟩⟩
    rw [List.map_append, List.map_append, map_rawForm_powerSnap, map_rawForm_energyTail]
  exact exec_compose_of_rawEntries hsnap hraw (by simp [powerTable, energyTable])

/-- Settles O45: the forms of an energy snapshot are those of the power snapshot of the same readings, and then those of the tail. -/
theorem energySnapshotExtendsThePowerSnapshot : Obligations.EnergySnapshotExtendsThePowerSnapshot := by
  intro s t dt rd payload hown hexec hok
  obtain ⟨snap, rs, hsnap, hraw, rfl⟩ := compose_ok hexec hok
  obtain ⟨hdup, pre, w, ⟨-, v, hv, rfl⟩ | ⟨hlast, -⟩, hw, rfl⟩ := composeSnapshot_energy_ok hsnap
  case inr => cases hown.symm.trans hlast
  obtain ⟨hforms, hfits⟩ := rawEntries_eq_some_iff.mp hraw
  have hpower := map_rawForm_powerSnap s.cfg s.par (powerValueAt v)
  have htail := map_rawForm_energyTail s.par (energyValueAt w) dt
  obtain rfl : powerTable s.cfg s.par (powerValueAt v) ++ energyTable s.par (energyValueAt w) dt = rs := by
    refine List.map_injective_iff.mpr (Option.some_injective _) ?_
    rw [← hforms, List.map_append, List.map_append, ← hpower, ← htail]
    rfl
  refine ⟨(powerTable s.cfg s.par (powerValueAt v)).flatMap entryBytes, energyValueAt w, ?_, energyValues_ok_iff.mp hw, ?_⟩
  · have hrawPower := rawEntries_eq_some_iff.mpr ⟨hpower, (List.forall_mem_append.mp hfits).1⟩
    exact exec_compose_of_rawEntries (composeSnapshot_power hdup hv) hrawPower (by simp [powerTable])
  · rw [entriesBytes, List.flatMap_append, ← List.append_assoc]
    rfl

/-- Settles O48: in both builds the power part is a power snapshot that encodes, and the frame's size is that of its fields and the tail's. -/
theorem encodeEnergyEmitsAndCommits : Obligations.EncodeEnergyEmitsAndCommits := by
  intro s c ts rd w hinv hrange hdup hw hwFits hown hlast dt hnew
  obtain ⟨hcfg, hpar⟩ := Bool.and_eq_true_iff.mp hinv.constructed
  obtain ⟨v, hpre, hencodes⟩ := exists_powerPart hinv hown hlast
  have hsnap := composeSnapshot_energy (dt := dt) hdup hpre hw
  obtain ⟨frame, hbuild, hlen⟩ := exists_energyFrame (dt := dt) hcfg hpar hencodes hwFits
  have hpack : packTime s.par (streamPolicy .energy) (.ok c) = .ok dt := if_pos hrange
  exact ⟨frame, hlen, exec_encodes (encodeAt_of_built hpack hnew hsnap hbuild) ts, slice_buildFrame_datetime hbuild⟩

/-- Settles O55: the frame of an OK answer is built of the power snapshot, whose fields are read back entry by entry. -/
theorem powerFrameReadsBack : Obligations.PowerFrameReadsBack := by
  intro i s t rd f hi hconstructed hexec hok
  obtain ⟨hcfg, hpar⟩ := Bool.and_eq_true_iff.mp hconstructed
  obtain ⟨time, hencode, -⟩ := exists_encode_time hi (a := s) rfl rfl
  obtain ⟨dt, snap, frame, -, hemit, hframe⟩ := emits_of_answersOk (Host.Outcome.next.inj (hencode.symm.trans hexec)) hok
  obtain rfl := blob_eq_iff.mp hframe
  obtain ⟨-, v, hv, rfl⟩ := composeSnapshot_power_ok hemit.composed
  obtain ⟨trailer, hlen, hread⟩ := readFields_buildFrame hemit.built
  obtain ⟨fields, hfields, -⟩ := buildFrame_ok_iff.mp hemit.built
  obtain ⟨hU32, hU16⟩ := (forall_encodes_powerSnap_iff hcfg hpar).mp (exists_encodeFields_iff.mp ⟨fields, hfields⟩)
  refine ⟨v, trailer, hv, hlen, ?_, ?_, fun x hx => ?_, fun x hx => ?_⟩
  · have hnonneg : ∀ x ∈ [v.P, v.PO, v.Q, v.QO, v.I1, v.I2, v.I3] ++ [v.U1, v.U2, v.U3], 0 ≤ x :=
      List.forall_mem_append.mpr ⟨fun x hx => (hU32 x hx).1, fun x hx => (hU16 x hx).1⟩
    exact hnonneg
  · rw [map_fieldContent_powerSnap hpar] at hread
    exact hread
  · have hx' := hU32 x hx
    exact beVal_be_of_lt (by omega)
  · have hx' := hU16 x hx
    exact beVal_be_of_lt (by omega)

/-- Settles O56: after its power frame the LAST_POWER block holds the power part that the OWN_INPUT block composes from the same values,
and both pack one time. -/
theorem energyPrefixModesAgree : Obligations.EnergyPrefixModesAgree := by
  intro s own last t u w i j rdP rdE f g hsame hi hj hown hlast hexecT hokG hexecU hokF hexecW
  have hequal : OtherwiseEqual own last := by subst hown hlast; exact ⟨rfl, rfl, rfl, rfl, rfl⟩
  obtain ⟨timeP, hpower, -⟩ := exists_encode_time hi (a := last) rfl rfl
  obtain ⟨dtP, snapP, frameP, -, hemitT, -⟩ := emits_of_answersOk (Host.Outcome.next.inj (hpower.symm.trans hexecT)) hokG
  obtain ⟨-, v, hv, rfl⟩ := composeSnapshot_power_ok hemitT.composed
  have hequalT := hequal.of_power hemitT
  have hcfg := hemitT.sameSetting.cfg
  have hpar := hemitT.sameSetting.par
  have hheld : t.lastPower = some (powerSnap t.cfg t.par v) := by rw [hcfg, hpar]; exact hemitT.lastPower hequal.build
  obtain ⟨timeE, henergyT, henergyU⟩ := exists_encode_time hj hequalT.clock (by rw [hequalT.par]; rfl)
  obtain ⟨dt, snap, frame, hpack, hemitU, rfl⟩ := emits_of_answersOk (Host.Outcome.next.inj (henergyU.symm.trans hexecU)) hokF
  have hemitW := hemitU.of_otherwiseEqual hequalT (powerValues_congr hsame (by rw [hpar]; exact hv)) hheld
  have hpackT : packTime t.par (streamPolicy .energy) timeE = .ok dt := by rw [hequalT.par] at hpack; exact hpack
  rw [← encodeAt_of_built hpackT hemitW.new hemitW.composed hemitW.built,
    Host.Outcome.next.inj (henergyT.symm.trans hexecW)] at hemitW
  exact ⟨hemitW.answers, hemitW.lastSeen.trans hemitU.lastSeen.symm⟩

/-- Settles O59: what O46 says of COMPOSE holds of both encodes, and a value that does not fit has no field. -/
theorem encodeFaultsInComposesOrder : Obligations.EncodeFaultsInComposesOrder := by
  intro s stream c ts rd dt hpack hnew answers keys dup empty missing shape conv unfit
  have htime : packTime s.par (streamPolicy stream) (.ok c) = .ok dt := hpack
  have hcompose : ∀ f : Byte, exec (.compose stream dt rd) s = .next { s with response := some [f] } → answers f :=
    fun f hf => exec_encodes (encodeAt_of_exec_compose htime hnew hf) ts
  obtain ⟨hdup, hempty, hmissing, hshape, hconv⟩ := composeFaultsInOrder s stream dt rd
  refine ⟨hcompose, fun h1 => hcompose _ (hdup h1), fun h1 h2 => hcompose _ (hempty h1 h2),
    fun h1 h2 h3 => hcompose _ (hmissing h1 h2 h3), fun h1 h2 h3 h4 => hcompose _ (hshape h1 h2 h3 h4),
    fun h1 h2 h3 h4 h5 => hcompose _ (hconv h1 h2 h3 h4 h5), ?_⟩
  rintro hconstructed h1 h2 h3 h4 h5 ⟨k, hk, v, hv, houtside⟩
  obtain ⟨-, hpar⟩ := Bool.and_eq_true_iff.mp hconstructed
  have hunfit : ¬ Encodes s.par (readingEntry s.par k v) := fun hfits => by
    have := (encodes_readingEntry_iff hpar).mp hfits
    omega
  exact exec_encodes (encodeAt_of_unfit htime hnew (not_not.mp h1) h2 h3 h4 h5 hk hv hunfit) ts

end Sys2Proof.Proofs
end

section
/-! The family of 47_encode.md: a power encode emits and commits, a duplicate is suppressed, and no answer but OK comes with a state
write. -/

namespace Sys2Proof.Proofs

open Machine Safety

/-! ### Answers other than OK (R203, R204, R226) -/

/-- R72: only OK carries a payload. -/
theorem payload_eq_nil_of_not_ok {i : Instr} {s t : State} {c : Byte} {payload : Bytes} (hexec : exec i s = .next t)
    (hresp : t.response = some (c :: payload)) (hc : c ≠ 0x00) : payload = [] := by
  obtain ⟨t', hexec', status, -, payload', hresp', halone, -⟩ := exec_answersIn i s
  cases hexec.symm.trans hexec'
  cases hresp.symm.trans hresp'
  exact halone fun hok => hc (statusCode_eq_zero.mpr hok)

/-- R203: each effect that writes a register answers OK, so another answer is all that its command wrote. -/
theorem Effect.eq_of_not_ok {i : Instr} {s t : State} {c : Byte} {payload : Bytes} (h : Effect i s t)
    (hresp : t.response = some (c :: payload)) (hc : c ≠ 0x00) : t = { s with response := some (c :: payload) } := by
  cases h with
  | clears | records => cases hresp; exact absurd rfl hc
  | emits hi hemit => cases hemit.answers.symm.trans hresp; exact absurd rfl hc
  | responds status payload' => rw [← hresp]; rfl

/-- R204: the peek ends an encode before its readings are looked at. -/
theorem encodeAt_of_seen {s : State} {stream : Stream} {time : Result Components} {dt : Dt12}
    (hpack : packTime s.par (streamPolicy stream) time = .ok dt) (hseen : s.lastSeen stream = some dt) (rd : List Reading) :
    encodeAt stream time rd s = s.suppress := by
  simp only [encodeAt, hpack, if_pos hseen]

/-! ### A power encode that emits (R184, R200, R203) -/

/-- R203: the commit of a power encode, field by field. An OWN_INPUT build has no LastPower to write (R31). -/
theorem commit_power_eq (s : State) (dt : Dt12) (snap : Snapshot) :
    s.commit .power dt snap =
      { s with lastSeenPower := some dt
               lastPower := if s.par.energyPrefix = .lastPower then some snap else s.lastPower } := by
  simp only [State.commit, State.setLastPower, State.setLastSeen]
  cases s.par.energyPrefix <;> rfl

/-- R132, R137: a time that fits its fields packs on POWER to the datetime with its second cut to the ten. -/
theorem packTime_power {c : Components} (p : Par) (hrange : inRange c = true) :
    packTime p (streamPolicy .power) (.ok c) =
      .ok (dtOfBytes (dtFields p.dtSuffix { c with second := 10 * (c.second / 10) })) := by
  rw [streamPolicy, packTime, packDatetime, if_pos hrange, roundTime_power]

/-- R160, R184: the frame of power values in range. The identity strings keep it within the length limit. -/
theorem exists_powerFrame {cfg : Cfg} {p : Par} {v : PowerValues} (dt : Dt12) (hcfg : cfg.ok = true) (hpar : p.ok = true)
    (hv : PowerFits v) :
    ∃ frame, buildFrame cfg p (powerSnap cfg p v) dt = .ok frame ∧
      frame.length = 180 + cfg.listLabel.length + cfg.meterId.length + cfg.meterType.length := by
  have hsize := sum_fieldSize_powerSnap cfg hpar v
  have hstrings := cfg_ok_iff.mp hcfg
  simp only [List.forall_mem_cons] at hstrings
  obtain ⟨⟨hlabel, -⟩, ⟨hid, -⟩, ⟨htype, -⟩, -⟩ := hstrings
  obtain ⟨frame, hbuild, hlen⟩ := exists_buildFrame (cfg := cfg) (dt := dt) ((forall_encodes_powerSnap_iff hcfg hpar).mpr hv)
    (by simp [powerSnap]) (by omega)
  exact ⟨frame, hbuild, by omega⟩

/-! ### The obligations -/

/-- Settles O47: the readings compose to a power snapshot in range, its frame is built, and the commit writes the two registers. -/
theorem encodePowerEmitsAndCommits : Obligations.EncodePowerEmitsAndCommits := by
  intro s c ts rd v hconstructed hrange hdup hv hU32 hU16 dt hnew
  obtain ⟨hcfg, hpar⟩ := Bool.and_eq_true_iff.mp hconstructed
  obtain ⟨frame, hbuild, hlen⟩ := exists_powerFrame dt hcfg hpar ⟨hU32, hU16⟩
  have hencode := encodeAt_of_built (stream := .power) (packTime_power s.par hrange) hnew (composeSnapshot_power hdup hv) hbuild
  rw [commit_power_eq] at hencode
  exact ⟨frame, hlen, exec_encodes hencode ts, slice_buildFrame_datetime hbuild⟩

/-- Settles O49: both encodes end at the peek. -/
theorem duplicatesAreSuppressed : Obligations.DuplicatesAreSuppressed := by
  intro s stream c ts rd dt hpack hseen
  have htime : packTime s.par (streamPolicy stream) (.ok c) = .ok dt := hpack
  exact exec_encodes (encodeAt_of_seen htime hseen rd) ts

/-- Settles O16: an answer other than OK is the status byte alone, and all that its command wrote. -/
theorem faultsAndSuppressionsWriteNoState : Obligations.FaultsAndSuppressionsWriteNoState := by
  intro i s t c payload hexec hresp hc
  cases payload_eq_nil_of_not_ok hexec hresp hc
  exact (exec_effect hexec).eq_of_not_ok hresp hc

end Sys2Proof.Proofs
end

section
/-! The families of 48_control.md, 60_exceptions.md and 70_reset_and_hazards.md: RESET and construction, the steps that run no
command, and the time that an encode packs before it looks at anything else. -/

namespace Sys2Proof.Proofs

open Machine Safety

/-! ### RESET (R210, R241) -/

/-- R210, field by field. An OWN_INPUT build has no LastPower to clear (R31). -/
theorem clear_eq (s : State) :
    s.clear = { s with lastSeenPower := none, lastSeenEnergy := none,
                       lastPower := if s.par.energyPrefix = .lastPower then none else s.lastPower } := by
  simp only [State.clear, State.setLastPower, State.setLastSeen]
  cases s.par.energyPrefix <;> rfl

/-- R31, R241: on a block with the invariant nothing is held after RESET, in either build. -/
theorem clear_eq_of_inv {s : State} (h : Inv s) :
    s.clear = { s with lastSeenPower := none, lastSeenEnergy := none, lastPower := none } := by
  rw [clear_eq]
  cases hbuild : s.par.energyPrefix with
  | ownInput => simp [h.ownInput hbuild]
  | lastPower => rfl

/-- What the host supplies for a block with these registers (R242). -/
def identity (c : Cfg) : MeterIdentity where
  target := c.target.toNat
  source := c.source.toNat
  listLabel := c.listLabel
  meterId := c.meterId
  meterType := c.meterType

theorem registers_identity (c : Cfg) : registers (identity c) = c := by
  simp only [registers, identity, BitVec.ofNat_toNat, BitVec.setWidth_eq]

/-- R240: construction accepts the Cfg and Par of a constructed block again. -/
theorem construct_identity {s : State} (h : s.constructed = true) :
    construct (identity s.cfg) s.par = .next { State.reset with cfg := s.cfg, par := s.par } := by
  obtain ⟨hcfg, hpar⟩ := Bool.and_eq_true_iff.mp h
  have htarget : s.cfg.target.toNat ≤ 127 := Nat.le_of_lt_succ s.cfg.target.isLt
  have hsource : s.cfg.source.toNat ≤ 127 := Nat.le_of_lt_succ s.cfg.source.isLt
  have hregisters := registers_identity s.cfg
  obtain ⟨-, hnext⟩ | ⟨hfails, -⟩ := construct_cases (identity s.cfg) s.par
  · rw [hnext, powerOn, hregisters]
  · exact absurd ⟨htarget, hsource, by rwa [hregisters], hpar⟩ hfails

/-! ### Steps (R211, R220, R228, R234) -/

/-- R234: the idle step of a constructed block. -/
theorem step_of_inbox_nil {s : State} (hconstructed : s.constructed = true) (hinbox : s.inbox = []) : step s = .next s := by
  simp only [step, hconstructed, if_true, State.accept, hinbox]

theorem SameSetting.constructed {s t : State} (h : SameSetting s t) : t.constructed = s.constructed := by
  rw [State.constructed, State.constructed, h.cfg, h.par]

/-- No command's bytes begin another's, so a byte string that starts with a command fixes it and what follows it (R77). -/
theorem encode_append_inj {i j : Instr} (hi : i.wellFormed = true) (hj : j.wellFormed = true) {x y : Bytes}
    (h : encode i ++ x = encode j ++ y) : i = j ∧ x = y := by
  obtain ⟨hop, hoperands⟩ : opcode i = opcode j ∧ operandBytes i ++ x = operandBytes j ++ y := by simpa [encode] using h
  have hread := operands_operandBytes hi x
  rw [hop, hoperands, operands_operandBytes hj y] at hread
  cases hread
  exact ⟨rfl, rfl⟩

/-- R77: the decoder rejects every byte string that is not the encoding of a well-formed command. -/
theorem exists_decode_error {c : Bytes} (h : ∀ i : Instr, i.wellFormed = true → c ≠ encode i) : ∃ e, decode c = .error e := by
  cases hdecode : decode c with
  | error e => exact ⟨e, rfl⟩
  | ok i =>
    obtain ⟨hbytes, hwf⟩ := decode_ok hdecode
    exact absurd hbytes (h i hwf)

/-- R211: a command with bytes missing at its end would begin with a shorter command. -/
theorem take_encode_ne_encode {i j : Instr} (hi : i.wellFormed = true) (hj : j.wellFormed = true) {k : Nat}
    (hk : k < (encode i).length) : (encode i).take k ≠ encode j := by
  intro hshort
  have hsplit : encode i ++ [] = encode j ++ (encode i).drop k := by rw [← hshort, List.take_append_drop, List.append_nil]
  have hrest := (encode_append_inj hi hj hsplit).2
  exact absurd (List.drop_eq_nil_iff.mp hrest.symm) (Nat.not_le_of_lt hk)

/-- R211: a command with bytes left over would be a longer command that begins with it. -/
theorem encode_append_ne_encode {i j : Instr} (hi : i.wellFormed = true) (hj : j.wellFormed = true) {x : Bytes} (hx : x ≠ []) :
    encode i ++ x ≠ encode j := by
  intro hlong
  exact hx (encode_append_inj hi hj (hlong.trans (List.append_nil _).symm)).2

/-- R71: the first operand byte of a command with a stream operand is one of the two selectors. -/
theorem selector_of_encode {i : Instr} {op b : Byte} {r : Bytes} (hop : op ∈ [(0x40 : Byte), 0x60, 0x70, 0x71])
    (h : op :: b :: r = encode i) : b = 0x00 ∨ b = 0x01 := by
  obtain ⟨rfl, hoperands⟩ := List.cons.inj h
  have hselector : ∃ stream, b = streamByte stream := by
    cases i with
    | shouldEmit stream | compose stream | encodeClock stream | encodeExplicit stream =>
      exact ⟨stream, (List.cons.inj hoperands).1⟩
    | _ => exact absurd hop (by simp [opcode])
  obtain ⟨stream, rfl⟩ := hselector
  cases stream with
  | power => exact .inl rfl
  | energy => exact .inr rfl

/-! ### The time of an encode (R200, R223, R229, R243) -/

/-- R229: a time that does not pack ends an encode before the table and the readings are looked at. -/
theorem encodeAt_of_pack_fault {s : State} {stream : Stream} {time : Result Components} {f : FaultCode}
    (hpack : packTime s.par (streamPolicy stream) time = .error f) (rd : List Reading) : encodeAt stream time rd s = s.raise f := by
  simp only [encodeAt, hpack]

theorem packTime_of_not_inRange {c : Components} (h : inRange c = false) (p : Par) (policy : Policy) :
    packTime p policy (.ok c) = .error .invalidTimestamp := by
  obtain ⟨hrange, -⟩ | ⟨-, hpack⟩ := packDatetime_cases p policy c
  · exact absurd (hrange.symm.trans h) (by decide)
  · exact hpack

theorem explicitTime_of_no_parse {p : Par} {ts : Bytes} (h : p.parseTs ts = none) : p.explicitTime ts = .error .invalidTimestamp := by
  rw [Par.explicitTime, h]

/-- R150: whether it returned true or false, after a SHOULD_EMIT its datetime is the last one seen. -/
theorem lastSeen_of_shouldEmit {s t : State} {stream : Stream} {dt : Dt12} (h : exec (.shouldEmit stream dt) s = .next t) :
    t.lastSeen stream = some dt := by
  obtain ⟨hseen, hexec⟩ | ⟨-, hexec⟩ := execShouldEmit_cases stream dt s <;> cases hexec.symm.trans h
  · exact hseen
  · exact s.setLastSeen_lastSeen ..

/-- R138, R139: the datetime in the answer of a PACK_DT is the packed time. -/
theorem packTime_of_answersOk {s : State} {policy : Policy} {time : Result Components} {dt : Dt12}
    (h : answersOk (s.finish ((packTime s.par policy time).map dtBytes)) (dtBytes dt)) : packTime s.par policy time = .ok dt := by
  obtain ⟨dt', hpack, hbytes⟩ := map_ok (finish_answersOk h)
  rw [hpack, dtBytes_inj hbytes]

/-- R243: the encode of a time that packs to the datetime of the SHOULD_EMIT before it. -/
theorem encodeAt_after_shouldEmit {s t : State} {stream : Stream} {time : Result Components} {dt : Dt12}
    (hemit : exec (.shouldEmit stream dt) s = .next t) (hpar : t.par = s.par)
    (hpack : answersOk (s.finish ((packTime s.par (streamPolicy stream) time).map dtBytes)) (dtBytes dt)) (rd : List Reading) :
    encodeAt stream time rd t = { t with response := some [0x01] } := by
  have htime : packTime t.par (streamPolicy stream) time = .ok dt := by rw [hpar]; exact packTime_of_answersOk hpack
  exact encodeAt_of_seen htime (lastSeen_of_shouldEmit hemit) rd

/-! ### The obligations -/

/-- Settles O8: no malformed byte string is the encoding of a well-formed command. -/
theorem malformedCommandsAreIllegal : Obligations.MalformedCommandsAreIllegal := by
  intro s t rest hconstructed hinbox hmalformed
  have hrejected : ∃ e, decode t.bytes = .error e := by
    obtain hrejected | hempty | ⟨i, k, hi, hk, hshort⟩ | ⟨i, x, hi, hx, hlong⟩ | ⟨op, b, r, hop, hzero, hone, hbytes⟩ := hmalformed
    · exact hrejected
    · exact exists_decode_error fun j _ => by rw [hempty]; exact (List.cons_ne_nil _ _).symm
    · exact exists_decode_error fun j hj => by rw [hshort]; exact take_encode_ne_encode hi hj hk
    · exact exists_decode_error fun j hj => by rw [hlong]; exact encode_append_ne_encode hi hj hx
    · refine exists_decode_error fun j _ hencode => ?_
      exact (selector_of_encode hop (hbytes.symm.trans hencode)).elim hzero hone
  obtain ⟨e, hdecode⟩ := hrejected
  exact step_of_decode_error hconstructed hinbox hdecode

/-- Settles O21: RESET is `State.clear` and the response 00. -/
theorem resetCommandClears : Obligations.ResetCommandClears := by
  intro s
  rw [exec, execReset, clear_eq]
  rfl

/-- Settles O6: the block is idle, rejects the bytes, or runs a command, and every command goes on and keeps Cfg and Par. -/
theorem stepOfAConstructedBlockGoesOn : Obligations.StepOfAConstructedBlockGoesOn := by
  intro s hconstructed
  cases hinbox : s.inbox with
  | nil => exact ⟨s, step_of_inbox_nil hconstructed hinbox, hconstructed⟩
  | cons tr rest =>
    cases hdecode : decode tr.bytes with
    | error e => exact ⟨_, step_of_decode_error hconstructed hinbox hdecode, hconstructed⟩
    | ok i =>
      obtain ⟨-, hstep⟩ := stepRunsTheDecodedCommand s tr rest i hconstructed hinbox hdecode
      obtain ⟨t, hexec, hsame⟩ := exec_sameSetting i { s with inbox := rest, clock := tr.clock }
      exact ⟨t, hstep.trans hexec, hsame.constructed.trans hconstructed⟩

/-- Settles O50: each of the three times fails to pack. -/
theorem encodeChecksTheTimeFirst : Obligations.EncodeChecksTheTimeFirst := by
  intro s stream ts rd
  have hencode {c : Components} (hrange : inRange c = false) : encodeAt stream (.ok c) rd s = s.raise .invalidTimestamp :=
    encodeAt_of_pack_fault (packTime_of_not_inRange hrange _ _) rd
  refine ⟨fun hrange => (exec_encodes (hencode hrange) ts).1 rfl, fun hparse => ?_,
    fun c hparse hrange => (exec_encodes (hencode hrange) ts).2 hparse⟩
  rw [exec, execEncodeExplicit, explicitTime_of_no_parse hparse, encodeAt_of_pack_fault rfl]
  rfl

/-- Settles O5: the idle step. -/
theorem idleStepKeepsTheState : Obligations.IdleStepKeepsTheState :=
  fun _ => step_of_inbox_nil

/-- Settles O22: RESET and construction both leave nothing seen and no power snapshot. -/
theorem resetCommandIsConstruction : Obligations.ResetCommandIsConstruction := by
  intro s hinv
  refine ⟨s.clear.respondOk [], _, rfl, construct_identity hinv.constructed, ?_⟩
  rw [clear_eq_of_inv hinv]
  rfl

/-- Settles O51: the encode finds the datetime that SHOULD_EMIT left in the table. -/
theorem shouldEmitConsumesTheDatetime : Obligations.ShouldEmitConsumesTheDatetime := by
  intro s t u stream dt rd hemit
  obtain ⟨t', hexec, hsame⟩ := exec_sameSetting (.shouldEmit stream dt) s
  cases hexec.symm.trans hemit
  refine ⟨fun hpack hok => ?_, fun ts hpack hok => ?_⟩ <;> cases hpack <;> rw [policyOf_streamByte] at hok
  · rw [← hsame.clock] at hok
    rw [exec, execEncodeClock, encodeAt_after_shouldEmit hemit hsame.par hok]
  · have htime : t.par.explicitTime ts = s.par.explicitTime ts := by rw [hsame.par]
    rw [exec, execEncodeExplicit, htime, encodeAt_after_shouldEmit hemit hsame.par hok]

end Sys2Proof.Proofs
end
